-- ==== Sys2Proof/Word.lean ====
section
/-! DEFINITION. The widths of spec/00_scope.md R6: words, halfwords, bytes, register numbers. -/

namespace Sys2Proof

/-- 32 bits: a general register, HI, LO, the PC, an address, an instruction (R6). -/
abbrev Word := BitVec 32

/-- 16 bits: a halfword of memory, the `imm` field of an instruction (R91). -/
abbrev Half := BitVec 16

/-- 8 bits: one byte of memory (R6). -/
abbrev Byte := BitVec 8

/-- 5 bits: a register number, 0 to 31 (R14, R91). -/
abbrev RegIdx := BitVec 5

end Sys2Proof
end

