-- ==== Sys2Proof/Syntax.lean ====
section
/-! DEFINITION. The instructions of spec/30_encoding.md R100: one constructor for each of the 53 rows of
spec/opcode_table.json, in the table's order. Operands stand in the order of the assembler syntax (R115), each with the
width of its field (R91): `imm` is the 16-bit field before extension, `target` the 26-bit field (R14). Fields that an
instruction does not use (R102) are no operands (log 11). -/

namespace Sys2Proof

inductive Instr where
  /-- `sll rd, rt, shamt`, spec/40_alu.md R159. -/
  | sll (rd : RegIdx) (rt : RegIdx) (shamt : BitVec 5)
  /-- `srl rd, rt, shamt`, spec/40_alu.md R160. -/
  | srl (rd : RegIdx) (rt : RegIdx) (shamt : BitVec 5)
  /-- `sra rd, rt, shamt`, spec/40_alu.md R161. -/
  | sra (rd : RegIdx) (rt : RegIdx) (shamt : BitVec 5)
  /-- `sllv rd, rt, rs`, spec/40_alu.md R162. -/
  | sllv (rd : RegIdx) (rt : RegIdx) (rs : RegIdx)
  /-- `srlv rd, rt, rs`, spec/40_alu.md R163. -/
  | srlv (rd : RegIdx) (rt : RegIdx) (rs : RegIdx)
  /-- `srav rd, rt, rs`, spec/40_alu.md R164. -/
  | srav (rd : RegIdx) (rt : RegIdx) (rs : RegIdx)
  /-- `jr rs`, spec/42_control.md R231. -/
  | jr (rs : RegIdx)
  /-- `jalr rd, rs`, spec/42_control.md R232. -/
  | jalr (rd : RegIdx) (rs : RegIdx)
  /-- `syscall`, spec/44_syscall.md R270. -/
  | syscall
  /-- `mfhi rd`, spec/41_muldiv.md R204. -/
  | mfhi (rd : RegIdx)
  /-- `mthi rs`, spec/41_muldiv.md R206. -/
  | mthi (rs : RegIdx)
  /-- `mflo rd`, spec/41_muldiv.md R205. -/
  | mflo (rd : RegIdx)
  /-- `mtlo rs`, spec/41_muldiv.md R207. -/
  | mtlo (rs : RegIdx)
  /-- `mult rs, rt`, spec/41_muldiv.md R200. -/
  | mult (rs : RegIdx) (rt : RegIdx)
  /-- `multu rs, rt`, spec/41_muldiv.md R201. -/
  | multu (rs : RegIdx) (rt : RegIdx)
  /-- `div rs, rt`, spec/41_muldiv.md R202. -/
  | div (rs : RegIdx) (rt : RegIdx)
  /-- `divu rs, rt`, spec/41_muldiv.md R203. -/
  | divu (rs : RegIdx) (rt : RegIdx)
  /-- `add rd, rs, rt`, spec/40_alu.md R141. -/
  | add (rd : RegIdx) (rs : RegIdx) (rt : RegIdx)
  /-- `addu rd, rs, rt`, spec/40_alu.md R142. -/
  | addu (rd : RegIdx) (rs : RegIdx) (rt : RegIdx)
  /-- `sub rd, rs, rt`, spec/40_alu.md R143. -/
  | sub (rd : RegIdx) (rs : RegIdx) (rt : RegIdx)
  /-- `subu rd, rs, rt`, spec/40_alu.md R144. -/
  | subu (rd : RegIdx) (rs : RegIdx) (rt : RegIdx)
  /-- `and rd, rs, rt`, spec/40_alu.md R145. -/
  | and (rd : RegIdx) (rs : RegIdx) (rt : RegIdx)
  /-- `or rd, rs, rt`, spec/40_alu.md R146. -/
  | or (rd : RegIdx) (rs : RegIdx) (rt : RegIdx)
  /-- `xor rd, rs, rt`, spec/40_alu.md R147. -/
  | xor (rd : RegIdx) (rs : RegIdx) (rt : RegIdx)
  /-- `nor rd, rs, rt`, spec/40_alu.md R148. -/
  | nor (rd : RegIdx) (rs : RegIdx) (rt : RegIdx)
  /-- `slt rd, rs, rt`, spec/40_alu.md R149. -/
  | slt (rd : RegIdx) (rs : RegIdx) (rt : RegIdx)
  /-- `sltu rd, rs, rt`, spec/40_alu.md R150. -/
  | sltu (rd : RegIdx) (rs : RegIdx) (rt : RegIdx)
  /-- `bltz rs, offset`, spec/42_control.md R225. -/
  | bltz (rs : RegIdx) (imm : Half)
  /-- `bgez rs, offset`, spec/42_control.md R226. -/
  | bgez (rs : RegIdx) (imm : Half)
  /-- `bltzal rs, offset`, spec/42_control.md R227. -/
  | bltzal (rs : RegIdx) (imm : Half)
  /-- `bgezal rs, offset`, spec/42_control.md R228. -/
  | bgezal (rs : RegIdx) (imm : Half)
  /-- `j target`, spec/42_control.md R229. -/
  | j (target : BitVec 26)
  /-- `jal target`, spec/42_control.md R230. -/
  | jal (target : BitVec 26)
  /-- `beq rs, rt, offset`, spec/42_control.md R221. -/
  | beq (rs : RegIdx) (rt : RegIdx) (imm : Half)
  /-- `bne rs, rt, offset`, spec/42_control.md R222. -/
  | bne (rs : RegIdx) (rt : RegIdx) (imm : Half)
  /-- `blez rs, offset`, spec/42_control.md R223. -/
  | blez (rs : RegIdx) (imm : Half)
  /-- `bgtz rs, offset`, spec/42_control.md R224. -/
  | bgtz (rs : RegIdx) (imm : Half)
  /-- `addi rt, rs, imm`, spec/40_alu.md R151. -/
  | addi (rt : RegIdx) (rs : RegIdx) (imm : Half)
  /-- `addiu rt, rs, imm`, spec/40_alu.md R152. -/
  | addiu (rt : RegIdx) (rs : RegIdx) (imm : Half)
  /-- `slti rt, rs, imm`, spec/40_alu.md R153. -/
  | slti (rt : RegIdx) (rs : RegIdx) (imm : Half)
  /-- `sltiu rt, rs, imm`, spec/40_alu.md R154. -/
  | sltiu (rt : RegIdx) (rs : RegIdx) (imm : Half)
  /-- `andi rt, rs, imm`, spec/40_alu.md R155. -/
  | andi (rt : RegIdx) (rs : RegIdx) (imm : Half)
  /-- `ori rt, rs, imm`, spec/40_alu.md R156. -/
  | ori (rt : RegIdx) (rs : RegIdx) (imm : Half)
  /-- `xori rt, rs, imm`, spec/40_alu.md R157. -/
  | xori (rt : RegIdx) (rs : RegIdx) (imm : Half)
  /-- `lui rt, imm`, spec/40_alu.md R158. -/
  | lui (rt : RegIdx) (imm : Half)
  /-- `lb rt, imm(rs)`, spec/43_loadstore.md R251. -/
  | lb (rt : RegIdx) (rs : RegIdx) (imm : Half)
  /-- `lh rt, imm(rs)`, spec/43_loadstore.md R253. -/
  | lh (rt : RegIdx) (rs : RegIdx) (imm : Half)
  /-- `lw rt, imm(rs)`, spec/43_loadstore.md R255. -/
  | lw (rt : RegIdx) (rs : RegIdx) (imm : Half)
  /-- `lbu rt, imm(rs)`, spec/43_loadstore.md R252. -/
  | lbu (rt : RegIdx) (rs : RegIdx) (imm : Half)
  /-- `lhu rt, imm(rs)`, spec/43_loadstore.md R254. -/
  | lhu (rt : RegIdx) (rs : RegIdx) (imm : Half)
  /-- `sb rt, imm(rs)`, spec/43_loadstore.md R256. -/
  | sb (rt : RegIdx) (rs : RegIdx) (imm : Half)
  /-- `sh rt, imm(rs)`, spec/43_loadstore.md R257. -/
  | sh (rt : RegIdx) (rs : RegIdx) (imm : Half)
  /-- `sw rt, imm(rs)`, spec/43_loadstore.md R258. -/
  | sw (rt : RegIdx) (rs : RegIdx) (imm : Half)
  deriving DecidableEq, Repr

end Sys2Proof
end

