-- ==== Sys2Proof/WellFormed.lean ====
section
/-! DEFINITION. When an operand fits the field it is written to, spec/30_encoding.md R115 to R118: the checks behind
"EncodingError, not silent truncation". The fields of `Instr` have the widths of R91, so every term of `Instr` is
well-formed; what can be ill-formed is an operand, an unbounded integer or an address, before it becomes a field. -/

namespace Sys2Proof

/-- An operand that does not fit its field (R116). -/
inductive EncodingError where
  | immediateRange (value : Int)
  | shiftRange (value : Int)
  | branchAlign (source target : Word)
  | branchRange (source target : Word)
  | jumpAlign (target : Word)
  | jumpRegion (source target : Word)
  deriving DecidableEq, Repr

/-- The immediate of `addi addiu slti sltiu` and the offset of a load or store: -32768..32767 (R115). -/
def fitsSigned16 (i : Int) : Bool := decide (-32768 ≤ i ∧ i ≤ 32767)

/-- The immediate of `andi ori xori lui`: 0..65535 (R115). -/
def fitsUnsigned16 (i : Int) : Bool := decide (0 ≤ i ∧ i ≤ 65535)

/-- The shift amount of `sll srl sra`: 0..31 (R115). -/
def fitsShamt (i : Int) : Bool := decide (0 ≤ i ∧ i ≤ 31)

/-- The byte distance `L - (A + 4)` of R117, as an exact integer: a label that a branch reaches only by wrapping past 2^32 is out
of range. R117 does not say whether it is (DESIGN CHOICE, log 30). -/
def branchDistance (A L : Word) : Int := (L.toNat : Int) - ((A.toNat : Int) + 4)

/-- The distance of a branch is a whole number of words (R117). -/
def branchAligned (A L : Word) : Bool := decide (branchDistance A L % 4 = 0)

/-- The offset of a branch in words lies in -32768..32767 (R117). -/
def branchInRange (A L : Word) : Bool := fitsSigned16 (branchDistance A L / 4)

/-- A jump target is word-aligned (R118). -/
def jumpAligned (L : Word) : Bool := L.extractLsb' 0 2 == 0#2

/-- A jump target lies in the 256 MiB region of `R` (R118). -/
def jumpInRegion (R L : Word) : Bool := L.extractLsb' 28 4 == R.extractLsb' 28 4

end Sys2Proof
end

