-- ==== Sys2Proof/Decode.lean ====
section
/-! DEFINITION. Encoding and decoding, spec/30_encoding.md R90 to R105. The decoder is total on every 32-bit word and on
every list of bytes; what it does not read it rejects by name. The encoder is written from the same tables. -/

namespace Sys2Proof

/-- The bits of the `rs` field, 25:21 (R91). -/
def maskRs : Word := 0x03E00000#32
/-- The bits of the `rt` field, 20:16 (R91). -/
def maskRt : Word := 0x001F0000#32
/-- The bits of the `rd` field, 15:11 (R91). -/
def maskRd : Word := 0x0000F800#32
/-- The bits of the `shamt` field, 10:6 (R91). -/
def maskShamt : Word := 0x000007C0#32

/-- `op`, bits 31:26 (R91). -/
def fieldOp (w : Word) : BitVec 6 := w.extractLsb' 26 6
/-- `rs`, bits 25:21 (R91). -/
def fieldRs (w : Word) : RegIdx := w.extractLsb' 21 5
/-- `rt`, bits 20:16 (R91). -/
def fieldRt (w : Word) : RegIdx := w.extractLsb' 16 5
/-- `rd`, bits 15:11 (R91). -/
def fieldRd (w : Word) : RegIdx := w.extractLsb' 11 5
/-- `shamt`, bits 10:6 (R91). -/
def fieldShamt (w : Word) : BitVec 5 := w.extractLsb' 6 5
/-- `funct`, bits 5:0 (R91). -/
def fieldFunct (w : Word) : BitVec 6 := w.extractLsb' 0 6
/-- `imm`, bits 15:0 (R91). -/
def fieldImm (w : Word) : Half := w.extractLsb' 0 16
/-- `target`, bits 25:0 (R91). -/
def fieldTarget (w : Word) : BitVec 26 := w.extractLsb' 0 26

/-- Why bytes are no instruction. -/
inductive DecodeError where
  /-- Fewer than the 4 bytes of an instruction (R90). -/
  | truncated
  /-- `op` is no key of R100. -/
  | unknownOp (op : BitVec 6)
  /-- `op` is 0 and `funct` is no key of R100. -/
  | unknownFunct (funct : BitVec 6)
  /-- `op` is 1 and `rt` is no key of R100. -/
  | unknownRegimm (rt : BitVec 5)
  /-- STRICT_FIELDS, and a field that R102 lists for the instruction is not zero. -/
  | reservedField (word : Word)
  deriving DecidableEq, Repr

/-- SPECIAL (`op = 0`), selected by `funct` (R100). -/
def decodeSpecial (w : Word) : Except DecodeError Instr :=
  match fieldFunct w with
  | 0x00#6 => .ok (.sll (fieldRd w) (fieldRt w) (fieldShamt w))
  | 0x02#6 => .ok (.srl (fieldRd w) (fieldRt w) (fieldShamt w))
  | 0x03#6 => .ok (.sra (fieldRd w) (fieldRt w) (fieldShamt w))
  | 0x04#6 => .ok (.sllv (fieldRd w) (fieldRt w) (fieldRs w))
  | 0x06#6 => .ok (.srlv (fieldRd w) (fieldRt w) (fieldRs w))
  | 0x07#6 => .ok (.srav (fieldRd w) (fieldRt w) (fieldRs w))
  | 0x08#6 => .ok (.jr (fieldRs w))
  | 0x09#6 => .ok (.jalr (fieldRd w) (fieldRs w))
  | 0x0C#6 => .ok .syscall
  | 0x10#6 => .ok (.mfhi (fieldRd w))
  | 0x11#6 => .ok (.mthi (fieldRs w))
  | 0x12#6 => .ok (.mflo (fieldRd w))
  | 0x13#6 => .ok (.mtlo (fieldRs w))
  | 0x18#6 => .ok (.mult (fieldRs w) (fieldRt w))
  | 0x19#6 => .ok (.multu (fieldRs w) (fieldRt w))
  | 0x1A#6 => .ok (.div (fieldRs w) (fieldRt w))
  | 0x1B#6 => .ok (.divu (fieldRs w) (fieldRt w))
  | 0x20#6 => .ok (.add (fieldRd w) (fieldRs w) (fieldRt w))
  | 0x21#6 => .ok (.addu (fieldRd w) (fieldRs w) (fieldRt w))
  | 0x22#6 => .ok (.sub (fieldRd w) (fieldRs w) (fieldRt w))
  | 0x23#6 => .ok (.subu (fieldRd w) (fieldRs w) (fieldRt w))
  | 0x24#6 => .ok (.and (fieldRd w) (fieldRs w) (fieldRt w))
  | 0x25#6 => .ok (.or (fieldRd w) (fieldRs w) (fieldRt w))
  | 0x26#6 => .ok (.xor (fieldRd w) (fieldRs w) (fieldRt w))
  | 0x27#6 => .ok (.nor (fieldRd w) (fieldRs w) (fieldRt w))
  | 0x2A#6 => .ok (.slt (fieldRd w) (fieldRs w) (fieldRt w))
  | 0x2B#6 => .ok (.sltu (fieldRd w) (fieldRs w) (fieldRt w))
  | f => .error (.unknownFunct f)

/-- REGIMM (`op = 1`), selected by `rt` (R100). -/
def decodeRegimm (w : Word) : Except DecodeError Instr :=
  match fieldRt w with
  | 0x00#5 => .ok (.bltz (fieldRs w) (fieldImm w))
  | 0x01#5 => .ok (.bgez (fieldRs w) (fieldImm w))
  | 0x10#5 => .ok (.bltzal (fieldRs w) (fieldImm w))
  | 0x11#5 => .ok (.bgezal (fieldRs w) (fieldImm w))
  | r => .error (.unknownRegimm r)

/-- The dispatch table of R100: the instruction of a word's key, with its fields. -/
def decodeKey (w : Word) : Except DecodeError Instr :=
  match fieldOp w with
  | 0x00#6 => decodeSpecial w
  | 0x01#6 => decodeRegimm w
  | 0x02#6 => .ok (.j (fieldTarget w))
  | 0x03#6 => .ok (.jal (fieldTarget w))
  | 0x04#6 => .ok (.beq (fieldRs w) (fieldRt w) (fieldImm w))
  | 0x05#6 => .ok (.bne (fieldRs w) (fieldRt w) (fieldImm w))
  | 0x06#6 => .ok (.blez (fieldRs w) (fieldImm w))
  | 0x07#6 => .ok (.bgtz (fieldRs w) (fieldImm w))
  | 0x08#6 => .ok (.addi (fieldRt w) (fieldRs w) (fieldImm w))
  | 0x09#6 => .ok (.addiu (fieldRt w) (fieldRs w) (fieldImm w))
  | 0x0A#6 => .ok (.slti (fieldRt w) (fieldRs w) (fieldImm w))
  | 0x0B#6 => .ok (.sltiu (fieldRt w) (fieldRs w) (fieldImm w))
  | 0x0C#6 => .ok (.andi (fieldRt w) (fieldRs w) (fieldImm w))
  | 0x0D#6 => .ok (.ori (fieldRt w) (fieldRs w) (fieldImm w))
  | 0x0E#6 => .ok (.xori (fieldRt w) (fieldRs w) (fieldImm w))
  | 0x0F#6 => .ok (.lui (fieldRt w) (fieldImm w))
  | 0x20#6 => .ok (.lb (fieldRt w) (fieldRs w) (fieldImm w))
  | 0x21#6 => .ok (.lh (fieldRt w) (fieldRs w) (fieldImm w))
  | 0x23#6 => .ok (.lw (fieldRt w) (fieldRs w) (fieldImm w))
  | 0x24#6 => .ok (.lbu (fieldRt w) (fieldRs w) (fieldImm w))
  | 0x25#6 => .ok (.lhu (fieldRt w) (fieldRs w) (fieldImm w))
  | 0x28#6 => .ok (.sb (fieldRt w) (fieldRs w) (fieldImm w))
  | 0x29#6 => .ok (.sh (fieldRt w) (fieldRs w) (fieldImm w))
  | 0x2B#6 => .ok (.sw (fieldRt w) (fieldRs w) (fieldImm w))
  | o => .error (.unknownOp o)

/-- The bits that R102 says should be zero, for each instruction; `syscall`, `j`, `jal`, the REGIMM branches and every
other I-format instruction have none. -/
def reservedMask : Instr → Word
  | .sll _ _ _ | .srl _ _ _ | .sra _ _ _ => maskRs
  | .sllv _ _ _ | .srlv _ _ _ | .srav _ _ _ => maskShamt
  | .add _ _ _ | .addu _ _ _ | .sub _ _ _ | .subu _ _ _ | .and _ _ _ | .or _ _ _ | .xor _ _ _ | .nor _ _ _
  | .slt _ _ _ | .sltu _ _ _ => maskShamt
  | .jr _ => maskRt ||| maskRd ||| maskShamt
  | .jalr _ _ => maskRt ||| maskShamt
  | .mfhi _ | .mflo _ => maskRs ||| maskRt ||| maskShamt
  | .mthi _ | .mtlo _ => maskRt ||| maskRd ||| maskShamt
  | .mult _ _ | .multu _ _ | .div _ _ | .divu _ _ => maskRd ||| maskShamt
  | .blez _ _ | .bgtz _ _ => maskRt
  | .lui _ _ => maskRs
  | .syscall => 0#32
  | .bltz _ _ | .bgez _ _ | .bltzal _ _ | .bgezal _ _ => 0#32
  | .j _ | .jal _ => 0#32
  | .beq _ _ _ | .bne _ _ _ => 0#32
  | .addi _ _ _ | .addiu _ _ _ | .slti _ _ _ | .sltiu _ _ _ | .andi _ _ _ | .ori _ _ _ | .xori _ _ _ => 0#32
  | .lb _ _ _ | .lh _ _ _ | .lw _ _ _ | .lbu _ _ _ | .lhu _ _ _ | .sb _ _ _ | .sh _ _ _ | .sw _ _ _ => 0#32

/-- `decode(word)` of R99, with STRICT_FIELDS as an argument. -/
def decode (strict : Bool) (w : Word) : Except DecodeError Instr :=
  match decodeKey w with
  | .error e => .error e
  | .ok i => if strict ∧ w &&& reservedMask i ≠ 0#32 then .error (.reservedField w) else .ok i

/-- Four bytes as a word, the first the most significant (spec/20_memory.md R67). -/
def wordOfBytes (b0 b1 b2 b3 : Byte) : Word := b0 ++ b1 ++ b2 ++ b3

/-- A word as its four bytes, the most significant first (spec/20_memory.md R67). -/
def bytesOfWord (w : Word) : List Byte :=
  [w.extractLsb' 24 8, w.extractLsb' 16 8, w.extractLsb' 8 8, w.extractLsb' 0 8]

/-- Decoding a list of bytes: the instruction of the first four, fetched big-endian (R90), and the rest. -/
def decodeBytes (strict : Bool) : List Byte → Except DecodeError (Instr × List Byte)
  | b0 :: b1 :: b2 :: b3 :: rest =>
    match decode strict (wordOfBytes b0 b1 b2 b3) with
    | .error e => .error e
    | .ok i => .ok (i, rest)
  | _ => .error .truncated

/-- R-format (R92): `op = 0`, then rs, rt, rd, shamt, funct. -/
def wordR (rs rt rd shamt : BitVec 5) (funct : BitVec 6) : Word := 0x00#6 ++ rs ++ rt ++ rd ++ shamt ++ funct

/-- I-format (R93): op, rs, rt, imm. -/
def wordI (op : BitVec 6) (rs rt : BitVec 5) (imm : Half) : Word := op ++ rs ++ rt ++ imm

/-- J-format (R94): op, target. -/
def wordJ (op : BitVec 6) (target : BitVec 26) : Word := op ++ target

/-- The word of an instruction, every unused field zero (R104). -/
def encode : Instr → Word
  | .sll rd rt shamt => wordR 0 rt rd shamt 0x00#6
  | .srl rd rt shamt => wordR 0 rt rd shamt 0x02#6
  | .sra rd rt shamt => wordR 0 rt rd shamt 0x03#6
  | .sllv rd rt rs => wordR rs rt rd 0 0x04#6
  | .srlv rd rt rs => wordR rs rt rd 0 0x06#6
  | .srav rd rt rs => wordR rs rt rd 0 0x07#6
  | .jr rs => wordR rs 0 0 0 0x08#6
  | .jalr rd rs => wordR rs 0 rd 0 0x09#6
  | .syscall => wordR 0 0 0 0 0x0C#6
  | .mfhi rd => wordR 0 0 rd 0 0x10#6
  | .mthi rs => wordR rs 0 0 0 0x11#6
  | .mflo rd => wordR 0 0 rd 0 0x12#6
  | .mtlo rs => wordR rs 0 0 0 0x13#6
  | .mult rs rt => wordR rs rt 0 0 0x18#6
  | .multu rs rt => wordR rs rt 0 0 0x19#6
  | .div rs rt => wordR rs rt 0 0 0x1A#6
  | .divu rs rt => wordR rs rt 0 0 0x1B#6
  | .add rd rs rt => wordR rs rt rd 0 0x20#6
  | .addu rd rs rt => wordR rs rt rd 0 0x21#6
  | .sub rd rs rt => wordR rs rt rd 0 0x22#6
  | .subu rd rs rt => wordR rs rt rd 0 0x23#6
  | .and rd rs rt => wordR rs rt rd 0 0x24#6
  | .or rd rs rt => wordR rs rt rd 0 0x25#6
  | .xor rd rs rt => wordR rs rt rd 0 0x26#6
  | .nor rd rs rt => wordR rs rt rd 0 0x27#6
  | .slt rd rs rt => wordR rs rt rd 0 0x2A#6
  | .sltu rd rs rt => wordR rs rt rd 0 0x2B#6
  | .bltz rs imm => wordI 0x01#6 rs 0x00#5 imm
  | .bgez rs imm => wordI 0x01#6 rs 0x01#5 imm
  | .bltzal rs imm => wordI 0x01#6 rs 0x10#5 imm
  | .bgezal rs imm => wordI 0x01#6 rs 0x11#5 imm
  | .j target => wordJ 0x02#6 target
  | .jal target => wordJ 0x03#6 target
  | .beq rs rt imm => wordI 0x04#6 rs rt imm
  | .bne rs rt imm => wordI 0x05#6 rs rt imm
  | .blez rs imm => wordI 0x06#6 rs 0 imm
  | .bgtz rs imm => wordI 0x07#6 rs 0 imm
  | .addi rt rs imm => wordI 0x08#6 rs rt imm
  | .addiu rt rs imm => wordI 0x09#6 rs rt imm
  | .slti rt rs imm => wordI 0x0A#6 rs rt imm
  | .sltiu rt rs imm => wordI 0x0B#6 rs rt imm
  | .andi rt rs imm => wordI 0x0C#6 rs rt imm
  | .ori rt rs imm => wordI 0x0D#6 rs rt imm
  | .xori rt rs imm => wordI 0x0E#6 rs rt imm
  | .lui rt imm => wordI 0x0F#6 0 rt imm
  | .lb rt rs imm => wordI 0x20#6 rs rt imm
  | .lh rt rs imm => wordI 0x21#6 rs rt imm
  | .lw rt rs imm => wordI 0x23#6 rs rt imm
  | .lbu rt rs imm => wordI 0x24#6 rs rt imm
  | .lhu rt rs imm => wordI 0x25#6 rs rt imm
  | .sb rt rs imm => wordI 0x28#6 rs rt imm
  | .sh rt rs imm => wordI 0x29#6 rs rt imm
  | .sw rt rs imm => wordI 0x2B#6 rs rt imm

/-- The instruction as bytes in memory order, big-endian (R90). -/
def encodeBytes (i : Instr) : List Byte := bytesOfWord (encode i)

/-- The instruction that the decoder reads from an instruction whose bits are `w` (the host's question): the word's
bytes, laid out big-endian, given to the decoder under the default STRICT_FIELDS of spec/00_scope.md R7. -/
def decodeTableWord (nbits w : Nat) : Option Instr :=
  match decodeBytes false (bytesOfWord (BitVec.ofNat 32 (w % 2 ^ nbits))) with
  | .error _ => none
  | .ok (i, _) => some i

end Sys2Proof
end

