-- ==== Sys2Proof/FaultRecord.lean ====
section
/-! DEFINITION. The engine's fault record, spec/60_exceptions.md R300: twelve kinds, each with the info it records. -/

namespace Sys2Proof

/-- The info of an `InputError` (R300; spec/44_syscall.md R275, R276). -/
inductive InputError where
  /-- `read_line` reported that the input is exhausted. -/
  | exhausted
  /-- The line is not a decimal integer in range (R275). -/
  | malformed
  deriving DecidableEq, Repr, Inhabited

/-- The fault kinds of R300 in the order of their codes, each with its info. -/
inductive FaultKind where
  | illegalInstruction (word : Word)
  | addressErrorFetch (addr : Word)
  | accessFaultFetch (addr : Word)
  | addressErrorLoad (addr : Word)
  | addressErrorStore (addr : Word)
  | accessFaultLoad (addr : Word)
  | accessFaultStore (addr : Word)
  | divideByZero
  | integerOverflow
  | divideOverflow
  | unknownSyscall (code : Word)
  | inputError (e : InputError)
  deriving DecidableEq, Repr, Inhabited

/-- A fault record `(kind, pc, info)`: `pc` is the address of the faulting instruction, for a fetch fault the PC that
was fetched (R300). -/
structure FaultRecord where
  kind : FaultKind
  pc : Word
  deriving DecidableEq, Repr, Inhabited

/-- The engine status (spec/10_state.md R30). -/
inductive Status where
  /-- After load or reset, before the first step. -/
  | loaded
  /-- After a step that ended normally. -/
  | running
  /-- Terminal: after the exit syscall, or after a step whose PC is TEXT_END. -/
  | halted
  /-- Terminal: after a step that raised a fault. -/
  | faulted
  deriving DecidableEq, Repr, Inhabited

/-- One answer of the host to one `read_line` (spec/44_syscall.md R271). -/
inductive HostAnswer where
  /-- A line, as the characters of the string, without its terminator. -/
  | line (text : List Char)
  /-- The host reports that input is exhausted. -/
  | exhausted
  /-- The host never answers: the step never ends (spec/70_reset_and_hazards.md R346: a hang). -/
  | silent
  deriving DecidableEq, Repr, Inhabited

end Sys2Proof
end

