-- ==== Sys2Proof/Config.lean ====
section
/-! DEFINITION. The parameters of spec/00_scope.md R7 with their defaults, the program image, and the values the spec
leaves free. -/

namespace Sys2Proof

/-- DIV_OVERFLOW: what `div` of 0x80000000 by -1 does (R7; spec/41_muldiv.md R202). -/
inductive DivOverflow where
  | fault
  | wrap
  deriving DecidableEq, Repr

/-- J_REGION: which PC supplies the top 4 bits of a `j` or `jal` target (R7; spec/30_encoding.md R97). -/
inductive JRegion where
  | pc
  | pcPlus4
  deriving DecidableEq, Repr

/-- The configuration parameters of R7; the default of each field is the default of the table in R7. Addresses are
32-bit (R6), sizes are unbounded (R8). -/
structure Config where
  /-- TEXT_BASE -/
  textBase : Word := 0x00400000#32
  /-- DATA_BASE -/
  dataBase : Word := 0x10010000#32
  /-- DATA_SIZE; `none` is "the image's data length" -/
  dataSize : Option Nat := none
  /-- STACK_TOP -/
  stackTop : Word := 0x7FFFF000#32
  /-- STACK_SIZE -/
  stackSize : Nat := 0x00010000
  /-- ENTRY; `none` is TEXT_BASE -/
  entry : Option Word := none
  /-- SCRATCH_REG -/
  scratchReg : RegIdx := 1#5
  /-- OVERFLOW_TRAPS -/
  overflowTraps : Bool := true
  /-- DIV_OVERFLOW -/
  divOverflow : DivOverflow := .fault
  /-- STRICT_FIELDS -/
  strictFields : Bool := false
  /-- J_REGION -/
  jRegion : JRegion := .pc
  deriving DecidableEq, Repr

/-- The default configuration of R7. -/
def Config.default : Config := {}

/-- The part of a program image that the engine keeps (spec/70_reset_and_hazards.md R330): text, data, entry point.
The symbol table "is not part of the engine's state". -/
structure Image where
  text : List Byte
  data : List Byte
  entry : Word
  deriving DecidableEq, Repr

/-- FREE VALUE (log 3): the host's answer to the n-th `read_line` for which `State.answers` holds none. "The host
answers In() with any line it chooses" (spec/44_syscall.md R271). -/
opaque Config.hostAnswer : Nat → HostAnswer

/-- FREE VALUE (log 13): the text of the last fault message where the spec fixes none (spec/60_exceptions.md R303). -/
opaque Config.faultText : FaultRecord → List Char

end Sys2Proof
end

