-- ==== Sys2Proof/Machine/State.lean ====
section
/-! DEFINITION. The state of the engine (spec/10_state.md R20 to R31), with the parameters it was loaded with and the
host's side of its input and output as plain data; the ways a step can stop without a next state; the state after reset. -/

namespace Sys2Proof.Machine

open Sys2Proof

/-- Memory: the bytes that differ from `Memory.unlisted`, by address, in the canonical form of `Memory.wf`. -/
abbrev Memory := List Host.Cell

/-- What an address that memory does not list reads as: 0x00, the byte that spec/10_state.md R41 gives every backed byte
that the image does not fill (log 5). -/
def Memory.unlisted : Byte := 0x00#8

/-- The canonical form: addresses strictly rising, no listed byte equal to what an unlisted address reads as. -/
abbrev Memory.wf (m : Memory) : Prop :=
  m.Pairwise (fun c d => c.1 < d.1) ∧ ∀ c ∈ m, c.2 ≠ Memory.unlisted

structure State where
  /-- The general registers (R20). The slot of register 0 is never read and never written (`State.reg`, `State.setReg`). -/
  regs : Vector Word 32
  /-- The program counter (R26). -/
  pc : Word
  /-- HI (R25). -/
  hi : Word
  /-- LO (R25). -/
  lo : Word
  /-- The memory map of spec/20_memory.md R61. -/
  mem : Memory
  /-- The engine status (R30). -/
  status : Status
  /-- The last fault (R31). -/
  lastFault : Option FaultRecord
  /-- The configuration parameters (spec/00_scope.md R7); fixed by load (log 1). -/
  config : Config
  /-- The loaded image (spec/70_reset_and_hazards.md R330); fixed by load (log 1). -/
  image : Image
  /-- The model's own: the host's coming answers to `read_line`, oldest first (log 2). -/
  answers : List HostAnswer
  /-- The model's own: how many answers were drawn from `Config.hostAnswer` (log 3). -/
  reads : Nat
  /-- The model's own: the byte sequences given to `write_stdout`, one a call, oldest first (log 2). -/
  output : List (List Byte)
  deriving DecidableEq, Repr

/-- The steps that never end. A fault of the spec (spec/60_exceptions.md R300) is NOT one of these: it is a next state
whose status is `faulted` (log 4). -/
inductive Fault where
  /-- Raised by `syscall` (read integer, read string) when the host never answers `read_line`: "stuck (the step does not
  end; a hang)" (spec/93_implementation_defined.md). Safe: the engine makes no further step either. -/
  | readLineNeverReturns
  /-- Raised by `syscall` (print string) when all 2^32 addresses are backed and hold no NUL, so that the scan of
  spec/44_syscall.md R274 never ends (log 8). Safe: the engine makes no further step either. -/
  | printStringNeverEnds
  deriving DecidableEq, Repr

/-- The refusals. -/
inductive Refusal where
  /-- Raised by `exec` for an instruction that has no meaning yet, by its mnemonic; no arm raises it today. Safe. -/
  | notModelled (mnemonic : String)
  deriving DecidableEq, Repr

/-- The state after load and reset (spec/10_state.md R41) of the default configuration and an image with no text and no
data, whose entry point is TEXT_BASE (log 6): registers zero but `$sp = STACK_TOP`, `pc` the entry point. -/
def State.reset : State where
  regs := (Vector.replicate 32 0x00000000#32).set 29 0x7FFFF000#32
  pc := 0x00400000#32
  hi := 0x00000000#32
  lo := 0x00000000#32
  mem := []
  status := .loaded
  lastFault := none
  config := Config.default
  image := { text := [], data := [], entry := 0x00400000#32 }
  answers := []
  reads := 0
  output := []

end Sys2Proof.Machine
end

