-- ==== Sys2Proof/Machine/Ops.lean ====
section
/-! DEFINITION. The named operations over registers, memory, the engine status and the host's streams. Every meaning is
written over these. -/

namespace Sys2Proof.Machine

open Sys2Proof

/-! ### General registers (spec/10_state.md R21) -/

/-- `x[i]`: register 0 always reads zero. -/
def State.reg (s : State) (r : RegIdx) : Word := if r = 0#5 then 0x00000000#32 else s.regs[r.toNat]'r.isLt

/-- `x[i] <- v`: a write to register 0 is discarded. -/
def State.setReg (s : State) (r : RegIdx) (v : Word) : State :=
  if r = 0#5 then s else { s with regs := s.regs.set r.toNat v r.isLt }

/-! ### Bytes of memory -/

/-- The byte at an address. -/
def Memory.read : Memory → Nat → Byte
  | [], _ => Memory.unlisted
  | c :: m, a => if c.1 = a then c.2 else Memory.read m a

/-- Memory with no entry for `a`. -/
def Memory.erase (m : Memory) (a : Nat) : Memory := m.filter (fun c => c.1 ≠ a)

/-- Memory with the entry `(a, b)` before the first entry of a higher address. -/
def Memory.insert (a : Nat) (b : Byte) : Memory → Memory
  | [] => [(a, b)]
  | c :: m => if a < c.1 then (a, b) :: c :: m else c :: Memory.insert a b m

/-- Memory with the byte `b` at `a`; what an unlisted address reads as is not listed. -/
def Memory.write (m : Memory) (a : Nat) (b : Byte) : Memory :=
  if b = Memory.unlisted then Memory.erase m a else Memory.insert a b (Memory.erase m a)

/-- Memory with the bytes `bs` at `a`, `a + 1`, ..., addresses modulo 2^32 (spec/20_memory.md R73). More than 2^32 bytes wrap
onto each other; which one then stands the spec leaves open, and here it is the earlier of the list (DESIGN CHOICE, log 27). -/
def Memory.writeBytes (m : Memory) (a : Word) : List Byte → Memory
  | [] => m
  | b :: bs => (Memory.writeBytes m (a + 1#32) bs).write a.toNat b

/-! ### Regions (spec/20_memory.md R60, spec/00_scope.md R8: sums and differences of unbounded integers) -/

/-- DATA_SIZE. -/
def dataSize (c : Config) (img : Image) : Nat := c.dataSize.getD img.data.length

/-- TEXT_END. -/
def textEnd (c : Config) (img : Image) : Nat := c.textBase.toNat + img.text.length

/-- DATA_END. -/
def dataEnd (c : Config) (img : Image) : Nat := c.dataBase.toNat + dataSize c img

/-- The address lies in the text region. -/
def State.inText (s : State) (a : Word) : Bool :=
  decide (s.config.textBase.toNat ≤ a.toNat ∧ a.toNat < textEnd s.config s.image)

/-- The address lies in the data region. -/
def State.inData (s : State) (a : Word) : Bool :=
  decide (s.config.dataBase.toNat ≤ a.toNat ∧ a.toNat < dataEnd s.config s.image)

/-- The address lies in the stack region, from STACK_BASE = STACK_TOP - STACK_SIZE. -/
def State.inStack (s : State) (a : Word) : Bool :=
  decide (s.config.stackTop.toNat ≤ a.toNat + s.config.stackSize ∧ a.toNat < s.config.stackTop.toNat)

/-- `backed(a)`: the address lies in one of the three regions. -/
def State.backed (s : State) (a : Word) : Bool := s.inText a || s.inData a || s.inStack a

/-! ### Checked accesses (spec/20_memory.md R62 to R66) -/

/-- Which fault an access raises: fetch, load (and a syscall's read), store. -/
inductive Access where
  | fetch
  | load
  | store
  deriving DecidableEq, Repr

/-- `AddressError<kind>(addr)`. -/
def addressError : Access → Word → FaultKind
  | .fetch, a => .addressErrorFetch a
  | .load, a => .addressErrorLoad a
  | .store, a => .addressErrorStore a

/-- `AccessFault<kind>(addr)`. -/
def accessFault : Access → Word → FaultKind
  | .fetch, a => .accessFaultFetch a
  | .load, a => .accessFaultLoad a
  | .store, a => .accessFaultStore a

/-- The first unbacked address among `a`, `a + 1`, ..., `n` of them (modulo 2^32). -/
def State.firstUnbacked (s : State) (a : Word) : Nat → Option Word
  | 0 => none
  | n + 1 => if s.backed a then State.firstUnbacked s (a + 1#32) n else some a

/-- A 2-byte access needs a multiple of 2, a 4-byte access a multiple of 4; a 1-byte access needs none (R64). -/
def aligned (a : Word) (n : Nat) : Bool := decide ((n = 2 ∨ n = 4) → a.toNat % n = 0)

/-- The fault of an access of `n` bytes at `a`, if any: alignment first (R66), then backing (R65). -/
def State.checkAccess (s : State) (k : Access) (a : Word) (n : Nat) : Option FaultKind :=
  if aligned a n then (s.firstUnbacked a n).map (accessFault k) else some (addressError k a)

/-- The byte of memory at an address, unchecked. -/
def State.byteAt (s : State) (a : Word) : Byte := s.mem.read a.toNat

/-- `MemRead(addr, 1)` (R62). -/
def State.memRead8 (s : State) (k : Access) (a : Word) : Except FaultKind Byte :=
  match s.checkAccess k a 1 with
  | some f => .error f
  | none => .ok (s.byteAt a)

/-- `MemRead(addr, 2)`, big-endian (R62). -/
def State.memRead16 (s : State) (k : Access) (a : Word) : Except FaultKind Half :=
  match s.checkAccess k a 2 with
  | some f => .error f
  | none => .ok (s.byteAt a ++ s.byteAt (a + 1#32))

/-- `MemRead(addr, 4)`, big-endian (R62). -/
def State.memRead32 (s : State) (k : Access) (a : Word) : Except FaultKind Word :=
  match s.checkAccess k a 4 with
  | some f => .error f
  | none => .ok (wordOfBytes (s.byteAt a) (s.byteAt (a + 1#32)) (s.byteAt (a + 2#32)) (s.byteAt (a + 3#32)))

/-- A halfword as its two bytes, the most significant first (R67). -/
def bytesOfHalf (h : Half) : List Byte := [h.extractLsb' 8 8, h.extractLsb' 0 8]

/-- The state with the bytes `bs` stored from `a` on, unchecked. -/
def State.storeBytes (s : State) (a : Word) (bs : List Byte) : State := { s with mem := s.mem.writeBytes a bs }

/-- `MemWrite(addr, n, v)` with the `n` bytes of `v` in memory order (R63): all checks come before the first byte. -/
def State.memWrite (s : State) (a : Word) (bs : List Byte) : Except FaultKind State :=
  match s.checkAccess .store a bs.length with
  | some f => .error f
  | none => .ok (s.storeBytes a bs)

/-! ### Ending a step -/

/-- TAKING A FAULT (spec/60_exceptions.md R302, spec/10_state.md R39): nothing of the step commits, the PC keeps the
faulting instruction's address, the status becomes Faulted and the last fault is the record. There is no vector, no mode
and no saved status (R305); there is no return from it, only the host's reset or load (R309). -/
def State.raise (s : State) (k : FaultKind) : State :=
  { s with status := .faulted, lastFault := some { kind := k, pc := s.pc } }

/-- The outcome of a step that raises a fault. -/
def fault (k : FaultKind) (s : State) : Host.Outcome State Fault Refusal := .next (s.raise k)

/-- The commit of a step that ends normally (spec/10_state.md R33): `pc <- npc`, status Running. -/
def State.commit (s : State) (npc : Word) : State := { s with pc := npc, status := .running }

/-- `halt` (spec/10_state.md R36): the status becomes Halted, all else as it is. -/
def State.halt (s : State) : State := { s with status := .halted }

/-- The outcome of an instruction that changes `s` to `t` and goes on at `pc + 4` (spec/10_state.md R27). -/
def nextInstr (t : State) : Host.Outcome State Fault Refusal := .next (t.commit (t.pc + 4#32))

/-- The outcome of an instruction that writes `v` to register `r` and goes on at `pc + 4`. -/
def writeResult (r : RegIdx) (v : Word) (s : State) : Host.Outcome State Fault Refusal := nextInstr (s.setReg r v)

/-! ### The host's streams (spec/44_syscall.md R271) -/

/-- `Out(bytes)`: one call of `write_stdout`. -/
def State.out (s : State) (bytes : List Byte) : State := { s with output := s.output ++ [bytes] }

/-- `In()`: the host's answer to one `read_line`, and the state in which it has been taken: the first of the host's coming
answers, or a free value where there is none (log 3). -/
def State.readLine (s : State) : HostAnswer × State :=
  match s.answers with
  | a :: rest => (a, { s with answers := rest })
  | [] => (Config.hostAnswer s.reads, { s with reads := s.reads + 1 })

end Sys2Proof.Machine
end

