-- ==== Sys2Proof/Machine/Operands.lean ====
section
/-! DEFINITION. The operand forms of spec/30_encoding.md R95 to R98 and spec/43_loadstore.md R250. -/

namespace Sys2Proof.Machine

open Sys2Proof

/-- `sext32(imm)`: `addi addiu slti sltiu` and the offset of loads and stores (R95). -/
def sext16 (imm : Half) : Word := imm.signExtend 32

/-- `zext32(imm)`: `andi ori xori` (R95). -/
def zext16 (imm : Half) : Word := imm.zeroExtend 32

/-- `imm ++ 0^16`: `lui` (R95). -/
def upper16 (imm : Half) : Word := imm ++ 0x0000#16

/-- The branch target `(pc + 4) + (sext32(imm) << 2)`, modulo 2^32 (R96). -/
def branchTarget (pc : Word) (imm : Half) : Word := (pc + 4#32) + (sext16 imm <<< 2)

/-- The PC that supplies the region of a jump: `pc` or `pc + 4` by J_REGION (R97). -/
def jumpRegion (j : JRegion) (pc : Word) : Word :=
  match j with
  | .pc => pc
  | .pcPlus4 => pc + 4#32

/-- The jump target `R[31:28] ++ target ++ 0b00` (R97). -/
def jumpTarget (j : JRegion) (pc : Word) (target : BitVec 26) : Word :=
  (jumpRegion j pc).extractLsb' 28 4 ++ target ++ 0b00#2

/-- The shift amount of a variable shift: `u(x[rs][4:0])` (R98). -/
def shiftAmount (v : Word) : Nat := (v.extractLsb' 0 5).toNat

/-- The effective address `x[rs] + sext32(imm)`, modulo 2^32 (R250). -/
def State.effAddr (s : State) (rs : RegIdx) (imm : Half) : Word := s.reg rs + sext16 imm

end Sys2Proof.Machine
end

