-- ==== Sys2Proof/Machine/Flags.lean ====
section
/-! DEFINITION. The engine has no flags (spec/10_state.md R29). What other machines hold in flags is here a 0 or 1 in a
general register, or the overflow condition that raises a fault (spec/40_alu.md R140). -/

namespace Sys2Proof.Machine

open Sys2Proof

/-- The 0 or 1 that a set-less-than writes. -/
def setIf (b : Bool) : Word := if b then 0x00000001#32 else 0x00000000#32

/-- `s(a) < s(b)`. -/
def lessSigned (a b : Word) : Bool := decide (a.toInt < b.toInt)

/-- `u(a) < u(b)`. -/
def lessUnsigned (a b : Word) : Bool := decide (a.toNat < b.toNat)

/-- Signed overflow: the exact integer result lies outside -2^31 .. 2^31 - 1 (R140 (b)). -/
def overflows (exact : Int) : Bool := decide (exact < -2147483648 ∨ 2147483647 < exact)

end Sys2Proof.Machine
end

