-- ==== Sys2Proof/Machine/Alu.lean ====
section
/-! DEFINITION. The instructions of spec/40_alu.md: arithmetic, logical, set-less-than, shifts. -/

namespace Sys2Proof.Machine

open Sys2Proof

/-- The shape of `add`, `addi`, `sub` (R140 (c), (e)): on signed overflow of the exact result the fault IntegerOverflow when
OVERFLOW_TRAPS, whatever the destination; else the wrapped result. -/
def trappingResult (r : RegIdx) (exact : Int) (s : State) : Host.Outcome State Fault Refusal :=
  if s.config.overflowTraps ∧ overflows exact then fault .integerOverflow s
  else writeResult r (BitVec.ofInt 32 exact) s

/-- `add rd, rs, rt` (R141). -/
def execAdd (rd rs rt : RegIdx) (s : State) : Host.Outcome State Fault Refusal :=
  trappingResult rd ((s.reg rs).toInt + (s.reg rt).toInt) s

/-- `addu rd, rs, rt` (R142). -/
def execAddu (rd rs rt : RegIdx) (s : State) : Host.Outcome State Fault Refusal :=
  writeResult rd (s.reg rs + s.reg rt) s

/-- `sub rd, rs, rt` (R143). -/
def execSub (rd rs rt : RegIdx) (s : State) : Host.Outcome State Fault Refusal :=
  trappingResult rd ((s.reg rs).toInt - (s.reg rt).toInt) s

/-- `subu rd, rs, rt` (R144). -/
def execSubu (rd rs rt : RegIdx) (s : State) : Host.Outcome State Fault Refusal :=
  writeResult rd (s.reg rs - s.reg rt) s

/-- `and rd, rs, rt` (R145). -/
def execAnd (rd rs rt : RegIdx) (s : State) : Host.Outcome State Fault Refusal :=
  writeResult rd (s.reg rs &&& s.reg rt) s

/-- `or rd, rs, rt` (R146). -/
def execOr (rd rs rt : RegIdx) (s : State) : Host.Outcome State Fault Refusal :=
  writeResult rd (s.reg rs ||| s.reg rt) s

/-- `xor rd, rs, rt` (R147). -/
def execXor (rd rs rt : RegIdx) (s : State) : Host.Outcome State Fault Refusal :=
  writeResult rd (s.reg rs ^^^ s.reg rt) s

/-- `nor rd, rs, rt` (R148). -/
def execNor (rd rs rt : RegIdx) (s : State) : Host.Outcome State Fault Refusal :=
  writeResult rd (~~~(s.reg rs ||| s.reg rt)) s

/-- `slt rd, rs, rt` (R149). -/
def execSlt (rd rs rt : RegIdx) (s : State) : Host.Outcome State Fault Refusal :=
  writeResult rd (setIf (lessSigned (s.reg rs) (s.reg rt))) s

/-- `sltu rd, rs, rt` (R150). -/
def execSltu (rd rs rt : RegIdx) (s : State) : Host.Outcome State Fault Refusal :=
  writeResult rd (setIf (lessUnsigned (s.reg rs) (s.reg rt))) s

/-- `addi rt, rs, imm` (R151). -/
def execAddi (rt rs : RegIdx) (imm : Half) (s : State) : Host.Outcome State Fault Refusal :=
  trappingResult rt ((s.reg rs).toInt + (sext16 imm).toInt) s

/-- `addiu rt, rs, imm` (R152). -/
def execAddiu (rt rs : RegIdx) (imm : Half) (s : State) : Host.Outcome State Fault Refusal :=
  writeResult rt (s.reg rs + sext16 imm) s

/-- `slti rt, rs, imm` (R153). -/
def execSlti (rt rs : RegIdx) (imm : Half) (s : State) : Host.Outcome State Fault Refusal :=
  writeResult rt (setIf (lessSigned (s.reg rs) (sext16 imm))) s

/-- `sltiu rt, rs, imm` (R154). -/
def execSltiu (rt rs : RegIdx) (imm : Half) (s : State) : Host.Outcome State Fault Refusal :=
  writeResult rt (setIf (lessUnsigned (s.reg rs) (sext16 imm))) s

/-- `andi rt, rs, imm` (R155). -/
def execAndi (rt rs : RegIdx) (imm : Half) (s : State) : Host.Outcome State Fault Refusal :=
  writeResult rt (s.reg rs &&& zext16 imm) s

/-- `ori rt, rs, imm` (R156). -/
def execOri (rt rs : RegIdx) (imm : Half) (s : State) : Host.Outcome State Fault Refusal :=
  writeResult rt (s.reg rs ||| zext16 imm) s

/-- `xori rt, rs, imm` (R157). -/
def execXori (rt rs : RegIdx) (imm : Half) (s : State) : Host.Outcome State Fault Refusal :=
  writeResult rt (s.reg rs ^^^ zext16 imm) s

/-- `lui rt, imm` (R158). -/
def execLui (rt : RegIdx) (imm : Half) (s : State) : Host.Outcome State Fault Refusal :=
  writeResult rt (upper16 imm) s

/-- `sll rd, rt, shamt` (R159). -/
def execSll (rd rt : RegIdx) (shamt : BitVec 5) (s : State) : Host.Outcome State Fault Refusal :=
  writeResult rd (s.reg rt <<< shamt.toNat) s

/-- `srl rd, rt, shamt` (R160). -/
def execSrl (rd rt : RegIdx) (shamt : BitVec 5) (s : State) : Host.Outcome State Fault Refusal :=
  writeResult rd (s.reg rt >>> shamt.toNat) s

/-- `sra rd, rt, shamt` (R161). -/
def execSra (rd rt : RegIdx) (shamt : BitVec 5) (s : State) : Host.Outcome State Fault Refusal :=
  writeResult rd ((s.reg rt).sshiftRight shamt.toNat) s

/-- `sllv rd, rt, rs` (R162). -/
def execSllv (rd rt rs : RegIdx) (s : State) : Host.Outcome State Fault Refusal :=
  writeResult rd (s.reg rt <<< shiftAmount (s.reg rs)) s

/-- `srlv rd, rt, rs` (R163). -/
def execSrlv (rd rt rs : RegIdx) (s : State) : Host.Outcome State Fault Refusal :=
  writeResult rd (s.reg rt >>> shiftAmount (s.reg rs)) s

/-- `srav rd, rt, rs` (R164). -/
def execSrav (rd rt rs : RegIdx) (s : State) : Host.Outcome State Fault Refusal :=
  writeResult rd ((s.reg rt).sshiftRight (shiftAmount (s.reg rs))) s

end Sys2Proof.Machine
end

