-- ==== Sys2Proof/Machine/Control.lean ====
section
/-! DEFINITION. The instructions of spec/42_control.md: branches, jumps, calls. None faults because of its target (R233); there are no delay slots (R234). -/

namespace Sys2Proof.Machine

open Sys2Proof

/-- Register 31, `$ra`, the link register of `jal`, `bltzal`, `bgezal` (spec/10_state.md R23). -/
def regRa : RegIdx := 31#5

/-- The next PC of a conditional branch (R220). -/
def branchNext (taken : Bool) (pc : Word) (imm : Half) : Word := if taken then branchTarget pc imm else pc + 4#32

/-- The outcome of a branch that writes no register. -/
def branchIf (taken : Bool) (imm : Half) (s : State) : Host.Outcome State Fault Refusal :=
  .next (s.commit (branchNext taken s.pc imm))

/-- The outcome of a branch that links: `x[31] <- pc + 4` whether or not it is taken (R227, R228); `taken` was read before
the link is written. -/
def branchLinkIf (taken : Bool) (imm : Half) (s : State) : Host.Outcome State Fault Refusal :=
  .next ((s.setReg regRa (s.pc + 4#32)).commit (branchNext taken s.pc imm))

/-- `beq rs, rt, offset` (R221). -/
def execBeq (rs rt : RegIdx) (imm : Half) (s : State) : Host.Outcome State Fault Refusal :=
  branchIf (decide (s.reg rs = s.reg rt)) imm s

/-- `bne rs, rt, offset` (R222). -/
def execBne (rs rt : RegIdx) (imm : Half) (s : State) : Host.Outcome State Fault Refusal :=
  branchIf (decide (s.reg rs ≠ s.reg rt)) imm s

/-- `blez rs, offset` (R223). -/
def execBlez (rs : RegIdx) (imm : Half) (s : State) : Host.Outcome State Fault Refusal :=
  branchIf (decide ((s.reg rs).toInt ≤ 0)) imm s

/-- `bgtz rs, offset` (R224). -/
def execBgtz (rs : RegIdx) (imm : Half) (s : State) : Host.Outcome State Fault Refusal :=
  branchIf (decide ((s.reg rs).toInt > 0)) imm s

/-- `bltz rs, offset` (R225). -/
def execBltz (rs : RegIdx) (imm : Half) (s : State) : Host.Outcome State Fault Refusal :=
  branchIf (decide ((s.reg rs).toInt < 0)) imm s

/-- `bgez rs, offset` (R226). -/
def execBgez (rs : RegIdx) (imm : Half) (s : State) : Host.Outcome State Fault Refusal :=
  branchIf (decide ((s.reg rs).toInt ≥ 0)) imm s

/-- `bltzal rs, offset` (R227). -/
def execBltzal (rs : RegIdx) (imm : Half) (s : State) : Host.Outcome State Fault Refusal :=
  branchLinkIf (decide ((s.reg rs).toInt < 0)) imm s

/-- `bgezal rs, offset` (R228). -/
def execBgezal (rs : RegIdx) (imm : Half) (s : State) : Host.Outcome State Fault Refusal :=
  branchLinkIf (decide ((s.reg rs).toInt ≥ 0)) imm s

/-- `j target` (R229). -/
def execJ (target : BitVec 26) (s : State) : Host.Outcome State Fault Refusal :=
  .next (s.commit (jumpTarget s.config.jRegion s.pc target))

/-- `jal target` (R230). -/
def execJal (target : BitVec 26) (s : State) : Host.Outcome State Fault Refusal :=
  .next ((s.setReg regRa (s.pc + 4#32)).commit (jumpTarget s.config.jRegion s.pc target))

/-- `jr rs` (R231): any 32-bit value is a target. -/
def execJr (rs : RegIdx) (s : State) : Host.Outcome State Fault Refusal :=
  .next (s.commit (s.reg rs))

/-- `jalr rd, rs` (R232): the target is read before the link is written. -/
def execJalr (rd rs : RegIdx) (s : State) : Host.Outcome State Fault Refusal :=
  .next ((s.setReg rd (s.pc + 4#32)).commit (s.reg rs))

end Sys2Proof.Machine
end

