-- ==== Sys2Proof/Machine/LoadStore.lean ====
section
/-! DEFINITION. The instructions of spec/43_loadstore.md: loads and stores, base register plus signed displacement (R250). -/

namespace Sys2Proof.Machine

open Sys2Proof

/-- The outcome of a load: its fault, or the value in `rt` (R259). -/
def loadTo (rt : RegIdx) (r : Except FaultKind Word) (s : State) : Host.Outcome State Fault Refusal :=
  match r with
  | .error f => fault f s
  | .ok v => writeResult rt v s

/-- The outcome of a store of `bs` at `a`: its fault, with no byte written, or the bytes in memory (R259). -/
def storeTo (a : Word) (bs : List Byte) (s : State) : Host.Outcome State Fault Refusal :=
  match s.memWrite a bs with
  | .error f => fault f s
  | .ok t => nextInstr t

/-- `lb rt, offset(rs)` (R251). -/
def execLb (rt rs : RegIdx) (imm : Half) (s : State) : Host.Outcome State Fault Refusal :=
  loadTo rt ((s.memRead8 .load (s.effAddr rs imm)).map (BitVec.signExtend 32)) s

/-- `lbu rt, offset(rs)` (R252). -/
def execLbu (rt rs : RegIdx) (imm : Half) (s : State) : Host.Outcome State Fault Refusal :=
  loadTo rt ((s.memRead8 .load (s.effAddr rs imm)).map (BitVec.zeroExtend 32)) s

/-- `lh rt, offset(rs)` (R253). -/
def execLh (rt rs : RegIdx) (imm : Half) (s : State) : Host.Outcome State Fault Refusal :=
  loadTo rt ((s.memRead16 .load (s.effAddr rs imm)).map (BitVec.signExtend 32)) s

/-- `lhu rt, offset(rs)` (R254). -/
def execLhu (rt rs : RegIdx) (imm : Half) (s : State) : Host.Outcome State Fault Refusal :=
  loadTo rt ((s.memRead16 .load (s.effAddr rs imm)).map (BitVec.zeroExtend 32)) s

/-- `lw rt, offset(rs)` (R255). -/
def execLw (rt rs : RegIdx) (imm : Half) (s : State) : Host.Outcome State Fault Refusal :=
  loadTo rt (s.memRead32 .load (s.effAddr rs imm)) s

/-- `sb rt, offset(rs)` (R256): bits 31:8 of the register are ignored. -/
def execSb (rt rs : RegIdx) (imm : Half) (s : State) : Host.Outcome State Fault Refusal :=
  storeTo (s.effAddr rs imm) [(s.reg rt).extractLsb' 0 8] s

/-- `sh rt, offset(rs)` (R257): bits 31:16 of the register are ignored. -/
def execSh (rt rs : RegIdx) (imm : Half) (s : State) : Host.Outcome State Fault Refusal :=
  storeTo (s.effAddr rs imm) (bytesOfHalf ((s.reg rt).extractLsb' 0 16)) s

/-- `sw rt, offset(rs)` (R258). -/
def execSw (rt rs : RegIdx) (imm : Half) (s : State) : Host.Outcome State Fault Refusal :=
  storeTo (s.effAddr rs imm) (bytesOfWord (s.reg rt)) s

end Sys2Proof.Machine
end

