-- ==== Sys2Proof/Machine/MulDiv.lean ====
section
/-! DEFINITION. The instructions of spec/41_muldiv.md: multiply, divide, HI and LO. -/

namespace Sys2Proof.Machine

open Sys2Proof

/-- The state with HI and LO written. -/
def State.setHiLo (s : State) (hi lo : Word) : State := { s with hi := hi, lo := lo }

/-- A 64-bit product: its high word to HI, its low word to LO (R200, R201). -/
def State.setProduct (s : State) (p : BitVec 64) : State := s.setHiLo (p.extractLsb' 32 32) (p.extractLsb' 0 32)

/-- `mult rs, rt` (R200): the exact signed product, as 64 bits. -/
def execMult (rs rt : RegIdx) (s : State) : Host.Outcome State Fault Refusal :=
  nextInstr (s.setProduct (BitVec.ofInt 64 ((s.reg rs).toInt * (s.reg rt).toInt)))

/-- `multu rs, rt` (R201): the exact unsigned product. -/
def execMultu (rs rt : RegIdx) (s : State) : Host.Outcome State Fault Refusal :=
  nextInstr (s.setProduct (BitVec.ofNat 64 ((s.reg rs).toNat * (s.reg rt).toNat)))

/-- `div rs, rt` (R202): the zero divisor is checked before the overflow case (spec/60_exceptions.md R306); the quotient
truncates toward zero and the remainder has the sign of the dividend. -/
def execDiv (rs rt : RegIdx) (s : State) : Host.Outcome State Fault Refusal :=
  if s.reg rt = 0x00000000#32 then fault .divideByZero s
  else if s.reg rs = 0x80000000#32 ∧ s.reg rt = 0xFFFFFFFF#32 then
    match s.config.divOverflow with
    | .fault => fault .divideOverflow s
    | .wrap => nextInstr (s.setHiLo 0x00000000#32 0x80000000#32)
  else
    nextInstr (s.setHiLo (BitVec.ofInt 32 ((s.reg rs).toInt.tmod (s.reg rt).toInt))
      (BitVec.ofInt 32 ((s.reg rs).toInt.tdiv (s.reg rt).toInt)))

/-- `divu rs, rt` (R203). -/
def execDivu (rs rt : RegIdx) (s : State) : Host.Outcome State Fault Refusal :=
  if s.reg rt = 0x00000000#32 then fault .divideByZero s
  else
    nextInstr (s.setHiLo (BitVec.ofNat 32 ((s.reg rs).toNat % (s.reg rt).toNat))
      (BitVec.ofNat 32 ((s.reg rs).toNat / (s.reg rt).toNat)))

/-- `mfhi rd` (R204). -/
def execMfhi (rd : RegIdx) (s : State) : Host.Outcome State Fault Refusal :=
  writeResult rd s.hi s

/-- `mflo rd` (R205). -/
def execMflo (rd : RegIdx) (s : State) : Host.Outcome State Fault Refusal :=
  writeResult rd s.lo s

/-- `mthi rs` (R206): LO is unchanged. -/
def execMthi (rs : RegIdx) (s : State) : Host.Outcome State Fault Refusal :=
  nextInstr (s.setHiLo (s.reg rs) s.lo)

/-- `mtlo rs` (R207): HI is unchanged. -/
def execMtlo (rs : RegIdx) (s : State) : Host.Outcome State Fault Refusal :=
  nextInstr (s.setHiLo s.hi (s.reg rs))

end Sys2Proof.Machine
end

