-- ==== Sys2Proof/Machine/Text.lean ====
section
/-! DEFINITION. The texts of spec/44_syscall.md: decimal output (R273), decimal input (R275), the bytes of a line (R276). -/

namespace Sys2Proof.Machine

open Sys2Proof

/-- The UTF-8 bytes of one character. -/
def utf8Char (c : Char) : List Byte :=
  let n := c.toNat
  if n < 0x80 then [BitVec.ofNat 8 n]
  else if n < 0x800 then [BitVec.ofNat 8 (0xC0 + n / 0x40), BitVec.ofNat 8 (0x80 + n % 0x40)]
  else if n < 0x10000 then
    [BitVec.ofNat 8 (0xE0 + n / 0x1000), BitVec.ofNat 8 (0x80 + n / 0x40 % 0x40), BitVec.ofNat 8 (0x80 + n % 0x40)]
  else
    [BitVec.ofNat 8 (0xF0 + n / 0x40000), BitVec.ofNat 8 (0x80 + n / 0x1000 % 0x40),
      BitVec.ofNat 8 (0x80 + n / 0x40 % 0x40), BitVec.ofNat 8 (0x80 + n % 0x40)]

/-- The UTF-8 bytes of a text. -/
def utf8 (cs : List Char) : List Byte := cs.flatMap utf8Char

/-- The character of a decimal digit. -/
def digitChar (d : Nat) : Char := Char.ofNat (48 + d)

/-- The decimal digits of `n`, at most `fuel` of them, no leading zeros. -/
def decimalNat : Nat → Nat → List Char
  | 0, _ => []
  | fuel + 1, n => (if n < 10 then [] else decimalNat fuel (n / 10)) ++ [digitChar (n % 10)]

/-- `decimal(i)`: the text of a signed integer of at most ten digits in base 10: `-` for negative values, no `+`, no
leading zeros, no padding (R273). -/
def decimalText (i : Int) : List Char :=
  if i < 0 then '-' :: decimalNat 10 i.natAbs else decimalNat 10 i.natAbs

/-- The ASCII whitespace of R275: space, tab, CR, LF. -/
def isSpace (c : Char) : Bool := c == ' ' || c == '\t' || c == '\r' || c == '\n'

/-- The text without leading and trailing whitespace. -/
def strip (cs : List Char) : List Char := ((cs.dropWhile isSpace).reverse.dropWhile isSpace).reverse

/-- An ASCII decimal digit. -/
def isDigit (c : Char) : Bool := decide (48 ≤ c.toNat ∧ c.toNat ≤ 57)

/-- The value of one or more decimal digits. -/
def digitsValue (cs : List Char) : Option Nat :=
  if cs ≠ [] ∧ cs.all isDigit then some (cs.foldl (fun n c => 10 * n + (c.toNat - 48)) 0) else none

/-- An optional sign, then one or more decimal digits (R275). -/
def signedValue : List Char → Option Int
  | '-' :: cs => (digitsValue cs).map (fun n => -(n : Int))
  | '+' :: cs => (digitsValue cs).map (fun n => (n : Int))
  | cs => (digitsValue cs).map (fun n => (n : Int))

/-- The integer that read integer takes from a line, if the line is well-formed and in range (R275). -/
def parseInteger (line : List Char) : Option Int :=
  match signedValue (strip line) with
  | some v => if -2147483648 ≤ v ∧ v ≤ 2147483647 then some v else none
  | none => none

end Sys2Proof.Machine
end

