-- ==== Sys2Proof/Machine/Syscall.lean ====
section
/-! DEFINITION. The `syscall` instruction and its five services, spec/44_syscall.md. -/

namespace Sys2Proof.Machine

open Sys2Proof

/-- `$v0` selects the service and receives the result of read integer (R279). -/
def regV0 : RegIdx := 2#5
/-- `$a0`, the first argument (R279). -/
def regA0 : RegIdx := 4#5
/-- `$a1`, the second argument (R279). -/
def regA1 : RegIdx := 5#5

/-- Print integer (code 1, R273). -/
def printInteger (s : State) : Host.Outcome State Fault Refusal :=
  nextInstr (s.out (utf8 (decimalText (s.reg regA0).toInt)))

/-- What a scan for the NUL of a string finds. -/
inductive ScanResult where
  /-- The bytes before the NUL. -/
  | found (bytes : List Byte)
  /-- The fault of an address before the NUL. -/
  | stopped (k : FaultKind)
  /-- No NUL in the addresses scanned, all of them backed. -/
  | endless
  deriving DecidableEq, Repr

/-- The scan result with one more byte before it. -/
def ScanResult.cons (b : Byte) : ScanResult → ScanResult
  | .found bs => .found (b :: bs)
  | .stopped k => .stopped k
  | .endless => .endless

/-- Reading `MemRead(a, 1)`, `MemRead(a+1, 1)`, ... up to the first 0x00, at most `fuel` of them; addresses wrap (R274). -/
def State.scanString (s : State) : Nat → Word → ScanResult
  | 0, _ => .endless
  | fuel + 1, a =>
    match s.memRead8 .load a with
    | .error k => .stopped k
    | .ok b => if b = 0x00#8 then .found [] else (State.scanString s fuel (a + 1#32)).cons b

/-- The number of addresses: a scan that reads them all and finds no NUL never ends. -/
def addressCount : Nat := 4294967296

/-- Print string (code 4, R274): the scan comes first, the output once, and none on a fault. -/
def printString (s : State) : Host.Outcome State Fault Refusal :=
  match s.scanString addressCount (s.reg regA0) with
  | .found bs => nextInstr (s.out bs)
  | .stopped k => fault k s
  | .endless => .fault .printStringNeverEnds

/-- Read integer (code 5, R275). -/
def readInteger (s : State) : Host.Outcome State Fault Refusal :=
  match s.readLine with
  | (.exhausted, t) => fault (.inputError .exhausted) t
  | (.silent, _) => .fault .readLineNeverReturns
  | (.line text, t) =>
    match parseInteger text with
    | none => fault (.inputError .malformed) t
    | some v => writeResult regV0 (BitVec.ofInt 32 v) t

/-- What read string writes for a line of bytes `b` and a maximum length `n` (R276): nothing for `n < 1`, else the first
`min(len(b), n - 1)` bytes and a NUL. -/
def stringBytes (b : List Byte) (n : Int) : List Byte :=
  if n < 1 then [] else b.take (n - 1).toNat ++ [0x00#8]

/-- Storing single bytes from `a` on: all addresses are checked before any byte is written (R276). -/
def storeString (a : Word) (bs : List Byte) (s : State) : Host.Outcome State Fault Refusal :=
  match s.firstUnbacked a bs.length with
  | some x => fault (.accessFaultStore x) s
  | none => nextInstr (s.storeBytes a bs)

/-- Read string (code 8, R276): the line has been taken even where the store faults. -/
def readString (s : State) : Host.Outcome State Fault Refusal :=
  match s.readLine with
  | (.exhausted, t) => fault (.inputError .exhausted) t
  | (.silent, _) => .fault .readLineNeverReturns
  | (.line text, t) => storeString (s.reg regA0) (stringBytes (utf8 text) (s.reg regA1).toInt) t

/-- Exit (code 10, R277): the step commits with `pc + 4` and the status becomes Halted. -/
def exitService (s : State) : Host.Outcome State Fault Refusal := .next ((s.commit (s.pc + 4#32)).halt)

/-- `syscall` (R270): dispatch on `u(x[2])` (R272); any other code raises UnknownSyscall (R278). -/
def execSyscall (s : State) : Host.Outcome State Fault Refusal :=
  match s.reg regV0 with
  | 1#32 => printInteger s
  | 4#32 => printString s
  | 5#32 => readInteger s
  | 8#32 => readString s
  | 10#32 => exitService s
  | code => fault (.unknownSyscall code) s

end Sys2Proof.Machine
end

