-- ==== Sys2Proof/Machine/Step.lean ====
section
/-! DEFINITION. One step of the engine, spec/10_state.md R33. -/

namespace Sys2Proof.Machine

open Sys2Proof

/-- Decoding and executing the fetched word: a word that is no instruction raises IllegalInstruction
(spec/30_encoding.md R99, R101). -/
def runWord (w : Word) (s : State) : Host.Outcome State Fault Refusal :=
  match decode s.config.strictFields w with
  | .error _ => fault (.illegalInstruction w) s
  | .ok i => exec i s

/-- Fetch, decode, execute, in the order of R33 (spec/60_exceptions.md R306): a misaligned PC faults; a PC at TEXT_END
halts and changes nothing else; a PC outside text faults; then the word is read, decoded and executed. -/
def fetchAndRun (s : State) : Host.Outcome State Fault Refusal :=
  if s.pc.extractLsb' 0 2 ≠ 0b00#2 then fault (.addressErrorFetch s.pc) s
  else if s.pc.toNat = textEnd s.config s.image then .next s.halt
  else if s.inText s.pc then
    match s.memRead32 .fetch s.pc with
    | .error k => fault k s
    | .ok w => runWord w s
  else fault (.accessFaultFetch s.pc) s

/-- `step` (R33): in Halted and Faulted a step changes nothing (R37); it is accepted in Loaded and Running alike (R38). -/
def step (s : State) : Host.Outcome State Fault Refusal :=
  match s.status with
  | .halted => .next s
  | .faulted => .next s
  | .loaded => fetchAndRun s
  | .running => fetchAndRun s

/-- A step of `s` reaches the fetch of a word that lies whole in the text region. -/
def State.fetches (s : State) : Bool :=
  (s.status == .loaded || s.status == .running) && s.pc.extractLsb' 0 2 == 0b00#2 &&
    decide (s.config.textBase.toNat ≤ s.pc.toNat ∧ s.pc.toNat + 4 ≤ textEnd s.config s.image)

/-- `s` with the word stored where `step` fetches its next instruction. Where `s` already fetches from text, only the four
bytes change. Where it does not (after reset the loaded image has no text), the word is loaded as the whole text of the
image, at the PC (its low bits cleared), and the status is Loaded (log 6). -/
def State.withFetchWord (s : State) (nbits w : Nat) : State :=
  let bytes := bytesOfWord (BitVec.ofNat 32 (w % 2 ^ nbits))
  if s.fetches then s.storeBytes s.pc bytes
  else
    let base := s.pc &&& 0xFFFFFFFC#32
    { s.storeBytes base bytes with
      pc := base
      status := .loaded
      lastFault := none
      config := { s.config with textBase := base }
      image := { s.image with text := bytes } }

end Sys2Proof.Machine
end

