-- ==== Sys2Proof/Machine/AsmText.lean ====
section
/-! DEFINITION. The assembler's text: lines, comments, labels, registers, immediates, operands, spec/30_encoding.md R110 to
R113 and spec/10_state.md R22. From characters to statements, one line at a time. -/

namespace Sys2Proof.Machine

open Sys2Proof

/-- What is wrong with the form of a line (R128, SyntaxError). -/
inductive SyntaxError where
  | badCharacter (c : Char)
  | badEscape
  | unterminatedString
  | malformedRegister (name : List Char)
  | malformedImmediate (text : List Char)
  | malformedName (text : List Char)
  | malformedOperand
  | malformedLine
  | unknownMnemonic (name : List Char)
  | unknownDirective (name : List Char)
  | badOperands (name : List Char)
  | wrongSegment
  deriving DecidableEq, Repr

/-- A token of a line: a word (a mnemonic, directive, label, register or number), a string literal, punctuation. -/
inductive Token where
  | word (chars : List Char)
  | str (chars : List Char)
  | comma
  | colon
  | lparen
  | rparen
  deriving DecidableEq, Repr

/-- An ASCII letter. -/
def isLetter (c : Char) : Bool := decide (65 ≤ c.toNat ∧ c.toNat ≤ 90 ∨ 97 ≤ c.toNat ∧ c.toNat ≤ 122)

/-- `[A-Za-z_.]`, the first character of a label (R110). -/
def isNameStart (c : Char) : Bool := isLetter c || c == '_' || c == '.'

/-- `[A-Za-z0-9_.]`, a further character of a label (R110). -/
def isNameChar (c : Char) : Bool := isNameStart c || isDigit c

/-- A label name: `[A-Za-z_.][A-Za-z0-9_.]*` (R110). -/
def isName : List Char → Bool
  | [] => false
  | c :: cs => isNameStart c && cs.all isNameChar

/-- The characters that words are made of: names, `$` of registers, `-` of immediates. -/
def isWordChar (c : Char) : Bool := isNameChar c || c == '$' || c == '-'

/-- The punctuation tokens. -/
def punctuation (c : Char) : Option Token :=
  if c == ',' then some .comma
  else if c == ':' then some .colon
  else if c == '(' then some .lparen
  else if c == ')' then some .rparen
  else none

/-- The string escapes of R113. A backslash before any other character is an error; R113 does not say what it does (DESIGN
CHOICE, log 25). -/
def escapeChar (c : Char) : Option Char :=
  if c == 'n' then some '\n'
  else if c == 't' then some '\t'
  else if c == '0' then some (Char.ofNat 0)
  else if c == '\\' then some '\\'
  else if c == '"' then some '"'
  else none

/-- Where the lexer stands: outside a string with a pending word, inside a string, after a backslash inside a string. The
characters read so far stand last first. -/
inductive LexState where
  | plain (word : List Char)
  | string (chars : List Char)
  | escape (chars : List Char)
  deriving DecidableEq, Repr

/-- The pending word as a token, if there is one. -/
def pendingWord (w : List Char) : List Token := if w = [] then [] else [.word w.reverse]

/-- The tokens `ts` before those of the rest of the line. -/
def withTokens (ts : List Token) (rest : Except SyntaxError (List Token)) : Except SyntaxError (List Token) :=
  rest.map (fun r => ts ++ r)

/-- The tokens of one line: a comment runs from `#` outside a string literal to the end of the line (R110). -/
def lex : LexState → List Char → Except SyntaxError (List Token)
  | .plain w, [] => .ok (pendingWord w)
  | .plain w, c :: cs =>
    if c == '#' then .ok (pendingWord w)
    else if isSpace c then withTokens (pendingWord w) (lex (.plain []) cs)
    else if c == '"' then withTokens (pendingWord w) (lex (.string []) cs)
    else if isWordChar c then lex (.plain (c :: w)) cs
    else
      match punctuation c with
      | some t => withTokens (pendingWord w ++ [t]) (lex (.plain []) cs)
      | none => .error (.badCharacter c)
  | .string _, [] => .error .unterminatedString
  | .string s, c :: cs =>
    if c == '"' then withTokens [.str s.reverse] (lex (.plain []) cs)
    else if c == '\\' then lex (.escape s) cs
    else lex (.string (c :: s)) cs
  | .escape _, [] => .error .unterminatedString
  | .escape s, c :: cs =>
    match escapeChar c with
    | some e => lex (.string (e :: s)) cs
    | none => .error .badEscape

/-- The lines of a source text. -/
def splitLines : List Char → List (List Char)
  | [] => [[]]
  | c :: cs =>
    match splitLines cs with
    | [] => [[c]]
    | l :: ls => if c == '\n' then [] :: l :: ls else (c :: l) :: ls

/-- A letter in lower case: mnemonics and directives are case-insensitive (R110). -/
def lowerChar (c : Char) : Char := if 65 ≤ c.toNat ∧ c.toNat ≤ 90 then Char.ofNat (c.toNat + 32) else c

/-- The symbolic register names in the order of their numbers (spec/10_state.md R22). -/
def registerNames : List String :=
  ["zero", "at", "v0", "v1", "a0", "a1", "a2", "a3", "t0", "t1", "t2", "t3", "t4", "t5", "t6", "t7",
    "s0", "s1", "s2", "s3", "s4", "s5", "s6", "s7", "t8", "t9", "k0", "k1", "gp", "sp", "fp", "ra"]

/-- The number of a register name without its `$`: `0` to `31`, or a symbolic name, `s8` being `fp` (R111). -/
def registerNumber (name : List Char) : Option RegIdx :=
  if name = "s8".toList then some 30#5
  else
    match (List.range 32).find? (fun n => decimalNat 2 n == name) with
    | some n => some (BitVec.ofNat 5 n)
    | none =>
      match registerNames.findIdx? (fun s => s.toList == name) with
      | some n => some (BitVec.ofNat 5 n)
      | none => none

/-- A word that is a register: `$` and its name. -/
def parseRegister : List Char → Except SyntaxError RegIdx
  | '$' :: name =>
    match registerNumber name with
    | some r => .ok r
    | none => .error (.malformedRegister name)
  | w => .error (.malformedRegister w)

/-- The value of a hexadecimal digit. -/
def hexValue (c : Char) : Option Nat :=
  if isDigit c then some (c.toNat - 48)
  else if 65 ≤ c.toNat ∧ c.toNat ≤ 70 then some (c.toNat - 55)
  else if 97 ≤ c.toNat ∧ c.toNat ≤ 102 then some (c.toNat - 87)
  else none

/-- The value of hexadecimal digits after the value `n`. -/
def hexFrom (n : Nat) : List Char → Option Nat
  | [] => some n
  | c :: cs =>
    match hexValue c with
    | some d => hexFrom (16 * n + d) cs
    | none => none

/-- An unsigned immediate: decimal, or `0x` and hexadecimal digits (R112). -/
def parseMagnitude : List Char → Option Nat
  | '0' :: 'x' :: c :: cs => hexFrom 0 (c :: cs)
  | cs => digitsValue cs

/-- An immediate: "decimal and `0x`-prefixed hexadecimal, signed" (R112). -/
def parseImmediate : List Char → Except SyntaxError Int
  | '-' :: cs =>
    match parseMagnitude cs with
    | some n => .ok (-(n : Int))
    | none => .error (.malformedImmediate ('-' :: cs))
  | cs =>
    match parseMagnitude cs with
    | some n => .ok (n : Int)
    | none => .error (.malformedImmediate cs)

/-- An operand as written. -/
inductive Operand where
  | reg (r : RegIdx)
  | imm (i : Int)
  | label (name : List Char)
  | mem (offset : Int) (base : RegIdx)
  | str (chars : List Char)
  deriving DecidableEq, Repr

/-- A word as an operand: a register, an immediate or a label, by its first character. -/
def wordOperand (w : List Char) : Except SyntaxError Operand :=
  match w with
  | '$' :: _ => (parseRegister w).map .reg
  | '-' :: _ => (parseImmediate w).map .imm
  | c :: _ => if isDigit c then (parseImmediate w).map .imm
      else if isName w then .ok (.label w) else .error (.malformedName w)
  | [] => .error .malformedOperand

/-- The tokens of one operand: a word, a string, `offset(base)` or `(base)` (R115: the offset may be omitted). -/
def parseOperand : List Token → Except SyntaxError Operand
  | [.word w] => wordOperand w
  | [.str s] => .ok (.str s)
  | [.lparen, .word r, .rparen] => (parseRegister r).map (.mem 0)
  | [.word o, .lparen, .word r, .rparen] =>
    match parseImmediate o with
    | .error e => .error e
    | .ok i => (parseRegister r).map (.mem i)
  | _ => .error .malformedOperand

/-- The tokens between commas. -/
def splitCommas : List Token → List (List Token)
  | [] => [[]]
  | t :: ts =>
    match splitCommas ts with
    | [] => [[t]]
    | g :: gs => if t = .comma then [] :: g :: gs else (t :: g) :: gs

/-- All of a list's results, or the first error. -/
def allOk {ε α : Type} : List (Except ε α) → Except ε (List α)
  | [] => .ok []
  | .error e :: _ => .error e
  | .ok a :: rs => (allOk rs).map (fun as => a :: as)

/-- The operands after a mnemonic or directive. -/
def parseOperands (ts : List Token) : Except SyntaxError (List Operand) :=
  if ts = [] then .ok [] else allOk ((splitCommas ts).map parseOperand)

/-- A statement as written: a mnemonic or directive, in lower case, and its operands. -/
structure Statement where
  name : List Char
  operands : List Operand
  deriving DecidableEq, Repr

/-- One line: its label definitions, then at most one statement (R110). -/
structure Line where
  labels : List (List Char)
  statement : Option Statement
  deriving DecidableEq, Repr

/-- The tokens of a line as labels and a statement. -/
def parseTokens : List Token → Except SyntaxError Line
  | [] => .ok { labels := [], statement := none }
  | .word w :: .colon :: ts =>
    if isName w then (parseTokens ts).map (fun l => { l with labels := w :: l.labels })
    else .error (.malformedName w)
  | .word w :: ts =>
    if isName w then
      (parseOperands ts).map (fun ops => { labels := [], statement := some { name := w.map lowerChar, operands := ops } })
    else .error (.malformedName w)
  | _ => .error .malformedLine

/-- One line of source text. -/
def parseLine (text : List Char) : Except SyntaxError Line :=
  match lex (.plain []) text with
  | .error e => .error e
  | .ok ts => parseTokens ts

end Sys2Proof.Machine
end

