-- ==== Sys2Proof/Machine/HostOps.lean ====
section
/-! DEFINITION. What the host does to the engine between steps, spec/70_reset_and_hazards.md R330 to R344. -/

namespace Sys2Proof.Machine

open Sys2Proof

/-- A program image (R330). -/
structure ProgramImage where
  image : Image
  symbols : List (List Char × Word)
  deriving DecidableEq, Repr

/-- The three regions. -/
inductive Region where
  | text
  | data
  | stack
  deriving DecidableEq, Repr

/-- Why `load` refuses (R331). -/
inductive LoadError where
  | textLength
  | misalignedBase (r : Region)
  | stackSize
  | dataSize
  | wraps (r : Region)
  | overlap (r q : Region)
  deriving DecidableEq, Repr

/-- The half-open interval of addresses of a region, in unbounded integers (spec/00_scope.md R8). -/
def regionBounds (c : Config) (img : Image) : Region → Int × Int
  | .text => (c.textBase.toNat, textEnd c img)
  | .data => (c.dataBase.toNat, dataEnd c img)
  | .stack => ((c.stackTop.toNat : Int) - c.stackSize, c.stackTop.toNat)

/-- A region wraps when it is not inside `0 .. 2^32`. -/
def regionWraps (c : Config) (img : Image) (r : Region) : Bool :=
  decide ((regionBounds c img r).1 < 0 ∨ 4294967296 < (regionBounds c img r).2)

/-- Two nonempty regions share an address. -/
def regionsOverlap (c : Config) (img : Image) (r q : Region) : Bool :=
  let a := regionBounds c img r
  let b := regionBounds c img q
  decide (a.1 < a.2 ∧ b.1 < b.2 ∧ a.1 < b.2 ∧ b.1 < a.2)

/-- The refusals of R331 in the order the rule lists them, each with its condition. -/
def loadChecks (c : Config) (img : Image) : List (Bool × LoadError) :=
  [ (decide (img.text.length % 4 ≠ 0), .textLength),
    (decide (c.textBase.toNat % 4 ≠ 0), .misalignedBase .text),
    (decide (c.dataBase.toNat % 4 ≠ 0), .misalignedBase .data),
    (decide (c.stackTop.toNat % 4 ≠ 0), .misalignedBase .stack),
    (decide (c.stackSize % 4 ≠ 0), .stackSize),
    (decide (dataSize c img < img.data.length), .dataSize),
    (regionWraps c img .text, .wraps .text),
    (regionWraps c img .data, .wraps .data),
    (regionWraps c img .stack, .wraps .stack),
    (regionsOverlap c img .text .data, .overlap .text .data),
    (regionsOverlap c img .text .stack, .overlap .text .stack),
    (regionsOverlap c img .data .stack, .overlap .data .stack) ]

/-- The refusals that apply. -/
def loadErrors (c : Config) (img : Image) : List LoadError :=
  (loadChecks c img).filterMap (fun p => if p.1 then some p.2 else none)

/-- `$sp`, register 29 (spec/10_state.md R22). -/
def regSp : RegIdx := 29#5

/-- The registers after load: all zero but `$sp = STACK_TOP` (spec/10_state.md R41). -/
def loadedRegs (c : Config) : Vector Word 32 := (Vector.replicate 32 0x00000000#32).set regSp.toNat c.stackTop regSp.isLt

/-- Memory after load: the text bytes at TEXT_BASE, the data bytes at DATA_BASE, 0x00 elsewhere (R41). -/
def loadedMem (c : Config) (img : Image) : Memory :=
  Memory.writeBytes (Memory.writeBytes [] c.dataBase img.data) c.textBase img.text

/-- The state of spec/10_state.md R41 in the context of `s`: the host's streams are `s`'s. -/
def State.loaded (s : State) (c : Config) (img : Image) : State :=
  { s with
    regs := loadedRegs c
    pc := img.entry
    hi := 0x00000000#32
    lo := 0x00000000#32
    mem := loadedMem c img
    status := .loaded
    lastFault := none
    config := c
    image := img }

/-- `load(image)` (R330, R331): the state of R41, or the first refusal. -/
def load (c : Config) (p : ProgramImage) : Except LoadError State :=
  match loadErrors c p.image with
  | e :: _ => .error e
  | [] => .ok (State.reset.loaded c p.image)

/-- `reset(context)` (R332): the state that load gave from the same image and configuration; the host's streams stay. -/
def State.resetByHost (s : State) : State := s.loaded s.config s.image

/-- What `step` returns to the host (R340): the status, the PC and the last fault, as its record (spec/60_exceptions.md R317) and
as the text made of it (R303). -/
structure StepResult where
  status : Status
  pc : Word
  lastFault : Option FaultRecord
  message : Option (List Char)
  deriving DecidableEq, Repr

/-- One upper-case hexadecimal digit. -/
def hexDigit (d : BitVec 4) : Char := if d.toNat < 10 then Char.ofNat (48 + d.toNat) else Char.ofNat (55 + d.toNat)

/-- `0x` and eight upper-case hexadecimal digits (spec/60_exceptions.md R303). -/
def hexWord (w : Word) : List Char :=
  ['0', 'x', hexDigit (w.extractLsb' 28 4), hexDigit (w.extractLsb' 24 4), hexDigit (w.extractLsb' 20 4),
    hexDigit (w.extractLsb' 16 4), hexDigit (w.extractLsb' 12 4), hexDigit (w.extractLsb' 8 4),
    hexDigit (w.extractLsb' 4 4), hexDigit (w.extractLsb' 0 4)]

/-- The last fault message: fixed for IllegalInstruction, a free value otherwise (spec/60_exceptions.md R303, log 13). -/
def faultMessage (r : FaultRecord) : List Char :=
  match r.kind with
  | .illegalInstruction _ => "illegal instruction at address ".toList ++ hexWord r.pc
  | _ => Config.faultText r

/-- The numeric code of a fault kind (spec/60_exceptions.md R300). -/
def faultCode : FaultKind → Nat
  | .illegalInstruction _ => 1
  | .addressErrorFetch _ => 2
  | .accessFaultFetch _ => 3
  | .addressErrorLoad _ => 4
  | .addressErrorStore _ => 5
  | .accessFaultLoad _ => 6
  | .accessFaultStore _ => 7
  | .divideByZero => 8
  | .integerOverflow => 9
  | .divideOverflow => 10
  | .unknownSyscall _ => 11
  | .inputError _ => 12

/-- The result the host receives with the state `t`: status, PC and, when Faulted, the last fault (R340). -/
def State.stepResult (t : State) : StepResult :=
  let last := if t.status = .faulted then t.lastFault else none
  { status := t.status, pc := t.pc, lastFault := last, message := last.map faultMessage }

/-- `step(context)` (R340): one step and its result. -/
def hostStep (s : State) : Host.Outcome (State × StepResult) Fault Refusal :=
  match step s with
  | .next t => .next (t, t.stepResult)
  | .fault f => .fault f
  | .refused r => .refused r

/-- A host error: not a fault, and nothing changes (R341 to R343). -/
inductive HostError where
  | registerIndex (index : Int)
  | unbacked (addr : Word)
  deriving DecidableEq, Repr

/-- `read_register(context, index)` (R341). -/
def State.readRegister (s : State) (index : Int) : Except HostError Int :=
  if 0 ≤ index ∧ index ≤ 31 then .ok (s.reg (BitVec.ofInt 5 index)).toInt else .error (.registerIndex index)

/-- The `n` bytes from `a` on, addresses modulo 2^32. -/
def State.bytesAt (s : State) (a : Word) : Nat → List Byte
  | 0 => []
  | n + 1 => s.byteAt a :: State.bytesAt s (a + 1#32) n

/-- `read_memory(context, address, length)` (R342). -/
def State.readMemory (s : State) (a : Word) (length : Nat) : Except HostError (List Byte) :=
  match s.firstUnbacked a length with
  | some x => .error (.unbacked x)
  | none => .ok (s.bytesAt a length)

/-- `write_memory(context, address, bytes)` (R343). For more than 2^32 bytes see log 27. -/
def State.writeMemory (s : State) (a : Word) (bytes : List Byte) : Except HostError State :=
  match s.firstUnbacked a bytes.length with
  | some x => .error (.unbacked x)
  | none => .ok (s.storeBytes a bytes)

/-- What `read_state` shows the host (R344). -/
structure Inspection where
  pc : Word
  hi : Word
  lo : Word
  status : Status
  lastFault : Option FaultRecord
  deriving DecidableEq, Repr

/-- `read_state(context)` (R344). -/
def State.inspect (s : State) : Inspection :=
  { pc := s.pc, hi := s.hi, lo := s.lo, status := s.status, lastFault := s.lastFault }

/-- The host lines up answers for the coming `read_line` calls (log 2). -/
def State.offer (s : State) (answers : List HostAnswer) : State := { s with answers := s.answers ++ answers }

end Sys2Proof.Machine
end

