-- ==== Sys2Proof/Machine/Assembler.lean ====
section
/-! DEFINITION. The assembler of spec/30_encoding.md R113 to R129: real instructions, pseudo-instructions, directives, the
two passes, the program image. It stands beside the engine (R4 (h)); no step uses it. -/

namespace Sys2Proof.Machine

open Sys2Proof

/-- A field of a word that pass 2 fills from a label (R117, R118, R121). -/
inductive Fixup where
  | none
  | branch (label : List Char)
  | jump (label : List Char)
  | highHalf (label : List Char)
  | lowHalf (label : List Char)
  deriving DecidableEq, Repr

/-- A real instruction to emit; the field that its fixup fills is zero in `instr`. -/
structure RealInstr where
  instr : Instr
  fixup : Fixup
  deriving DecidableEq, Repr

/-- A real instruction with nothing left open. -/
def plain (i : Instr) : RealInstr := { instr := i, fixup := .none }

/-- What is wrong with one line, its labels aside (R128). -/
inductive LineError where
  | form (e : SyntaxError)
  | encoding (e : EncodingError)
  | undefinedLabel (name : List Char)
  deriving DecidableEq, Repr

/-- The low 16 bits of an immediate. -/
def half (i : Int) : Half := BitVec.ofInt 16 i

/-- The operand syntaxes of R115, and of the pseudo-instructions R120 to R126, each with the instruction it makes. -/
inductive Shape where
  /-- `op` -/
  | bare (i : Instr)
  /-- `op rd, rs, rt` -/
  | reg3 (make : RegIdx → RegIdx → RegIdx → Instr)
  /-- `op rs, rt` -/
  | reg2 (make : RegIdx → RegIdx → Instr)
  /-- `op rd` or `op rs` -/
  | reg1 (make : RegIdx → Instr)
  /-- `op rd, rt, sa` -/
  | shift (make : RegIdx → RegIdx → BitVec 5 → Instr)
  /-- `op rt, rs, imm`, signed -/
  | signedImm (make : RegIdx → RegIdx → Half → Instr)
  /-- `op rt, rs, imm`, unsigned -/
  | unsignedImm (make : RegIdx → RegIdx → Half → Instr)
  /-- `lui rt, imm` -/
  | upperImm
  /-- `op rt, offset(rs)` -/
  | memory (make : RegIdx → RegIdx → Half → Instr)
  /-- `op rs, rt, label` -/
  | branch2 (make : RegIdx → RegIdx → Half → Instr)
  /-- `op rs, label` -/
  | branch1 (make : RegIdx → Half → Instr)
  /-- `op label` -/
  | jump (make : BitVec 26 → Instr)
  /-- `jalr rs` or `jalr rd, rs` -/
  | jumpLink
  /-- `li $r, imm` -/
  | loadImm
  /-- `la $r, label` -/
  | loadAddr
  /-- `move $d, $s` -/
  | move
  /-- `blt bgt ble bge $a, $b, label`: whether `slt` compares b with a, and the branch on its result -/
  | compareBranch (swap : Bool) (make : RegIdx → RegIdx → Half → Instr)

/-- The mnemonics of R115 with their shapes; `nop` is log 20. -/
def realShapes : List (String × Shape) := List.flatten [
  [("add", .reg3 .add), ("addu", .reg3 .addu), ("sub", .reg3 .sub), ("subu", .reg3 .subu), ("and", .reg3 .and)],
  [("or", .reg3 .or), ("xor", .reg3 .xor), ("nor", .reg3 .nor), ("slt", .reg3 .slt), ("sltu", .reg3 .sltu)],
  [("sll", .shift .sll), ("srl", .shift .srl), ("sra", .shift .sra)],
  [("sllv", .reg3 .sllv), ("srlv", .reg3 .srlv), ("srav", .reg3 .srav)],
  [("jr", .reg1 .jr), ("jalr", .jumpLink), ("syscall", .bare .syscall)],
  [("mfhi", .reg1 .mfhi), ("mflo", .reg1 .mflo), ("mthi", .reg1 .mthi), ("mtlo", .reg1 .mtlo)],
  [("mult", .reg2 .mult), ("multu", .reg2 .multu), ("div", .reg2 .div), ("divu", .reg2 .divu)],
  [("addi", .signedImm .addi), ("addiu", .signedImm .addiu), ("slti", .signedImm .slti), ("sltiu", .signedImm .sltiu)],
  [("andi", .unsignedImm .andi), ("ori", .unsignedImm .ori), ("xori", .unsignedImm .xori), ("lui", .upperImm)],
  [("lb", .memory .lb), ("lbu", .memory .lbu), ("lh", .memory .lh), ("lhu", .memory .lhu), ("lw", .memory .lw)],
  [("sb", .memory .sb), ("sh", .memory .sh), ("sw", .memory .sw)],
  [("beq", .branch2 .beq), ("bne", .branch2 .bne), ("blez", .branch1 .blez), ("bgtz", .branch1 .bgtz)],
  [("bltz", .branch1 .bltz), ("bgez", .branch1 .bgez), ("bltzal", .branch1 .bltzal), ("bgezal", .branch1 .bgezal)],
  [("j", .jump .j), ("jal", .jump .jal), ("nop", .bare (.sll 0 0 0))] ]

/-- The pseudo-instructions of R120 to R126 with their shapes. -/
def pseudoShapes : List (String × Shape) :=
  [("li", .loadImm), ("la", .loadAddr), ("move", .move), ("blt", .compareBranch false .bne),
    ("bgt", .compareBranch true .bne), ("ble", .compareBranch true .beq), ("bge", .compareBranch false .beq)]

/-- The entry of a name in a table. -/
def lookupShape (table : List (String × Shape)) (name : List Char) : Option Shape :=
  (table.find? (fun p => p.1.toList == name)).map (fun p => p.2)

/-- One real instruction, if its operand fits (R116). -/
def checked (ok : Bool) (e : EncodingError) (i : Instr) : Except LineError (List RealInstr) :=
  if ok then .ok [plain i] else .error (.encoding e)

/-- `li` (R120): one instruction for -32768..32767, else `lui` and `ori`. -/
def expandLi (r : RegIdx) (i : Int) : Except LineError (List RealInstr) :=
  if fitsSigned16 i then .ok [plain (.addiu r 0 (half i))]
  else if -2147483648 ≤ i ∧ i ≤ 4294967295 then
    let v : Word := BitVec.ofInt 32 i
    .ok [plain (.lui r (v.extractLsb' 16 16)), plain (.ori r r (v.extractLsb' 0 16))]
  else .error (.encoding (.immediateRange i))

/-- `la` (R121): always `lui` and `ori`, the halves filled in pass 2. -/
def expandLa (r : RegIdx) (l : List Char) : List RealInstr :=
  [{ instr := .lui r 0, fixup := .highHalf l }, { instr := .ori r r 0, fixup := .lowHalf l }]

/-- The real instructions of a statement by its shape. `scratch` is SCRATCH_REG. -/
def expandShape (scratch : RegIdx) (name : List Char) : Shape → List Operand → Except LineError (List RealInstr)
  | .bare i, [] => .ok [plain i]
  | .reg3 f, [.reg a, .reg b, .reg c] => .ok [plain (f a b c)]
  | .reg2 f, [.reg a, .reg b] => .ok [plain (f a b)]
  | .reg1 f, [.reg a] => .ok [plain (f a)]
  | .shift f, [.reg a, .reg b, .imm i] => checked (fitsShamt i) (.shiftRange i) (f a b (BitVec.ofInt 5 i))
  | .signedImm f, [.reg a, .reg b, .imm i] => checked (fitsSigned16 i) (.immediateRange i) (f a b (half i))
  | .unsignedImm f, [.reg a, .reg b, .imm i] => checked (fitsUnsigned16 i) (.immediateRange i) (f a b (half i))
  | .upperImm, [.reg a, .imm i] => checked (fitsUnsigned16 i) (.immediateRange i) (.lui a (half i))
  | .memory f, [.reg a, .mem i b] => checked (fitsSigned16 i) (.immediateRange i) (f a b (half i))
  | .branch2 f, [.reg a, .reg b, .label l] => .ok [{ instr := f a b 0, fixup := .branch l }]
  | .branch1 f, [.reg a, .label l] => .ok [{ instr := f a 0, fixup := .branch l }]
  | .jump f, [.label l] => .ok [{ instr := f 0, fixup := .jump l }]
  | .jumpLink, [.reg a] => .ok [plain (.jalr 31 a)]
  | .jumpLink, [.reg a, .reg b] => .ok [plain (.jalr a b)]
  | .loadImm, [.reg a, .imm i] => expandLi a i
  | .loadAddr, [.reg a, .label l] => .ok (expandLa a l)
  | .move, [.reg a, .reg b] => .ok [plain (.add a b 0)]
  | .compareBranch swap f, [.reg a, .reg b, .label l] =>
    .ok [plain (if swap then .slt scratch b a else .slt scratch a b), { instr := f scratch 0 0, fixup := .branch l }]
  | _, _ => .error (.form (.badOperands name))

/-- A value of `.word`: an immediate or a label's address (R113). -/
inductive WordValue where
  | imm (i : Int)
  | label (name : List Char)
  deriving DecidableEq, Repr

/-- The two segments (R113). -/
inductive Segment where
  | text
  | data
  deriving DecidableEq, Repr

/-- What a statement puts into its segment. -/
inductive Item where
  | nothing
  | select (s : Segment)
  | instrs (is : List RealInstr)
  /-- `.word`: aligned to 4 (R114). -/
  | words (vs : List WordValue)
  /-- Every other data emitter: its bytes, not aligned (R114). -/
  | bytes (bs : List Byte)
  deriving DecidableEq, Repr

/-- An immediate of a data emitter: "a signed or unsigned value that fits the width" (R113). -/
def fitsWidth (bits : Nat) (i : Int) : Bool := decide (-(2 ^ (bits - 1) : Int) ≤ i ∧ i < 2 ^ bits)

/-- The bytes of a list of immediates, each within its width. -/
def emitAll (name : List Char) (bits : Nat) (bytesOf : Int → List Byte) : List Operand → Except LineError (List Byte)
  | [] => .ok []
  | .imm i :: ops =>
    if fitsWidth bits i then (emitAll name bits bytesOf ops).map (fun bs => bytesOf i ++ bs)
    else .error (.encoding (.immediateRange i))
  | _ :: _ => .error (.form (.badOperands name))

/-- The values of `.word`. -/
def wordValues (name : List Char) : List Operand → Except LineError (List WordValue)
  | [] => .ok []
  | .imm i :: ops =>
    if fitsWidth 32 i then (wordValues name ops).map (fun vs => .imm i :: vs)
    else .error (.encoding (.immediateRange i))
  | .label l :: ops => (wordValues name ops).map (fun vs => .label l :: vs)
  | _ :: _ => .error (.form (.badOperands name))

/-- The item of a directive (R113). -/
def directiveItem (name : List Char) (ops : List Operand) : Except LineError Item :=
  if name = ".text".toList ∧ ops = [] then .ok (.select .text)
  else if name = ".data".toList ∧ ops = [] then .ok (.select .data)
  else if name = ".word".toList ∧ ops ≠ [] then (wordValues name ops).map .words
  else if (name = ".halfword".toList ∨ name = ".half".toList) ∧ ops ≠ [] then
    (emitAll name 16 (fun i => bytesOfHalf (BitVec.ofInt 16 i)) ops).map .bytes
  else if name = ".byte".toList ∧ ops ≠ [] then (emitAll name 8 (fun i => [BitVec.ofInt 8 i]) ops).map .bytes
  else
    match ops with
    | [.str s] =>
      if name = ".ascii".toList then .ok (.bytes (utf8 s))
      else if name = ".asciiz".toList then .ok (.bytes (utf8 s ++ [0x00#8]))
      else .error (.form (.badOperands name))
    | [.imm i] =>
      if name = ".space".toList then
        if 0 ≤ i then .ok (.bytes (List.replicate i.toNat 0x00#8)) else .error (.encoding (.immediateRange i))
      else .error (.form (.badOperands name))
    | _ => .error (.form (.badOperands name))

/-- The directives of R113. -/
def directiveNames : List String := [".text", ".data", ".word", ".halfword", ".half", ".byte", ".ascii", ".asciiz", ".space"]

/-- The item of a statement. -/
def statementItem (c : Config) (st : Statement) : Except LineError Item :=
  match lookupShape (realShapes ++ pseudoShapes) st.name with
  | some sh => (expandShape c.scratchReg st.name sh st.operands).map .instrs
  | none =>
    if directiveNames.any (fun d => d.toList == st.name) then directiveItem st.name st.operands
    else if st.name.head? = some '.' then .error (.form (.unknownDirective st.name))
    else .error (.form (.unknownMnemonic st.name))

/-- The layout position: the segment selected, and the bytes emitted so far in each. -/
structure Position where
  segment : Segment
  text : Nat
  data : Nat
  deriving DecidableEq, Repr

/-- Before any segment directive statements are in `.text` (R113). -/
def Position.start : Position := { segment := .text, text := 0, data := 0 }

/-- The address of the position in its segment. -/
def Position.addr (c : Config) (p : Position) : Nat :=
  match p.segment with
  | .text => c.textBase.toNat + p.text
  | .data => c.dataBase.toNat + p.data

/-- The padding bytes before an item: `.word` is aligned to 4 (R114). -/
def padding (c : Config) (p : Position) : Item → Nat
  | .words _ => (4 - p.addr c % 4) % 4
  | _ => 0

/-- The position after `n` bytes. -/
def Position.advance (p : Position) (n : Nat) : Position :=
  match p.segment with
  | .text => { p with text := p.text + n }
  | .data => { p with data := p.data + n }

/-- The bytes of an item, its padding aside. -/
def Item.size : Item → Nat
  | .nothing => 0
  | .select _ => 0
  | .instrs is => 4 * is.length
  | .words vs => 4 * vs.length
  | .bytes bs => bs.length

/-- The position after an item. -/
def Position.after (c : Config) (p : Position) (it : Item) : Position :=
  match it with
  | .select s => { p with segment := s }
  | _ => p.advance (padding c p it + it.size)

/-- Instructions stand in the text segment, data in the data segment (log 23). -/
def Item.fits (s : Segment) : Item → Bool
  | .instrs _ => s == .text
  | .words _ => s == .data
  | .bytes _ => s == .data
  | .nothing => true
  | .select _ => true

/-- A label's definition: its name, address and line (R119). -/
structure Symbol where
  name : List Char
  addr : Word
  line : Nat
  deriving DecidableEq, Repr

/-- One line ready for the passes: its number, labels, item, what is wrong with it, whether it names the scratch register,
whether it is a pseudo-instruction. -/
structure AsmLine where
  number : Nat
  labels : List (List Char)
  item : Item
  errors : List LineError
  namesScratch : Bool
  isPseudo : Bool
  deriving DecidableEq, Repr

/-- The operand names the register. -/
def Operand.names (r : RegIdx) : Operand → Bool
  | .reg a => a == r
  | .mem _ a => a == r
  | .imm _ => false
  | .label _ => false
  | .str _ => false

/-- Reading one line of source: parsed and expanded. -/
def readSourceLine (c : Config) (number : Nat) (text : List Char) : AsmLine :=
  match parseLine text with
  | .error e =>
    { number := number, labels := [], item := .nothing, errors := [.form e], namesScratch := false, isPseudo := false }
  | .ok l =>
    match l.statement with
    | none =>
      { number := number, labels := l.labels, item := .nothing, errors := [], namesScratch := false, isPseudo := false }
    | some st =>
      let scratch := st.operands.any (Operand.names c.scratchReg)
      let pseudo := (lookupShape pseudoShapes st.name).isSome
      match statementItem c st with
      | .ok it =>
        { number := number, labels := l.labels, item := it, errors := [], namesScratch := scratch, isPseudo := pseudo }
      | .error e =>
        { number := number, labels := l.labels, item := .nothing, errors := [e], namesScratch := scratch,
          isPseudo := pseudo }

/-- The lines of a source text, numbered from `n`. -/
def readSource (c : Config) (n : Nat) : List (List Char) → List AsmLine
  | [] => []
  | t :: ts => readSourceLine c n t :: readSource c (n + 1) ts

/-- Pass 1 (R119): the labels with their addresses. A label has the address of the first byte its line emits, after the
padding (log 22). On the line of a `.text` or `.data` it has the address in the segment selected before the directive
(DESIGN CHOICE, log 28). -/
def symbolsOf (c : Config) (p : Position) : List AsmLine → List Symbol
  | [] => []
  | l :: ls =>
    l.labels.map (fun n => { name := n, addr := BitVec.ofNat 32 (p.addr c + padding c p l.item), line := l.number }) ++
      symbolsOf c (p.after c l.item) ls

/-- The symbols defined more than once, each with the line of its first definition (R119; spec/90_conflicts.md C5). -/
def duplicates (seen : List Symbol) : List Symbol → List (List Char × Nat × Nat)
  | [] => []
  | s :: ss =>
    match seen.find? (fun q => q.name == s.name) with
    | some q => (s.name, q.line, s.line) :: duplicates seen ss
    | none => duplicates (seen ++ [s]) ss

/-- The address of a label. -/
def labelAddr (syms : List Symbol) (name : List Char) : Except LineError Word :=
  match syms.find? (fun s => s.name == name) with
  | some s => .ok s.addr
  | none => .error (.undefinedLabel name)

/-- `imm = trunc16((L - (A + 4)) / 4)`, if the distance is whole words in range (R117). -/
def branchField (A L : Word) : Except LineError Half :=
  if !branchAligned A L then .error (.encoding (.branchAlign A L))
  else if !branchInRange A L then .error (.encoding (.branchRange A L))
  else .ok (half (branchDistance A L / 4))

/-- `target = L[27:2]`, if `L` is word-aligned and in the region of the jump (R118). -/
def jumpField (c : Config) (A L : Word) : Except LineError (BitVec 26) :=
  if !jumpAligned L then .error (.encoding (.jumpAlign L))
  else if !jumpInRegion (jumpRegion c.jRegion A) L then .error (.encoding (.jumpRegion A L))
  else .ok (L.extractLsb' 2 26)

/-- The word of a real instruction at address `A`: the field its fixup fills is zero in its encoding. -/
def fixWord (c : Config) (syms : List Symbol) (A : Word) (r : RealInstr) : Except LineError Word :=
  match r.fixup with
  | .none => .ok (encode r.instr)
  | .branch l =>
    match labelAddr syms l with
    | .error e => .error e
    | .ok L => (branchField A L).map (fun h => encode r.instr ||| h.zeroExtend 32)
  | .jump l =>
    match labelAddr syms l with
    | .error e => .error e
    | .ok L => (jumpField c A L).map (fun t => encode r.instr ||| t.zeroExtend 32)
  | .highHalf l => (labelAddr syms l).map (fun L => encode r.instr ||| (L.extractLsb' 16 16).zeroExtend 32)
  | .lowHalf l => (labelAddr syms l).map (fun L => encode r.instr ||| (L.extractLsb' 0 16).zeroExtend 32)

/-- The bytes and errors of a list of results. -/
def gather : List (Except LineError (List Byte)) → List Byte × List LineError
  | [] => ([], [])
  | .ok bs :: rs => (bs ++ (gather rs).1, (gather rs).2)
  | .error e :: rs => ((gather rs).1, e :: (gather rs).2)

/-- The words of real instructions from address `a` on, 4 bytes each. -/
def instrWords (c : Config) (syms : List Symbol) (a : Nat) : List RealInstr → List (Except LineError (List Byte))
  | [] => []
  | r :: rs => (fixWord c syms (BitVec.ofNat 32 a) r).map bytesOfWord :: instrWords c syms (a + 4) rs

/-- The bytes of one value of `.word`. -/
def wordBytes (syms : List Symbol) : WordValue → Except LineError (List Byte)
  | .imm i => .ok (bytesOfWord (BitVec.ofInt 32 i))
  | .label l => (labelAddr syms l).map bytesOfWord

/-- Pass 2 for one item at a position (R119): its bytes, with the padding, and its errors. -/
def emitItem (c : Config) (syms : List Symbol) (p : Position) (it : Item) : List Byte × List LineError :=
  if it.fits p.segment then
    match it with
    | .nothing => ([], [])
    | .select _ => ([], [])
    | .instrs is => gather (instrWords c syms (p.addr c) is)
    | .words vs =>
      (List.replicate (padding c p it) 0x00#8 ++ (gather (vs.map (wordBytes syms))).1, (gather (vs.map (wordBytes syms))).2)
    | .bytes bs => (bs, [])
  else ([], [.form .wrongSegment])

/-- What is wrong with a source text (R128). -/
inductive AsmError where
  /-- A line's error, with its line number. -/
  | atLine (line : Nat) (e : LineError)
  /-- One SymbolError naming both lines (spec/90_conflicts.md C5). -/
  | duplicateLabel (name : List Char) (first second : Nat)
  deriving DecidableEq, Repr

/-- The two segments' bytes and the errors of pass 2. -/
structure Emitted where
  text : List Byte
  data : List Byte
  errors : List AsmError
  deriving DecidableEq, Repr

/-- Pass 2 (R119). -/
def emitLines (c : Config) (syms : List Symbol) (p : Position) : List AsmLine → Emitted
  | [] => { text := [], data := [], errors := [] }
  | l :: ls =>
    let here := emitItem c syms p l.item
    let rest := emitLines c syms (p.after c l.item) ls
    let errs := (l.errors ++ here.2).map (AsmError.atLine l.number)
    match p.segment with
    | .text => { text := here.1 ++ rest.text, data := rest.data, errors := errs ++ rest.errors }
    | .data => { text := rest.text, data := here.1 ++ rest.data, errors := errs ++ rest.errors }

/-- The lines that use SCRATCH_REG while a pseudo-instruction is present: the warning of R127. -/
def scratchWarnings (ls : List AsmLine) : List Nat :=
  if ls.any (fun l => l.isPseudo) then (ls.filter (fun l => l.namesScratch)).map (fun l => l.number) else []

/-- A successful assembly: the image, and the line numbers warned of. -/
structure Assembled where
  program : ProgramImage
  warnings : List Nat
  deriving DecidableEq, Repr

/-- The assembler: either all errors, or an image (R128) whose entry point is ENTRY (R129). The warnings of R127 come with the
image; a failed assembly gives its errors alone (DESIGN CHOICE, log 29). -/
def assemble (c : Config) (source : List Char) : Except (List AsmError) Assembled :=
  let ls := readSource c 1 (splitLines source)
  let syms := symbolsOf c Position.start ls
  let out := emitLines c syms Position.start ls
  let errs := (duplicates [] syms).map (fun d => AsmError.duplicateLabel d.1 d.2.1 d.2.2) ++ out.errors
  if errs = [] then
    .ok
      { program :=
          { image := { text := out.text, data := out.data, entry := c.entry.getD c.textBase },
            symbols := syms.map (fun s => (s.name, s.addr)) },
        warnings := scratchWarnings ls }
  else .error errs

end Sys2Proof.Machine
end

