-- ==== Sys2Proof/Safety.lean ====
section
/-! DEFINITION. The terms in which claims about the engine are stated: what a step leaves as it was, what it writes, what a
consistent state is. They speak through the readings of the state (`State.reg`, `State.byteAt`, the fields), not through
the operations that the meanings are built from. -/

namespace Sys2Proof.Machine

open Sys2Proof

/-! ### What a step leaves as it was -/

/-- A state in which a step is accepted (spec/10_state.md R38). -/
def Live (s : State) : Prop := s.status = .loaded ∨ s.status = .running

/-- Every general register reads as before. -/
def SameRegs (s t : State) : Prop := ∀ q : RegIdx, t.reg q = s.reg q

/-- HI and LO are as before. -/
def SameHiLo (s t : State) : Prop := t.hi = s.hi ∧ t.lo = s.lo

/-- Every byte of memory reads as before. -/
def SameMem (s t : State) : Prop := ∀ a : Word, t.byteAt a = s.byteAt a

/-- The parameters and the image are as before. -/
def SameSetup (s t : State) : Prop := t.config = s.config ∧ t.image = s.image

/-- No answer of the host was taken and nothing was written to its output. -/
def SameStreams (s t : State) : Prop := t.answers = s.answers ∧ t.reads = s.reads ∧ t.output = s.output

/-! ### What a step writes -/

/-- The step ended normally and the next one fetches from `npc`. -/
def EndsAt (s t : State) (npc : Word) : Prop :=
  t.pc = npc ∧ t.status = .running ∧ t.lastFault = s.lastFault ∧ SameSetup s t

/-- Register `r` reads `v` unless it is register 0, which reads as before (zero); every other register reads as before. -/
def RegWritten (s t : State) (r : RegIdx) (v : Word) : Prop :=
  ∀ q : RegIdx, t.reg q = if q = r ∧ q ≠ 0#5 then v else s.reg q

/-- The bytes `bs` stand at `a`, `a + 1`, ... (modulo 2^32); every other byte reads as before. -/
def BytesStored (s t : State) (a : Word) (bs : List Byte) : Prop :=
  (∀ (k : Nat) (h : k < bs.length), t.byteAt (a + BitVec.ofNat 32 k) = bs[k]) ∧
    ∀ x : Word, (∀ k : Nat, k < bs.length → x ≠ a + BitVec.ofNat 32 k) → t.byteAt x = s.byteAt x

/-- One call of `write_stdout` with `bytes`; no answer was taken. -/
def Printed (s t : State) (bytes : List Byte) : Prop :=
  t.output = s.output ++ [bytes] ∧ t.answers = s.answers ∧ t.reads = s.reads

/-- One answer of the host was taken; nothing was written to its output. -/
def AnswerTaken (s t : State) : Prop :=
  t.answers = s.answers.tail ∧ t.reads = (if s.answers = [] then s.reads + 1 else s.reads) ∧ t.output = s.output

/-- `a` is the host's answer to the next `read_line`: the first of those lined up, or the free value of log 3. -/
def NextAnswer (s : State) (a : HostAnswer) : Prop :=
  s.answers.head? = some a ∨ (s.answers = [] ∧ a = Config.hostAnswer s.reads)

/-- The step wrote `v` to register `r`, nothing else, and goes on at `npc`. -/
def WritesReg (s t : State) (r : RegIdx) (v npc : Word) : Prop :=
  EndsAt s t npc ∧ RegWritten s t r v ∧ SameHiLo s t ∧ SameMem s t ∧ SameStreams s t

/-- The step wrote HI and LO, nothing else, and goes on at `pc + 4`. -/
def WritesHiLo (s t : State) (hi lo : Word) : Prop :=
  EndsAt s t (s.pc + 4#32) ∧ SameRegs s t ∧ t.hi = hi ∧ t.lo = lo ∧ SameMem s t ∧ SameStreams s t

/-- The step wrote nothing and goes on at `npc`. -/
def GoesTo (s t : State) (npc : Word) : Prop :=
  EndsAt s t npc ∧ SameRegs s t ∧ SameHiLo s t ∧ SameMem s t ∧ SameStreams s t

/-- The step stored `bs` at `a`, nothing else, and goes on at `pc + 4`. -/
def Stores (s t : State) (a : Word) (bs : List Byte) : Prop :=
  EndsAt s t (s.pc + 4#32) ∧ SameRegs s t ∧ SameHiLo s t ∧ BytesStored s t a bs ∧ SameStreams s t

/-- The engine is Faulted with the record `(k, pc)` and nothing of the step was committed (spec/60_exceptions.md R302); what
became of the host's streams is said apart. -/
def Faults (s t : State) (k : FaultKind) : Prop :=
  t.status = .faulted ∧ t.lastFault = some { kind := k, pc := s.pc } ∧ t.pc = s.pc ∧ SameRegs s t ∧ SameHiLo s t ∧
    SameMem s t ∧ SameSetup s t

/-- The step raised the fault `k` and called no service of the host. -/
def TakesFault (s t : State) (k : FaultKind) : Prop := Faults s t k ∧ SameStreams s t

/-- The engine is Halted and nothing else changed (spec/10_state.md R36, the fetch at TEXT_END). -/
def Halts (s t : State) : Prop :=
  t.status = .halted ∧ t.pc = s.pc ∧ t.lastFault = s.lastFault ∧ SameRegs s t ∧ SameHiLo s t ∧ SameMem s t ∧
    SameSetup s t ∧ SameStreams s t

/-- The status is Loaded, and every register and byte has the value of the table of spec/10_state.md R41 for the
configuration `c` and the image `img`. -/
structure LoadedState (c : Config) (img : Image) (s : State) : Prop where
  regs : ∀ q : RegIdx, s.reg q = if q = 29#5 then c.stackTop else 0x00000000#32
  pc : s.pc = img.entry
  hi : s.hi = 0x00000000#32
  lo : s.lo = 0x00000000#32
  text : ∀ (k : Nat) (h : k < img.text.length), s.byteAt (c.textBase + BitVec.ofNat 32 k) = img.text[k]
  data : ∀ (k : Nat) (h : k < img.data.length), s.byteAt (c.dataBase + BitVec.ofNat 32 k) = img.data[k]
  dataRest : ∀ a : Word, c.dataBase.toNat + img.data.length ≤ a.toNat → a.toNat < dataEnd c img → s.byteAt a = 0x00#8
  stack : ∀ a : Word, c.stackTop.toNat ≤ a.toNat + c.stackSize → a.toNat < c.stackTop.toNat → s.byteAt a = 0x00#8
  status : s.status = .loaded
  lastFault : s.lastFault = none
  setup : s.config = c ∧ s.image = img

/-- `t` is reached from `s` by steps and by what the host does between steps, in any order. -/
inductive HostReaches (s : State) : State → Prop where
  | start : HostReaches s s
  | step {t u : State} : HostReaches s t → step t = .next u → HostReaches s u
  | write {t u : State} (a : Word) (bs : List Byte) : HostReaches s t → t.writeMemory a bs = .ok u → HostReaches s u
  | offer {t : State} (answers : List HostAnswer) : HostReaches s t → HostReaches s (t.offer answers)
  | reset {t : State} : HostReaches s t → HostReaches s t.resetByHost

/-- The four bytes at the PC, big-endian (spec/20_memory.md R68). -/
def wordAtPc (s : State) : Word :=
  s.byteAt s.pc ++ s.byteAt (s.pc + 1#32) ++ s.byteAt (s.pc + 2#32) ++ s.byteAt (s.pc + 3#32)

/-- A step is accepted, the PC is a multiple of 4, and the four bytes at it lie in the text region. -/
def Fetchable (s : State) : Prop :=
  Live s ∧ s.pc.toNat % 4 = 0 ∧ s.config.textBase.toNat ≤ s.pc.toNat ∧
    s.pc.toNat + 4 ≤ s.config.textBase.toNat + s.image.text.length

/-- Instructions executed one after the other. -/
def execAll : List Instr → State → Host.Outcome State Fault Refusal
  | [], s => .next s
  | i :: is, s =>
    match exec i s with
    | .next t => execAll is t
    | .fault f => .fault f
    | .refused r => .refused r

/-! ### Instructions as words -/

/-- `w` is the encoding of `i`: the encoder gives it, and the decoder reads `i` from it under both settings of
STRICT_FIELDS. -/
def Encodes (i : Instr) (w : Word) : Prop := encode i = w ∧ ∀ strict : Bool, decode strict w = .ok i

/-- The instruction `i`, whose word is `w`, writes `v` to register `r`, nothing else, and goes on at `pc + 4`: it completes in
every state. -/
def Computes (i : Instr) (w : Word) (s : State) (r : RegIdx) (v : Word) : Prop :=
  Encodes i w ∧ ∃ t, exec i s = .next t ∧ WritesReg s t r v (s.pc + 4#32)

/-- The keys of spec/30_encoding.md R100: SPECIAL by `funct`, REGIMM by `rt`, the others by `op`. -/
def specialKeys : List (BitVec 6) :=
  [0x00, 0x02, 0x03, 0x04, 0x06, 0x07, 0x08, 0x09, 0x0C, 0x10, 0x11, 0x12, 0x13, 0x18, 0x19, 0x1A, 0x1B, 0x20, 0x21, 0x22,
    0x23, 0x24, 0x25, 0x26, 0x27, 0x2A, 0x2B]

/-- See `specialKeys`. -/
def regimmKeys : List (BitVec 5) := [0x00, 0x01, 0x10, 0x11]

/-- See `specialKeys`. -/
def opKeys : List (BitVec 6) :=
  [0x02, 0x03, 0x04, 0x05, 0x06, 0x07, 0x08, 0x09, 0x0A, 0x0B, 0x0C, 0x0D, 0x0E, 0x0F, 0x20, 0x21, 0x23, 0x24, 0x25, 0x28,
    0x29, 0x2B]

/-- The key of the word is in the table of R100. -/
def Admitted (w : Word) : Prop :=
  (fieldOp w = 0x00#6 ∧ fieldFunct w ∈ specialKeys) ∨ (fieldOp w = 0x01#6 ∧ fieldRt w ∈ regimmKeys) ∨ fieldOp w ∈ opKeys

/-- The fields that spec/30_encoding.md R102 lists for the instruction are zero in the word. -/
def ZeroFields (w : Word) : Instr → Prop
  | .sll _ _ _ | .srl _ _ _ | .sra _ _ _ => fieldRs w = 0
  | .sllv _ _ _ | .srlv _ _ _ | .srav _ _ _ => fieldShamt w = 0
  | .add _ _ _ | .addu _ _ _ | .sub _ _ _ | .subu _ _ _ | .and _ _ _ | .or _ _ _ | .xor _ _ _ | .nor _ _ _
  | .slt _ _ _ | .sltu _ _ _ => fieldShamt w = 0
  | .jr _ => fieldRt w = 0 ∧ fieldRd w = 0 ∧ fieldShamt w = 0
  | .jalr _ _ => fieldRt w = 0 ∧ fieldShamt w = 0
  | .mfhi _ | .mflo _ => fieldRs w = 0 ∧ fieldRt w = 0 ∧ fieldShamt w = 0
  | .mthi _ | .mtlo _ => fieldRt w = 0 ∧ fieldRd w = 0 ∧ fieldShamt w = 0
  | .mult _ _ | .multu _ _ | .div _ _ | .divu _ _ => fieldRd w = 0 ∧ fieldShamt w = 0
  | .blez _ _ | .bgtz _ _ => fieldRt w = 0
  | .lui _ _ => fieldRs w = 0
  | .syscall => True
  | .bltz _ _ | .bgez _ _ | .bltzal _ _ | .bgezal _ _ => True
  | .j _ | .jal _ => True
  | .beq _ _ _ | .bne _ _ _ => True
  | .addi _ _ _ | .addiu _ _ _ | .slti _ _ _ | .sltiu _ _ _ | .andi _ _ _ | .ori _ _ _ | .xori _ _ _ => True
  | .lb _ _ _ | .lh _ _ _ | .lw _ _ _ | .lbu _ _ _ | .lhu _ _ _ | .sb _ _ _ | .sh _ _ _ | .sw _ _ _ => True

/-! ### What kinds of instruction write what (spec/10_state.md R24, R25, R27; spec/20_memory.md R61) -/

/-- The general register an instruction may write (R24); `syscall` may write `$v0`. -/
def destination : Instr → Option RegIdx
  | .sll rd _ _ | .srl rd _ _ | .sra rd _ _ | .sllv rd _ _ | .srlv rd _ _ | .srav rd _ _ => some rd
  | .add rd _ _ | .addu rd _ _ | .sub rd _ _ | .subu rd _ _ | .and rd _ _ | .or rd _ _ | .xor rd _ _ | .nor rd _ _
  | .slt rd _ _ | .sltu rd _ _ => some rd
  | .addi rt _ _ | .addiu rt _ _ | .slti rt _ _ | .sltiu rt _ _ | .andi rt _ _ | .ori rt _ _ | .xori rt _ _ => some rt
  | .lui rt _ => some rt
  | .mfhi rd | .mflo rd => some rd
  | .lb rt _ _ | .lbu rt _ _ | .lh rt _ _ | .lhu rt _ _ | .lw rt _ _ => some rt
  | .jal _ | .bltzal _ _ | .bgezal _ _ => some 31#5
  | .jalr rd _ => some rd
  | .syscall => some 2#5
  | .jr _ | .mthi _ | .mtlo _ | .mult _ _ | .multu _ _ | .div _ _ | .divu _ _ => none
  | .bltz _ _ | .bgez _ _ | .j _ | .beq _ _ _ | .bne _ _ _ | .blez _ _ | .bgtz _ _ => none
  | .sb _ _ _ | .sh _ _ _ | .sw _ _ _ => none

/-- The instructions that write HI or LO (R25). -/
def writesHiLo : Instr → Bool
  | .mthi _ | .mtlo _ | .mult _ _ | .multu _ _ => true
  | .div _ _ | .divu _ _ => true
  | .sll _ _ _ | .srl _ _ _ | .sra _ _ _ | .sllv _ _ _ | .srlv _ _ _ | .srav _ _ _ => false
  | .addu _ _ _ | .subu _ _ _ | .and _ _ _ | .or _ _ _ | .xor _ _ _ | .nor _ _ _ | .slt _ _ _ | .sltu _ _ _ => false
  | .addiu _ _ _ | .slti _ _ _ | .sltiu _ _ _ | .andi _ _ _ | .ori _ _ _ | .xori _ _ _ | .lui _ _ => false
  | .add _ _ _ | .sub _ _ _ | .addi _ _ _ => false
  | .mfhi _ | .mflo _ => false
  | .beq _ _ _ | .bne _ _ _ | .blez _ _ | .bgtz _ _ | .bltz _ _ | .bgez _ _ | .bltzal _ _ | .bgezal _ _ => false
  | .j _ | .jal _ | .jr _ | .jalr _ _ => false
  | .lb _ _ _ | .lbu _ _ _ | .lh _ _ _ | .lhu _ _ _ | .lw _ _ _ => false
  | .sb _ _ _ | .sh _ _ _ | .sw _ _ _ => false
  | .syscall => false

/-- The branches, jumps and calls of spec/42_control.md. -/
def isControl : Instr → Bool
  | .beq _ _ _ | .bne _ _ _ | .blez _ _ | .bgtz _ _ | .bltz _ _ | .bgez _ _ | .bltzal _ _ | .bgezal _ _ => true
  | .j _ | .jal _ | .jr _ | .jalr _ _ => true
  | .sll _ _ _ | .srl _ _ _ | .sra _ _ _ | .sllv _ _ _ | .srlv _ _ _ | .srav _ _ _ => false
  | .addu _ _ _ | .subu _ _ _ | .and _ _ _ | .or _ _ _ | .xor _ _ _ | .nor _ _ _ | .slt _ _ _ | .sltu _ _ _ => false
  | .addiu _ _ _ | .slti _ _ _ | .sltiu _ _ _ | .andi _ _ _ | .ori _ _ _ | .xori _ _ _ | .lui _ _ => false
  | .add _ _ _ | .sub _ _ _ | .addi _ _ _ => false
  | .mfhi _ | .mflo _ => false
  | .mthi _ | .mtlo _ | .mult _ _ | .multu _ _ => false
  | .div _ _ | .divu _ _ => false
  | .lb _ _ _ | .lbu _ _ _ | .lh _ _ _ | .lhu _ _ _ | .lw _ _ _ => false
  | .sb _ _ _ | .sh _ _ _ | .sw _ _ _ => false
  | .syscall => false

/-- The address and the number of bytes of a store instruction, computed as its meaning computes them (R256 to R258). -/
def storeTarget (s : State) : Instr → Option (Word × Nat)
  | .sb _ rs imm => some (s.effAddr rs imm, 1)
  | .sh _ rs imm => some (s.effAddr rs imm, 2)
  | .sw _ rs imm => some (s.effAddr rs imm, 4)
  | .sll _ _ _ | .srl _ _ _ | .sra _ _ _ | .sllv _ _ _ | .srlv _ _ _ | .srav _ _ _ => none
  | .addu _ _ _ | .subu _ _ _ | .and _ _ _ | .or _ _ _ | .xor _ _ _ | .nor _ _ _ | .slt _ _ _ | .sltu _ _ _ => none
  | .addiu _ _ _ | .slti _ _ _ | .sltiu _ _ _ | .andi _ _ _ | .ori _ _ _ | .xori _ _ _ | .lui _ _ => none
  | .add _ _ _ | .sub _ _ _ | .addi _ _ _ => none
  | .mfhi _ | .mflo _ => none
  | .mthi _ | .mtlo _ | .mult _ _ | .multu _ _ => none
  | .div _ _ | .divu _ _ => none
  | .beq _ _ _ | .bne _ _ _ | .blez _ _ | .bgtz _ _ | .bltz _ _ | .bgez _ _ | .bltzal _ _ | .bgezal _ _ => none
  | .j _ | .jal _ | .jr _ | .jalr _ _ => none
  | .lb _ _ _ | .lbu _ _ _ | .lh _ _ _ | .lhu _ _ _ | .lw _ _ _ => none
  | .syscall => none

/-- The codes of the fault kinds an instruction can raise: the column "raised by" of spec/60_exceptions.md R300. -/
def faultCodes : Instr → List Nat
  | .lb _ _ _ | .lbu _ _ _ => [6]
  | .lh _ _ _ | .lhu _ _ _ | .lw _ _ _ => [4, 6]
  | .sb _ _ _ => [7]
  | .sh _ _ _ | .sw _ _ _ => [5, 7]
  | .div _ _ => [8, 10]
  | .divu _ _ => [8]
  | .add _ _ _ | .sub _ _ _ | .addi _ _ _ => [9]
  | .syscall => [6, 7, 11, 12]
  | .sll _ _ _ | .srl _ _ _ | .sra _ _ _ | .sllv _ _ _ | .srlv _ _ _ | .srav _ _ _ => []
  | .addu _ _ _ | .subu _ _ _ | .and _ _ _ | .or _ _ _ | .xor _ _ _ | .nor _ _ _ | .slt _ _ _ | .sltu _ _ _ => []
  | .addiu _ _ _ | .slti _ _ _ | .sltiu _ _ _ | .andi _ _ _ | .ori _ _ _ | .xori _ _ _ | .lui _ _ => []
  | .mfhi _ | .mflo _ => []
  | .mthi _ | .mtlo _ | .mult _ _ | .multu _ _ => []
  | .beq _ _ _ | .bne _ _ _ | .blez _ _ | .bgtz _ _ | .bltz _ _ | .bgez _ _ | .bltzal _ _ | .bgezal _ _ => []
  | .j _ | .jal _ | .jr _ | .jalr _ _ => []

/-! ### Integers as text (spec/44_syscall.md R273, R275) -/

/-- The value of decimal digits, the first the most significant. -/
def decimalValue : List Char → Nat
  | [] => 0
  | c :: cs => (c.toNat - 48) * 10 ^ cs.length + decimalValue cs

/-- A line that read integer accepts, with its value: whitespace, an optional sign, one or more digits, whitespace; the
value in range. -/
def IntegerLine (line : List Char) (v : Int) : Prop :=
  ∃ pre sign digits post : List Char, line = pre ++ sign ++ digits ++ post ∧
    (∀ c ∈ pre ++ post, c = ' ' ∨ c = '\t' ∨ c = '\r' ∨ c = '\n') ∧ digits ≠ [] ∧ (∀ c ∈ digits, '0' ≤ c ∧ c ≤ '9') ∧
    ((sign = [] ∨ sign = ['+']) ∧ v = decimalValue digits ∨ sign = ['-'] ∧ v = -(decimalValue digits : Int)) ∧
    -2147483648 ≤ v ∧ v ≤ 2147483647

/-! ### Consistent states -/

/-- What every step keeps: memory in its canonical form, and only backed addresses listed (spec/20_memory.md R61: "The
memory is a map from each backed address to one byte"); a last fault exactly in Faulted (spec/10_state.md R31); the slot
of register 0 as it was left at reset. -/
structure Consistent (s : State) : Prop where
  canonical : Memory.wf s.mem
  backed : ∀ c ∈ s.mem, c.1 < 4294967296 ∧ s.backed (BitVec.ofNat 32 c.1) = true
  faultRecord : s.lastFault.isSome = true ↔ s.status = .faulted
  zeroSlot : s.regs[0] = 0x00000000#32

end Sys2Proof.Machine
end

