-- ==== Sys2Proof/Certificates/Slice0/Obligations.lean ====
section
/-! DEFINITION. The statements for the provers, in the terms of Safety.lean. "log n" is notes/assumptions/n.md. -/

open Sys2Proof Sys2Proof.Machine

/-! ### Load, reset, regions -/

/-- R41 for the image with no text and no data under the default configuration (the image is the model's choice, log 6);
load of that image gives the same state. The zeros of HI, LO and of the stack bytes are the spec's own decisions D35 and D8;
the 0x00 of an unbacked address, for which R41 gives no byte, is what the model's memory reads as there (log 5). -/
def Obligations.ResetHoldsTheLoadValues : Prop :=
  (∀ q : RegIdx, State.reset.reg q = if q = 29#5 then 0x7FFFF000#32 else 0x00000000#32) ∧
    State.reset.pc = 0x00400000#32 ∧ State.reset.hi = 0#32 ∧ State.reset.lo = 0#32 ∧ State.reset.status = .loaded ∧
    State.reset.lastFault = none ∧ (∀ a : Word, State.reset.byteAt a = 0x00#8) ∧
    load Config.default { image := { text := [], data := [], entry := 0x00400000#32 }, symbols := [] } = .ok State.reset

/-- R41: every piece of the state after `load(image)` and after `reset`. The zeros of HI, LO, of the data beyond the image and of
the stack are the spec's own decisions D8 and D35. -/
def Obligations.LoadGivesTheSpecState : Prop :=
  ∀ (c : Config) (p : ProgramImage) (s : State), load c p = .ok s →
    LoadedState c p.image s ∧ LoadedState c p.image s.resetByHost

/-- R332 (the spec's own decision D25): in every state that steps, the host's writes, lined-up answers and resets reach from a
load, reset gives the state of that load again; the host's streams stay as they are. -/
def Obligations.HostResetRestoresTheLoadState : Prop :=
  ∀ (c : Config) (p : ProgramImage) (s₀ s : State), load c p = .ok s₀ → HostReaches s₀ s →
    s.resetByHost = { s₀ with answers := s.answers, reads := s.reads, output := s.output }

/-- R331: load refuses exactly the images and configurations of the rule's list, in unbounded integers (R8). -/
def Obligations.LoadRefusesExactly : Prop :=
  ∀ (c : Config) (p : ProgramImage),
    let text : Int × Int := (c.textBase.toNat, c.textBase.toNat + p.image.text.length)
    let data : Int × Int := (c.dataBase.toNat, c.dataBase.toNat + (c.dataSize.getD p.image.data.length : Nat))
    let stack : Int × Int := ((c.stackTop.toNat : Int) - c.stackSize, c.stackTop.toNat)
    (∃ e, load c p = .error e) ↔
      (p.image.text.length % 4 ≠ 0 ∨ c.textBase.toNat % 4 ≠ 0 ∨ c.dataBase.toNat % 4 ≠ 0 ∨ c.stackTop.toNat % 4 ≠ 0 ∨
        c.stackSize % 4 ≠ 0 ∨ c.dataSize.getD p.image.data.length < p.image.data.length ∨
        (∃ r ∈ [text, data, stack], r.1 < 0 ∨ 2 ^ 32 < r.2) ∨
        ∃ r ∈ [(text, data), (text, stack), (data, stack)],
          r.1.1 < r.1.2 ∧ r.2.1 < r.2.2 ∧ max r.1.1 r.2.1 < min r.1.2 r.2.2)

/-- R60: `backed(a)` holds exactly when `a` lies in one of the three regions. -/
def Obligations.RegionsAreBackedExactly : Prop :=
  ∀ (s : State) (a : Word), s.backed a = true ↔
    (s.config.textBase.toNat ≤ a.toNat ∧ a.toNat < s.config.textBase.toNat + s.image.text.length) ∨
    (s.config.dataBase.toNat ≤ a.toNat ∧ a.toNat < s.config.dataBase.toNat + s.config.dataSize.getD s.image.data.length) ∨
    ((s.config.stackTop.toNat : Int) - s.config.stackSize ≤ a.toNat ∧ a.toNat < s.config.stackTop.toNat)

/-! ### The step -/

/-- R33: a step whose fetched word decodes to `i` is `exec` of `i` at the same state; `exec` itself moves the PC and sets the
status. -/
def Obligations.StepRunsTheDecodedInstruction : Prop :=
  ∀ (s : State) (i : Instr), Fetchable s → decode s.config.strictFields (wordAtPc s) = .ok i → step s = exec i s

/-- R101: a word whose key is not in the table raises IllegalInstruction with the word, under both settings of
STRICT_FIELDS. -/
def Obligations.OffTheTableIsIllegal : Prop :=
  ∀ s : State, Fetchable s → ¬Admitted (wordAtPc s) →
    ∃ t, step s = .next t ∧ TakesFault s t (.illegalInstruction (wordAtPc s))

/-- R33, R306: the checks before the decode, in their order: alignment, TEXT_END (a halt that changes nothing else, R36), the
text region. -/
def Obligations.FetchChecksInOrder : Prop :=
  ∀ s : State, Live s →
    (s.pc.toNat % 4 ≠ 0 → ∃ t, step s = .next t ∧ TakesFault s t (.addressErrorFetch s.pc)) ∧
    (s.pc.toNat % 4 = 0 → s.pc.toNat = s.config.textBase.toNat + s.image.text.length →
      ∃ t, step s = .next t ∧ Halts s t) ∧
    (s.pc.toNat % 4 = 0 → s.pc.toNat ≠ s.config.textBase.toNat + s.image.text.length →
      (s.pc.toNat < s.config.textBase.toNat ∨ s.config.textBase.toNat + s.image.text.length < s.pc.toNat) →
      ∃ t, step s = .next t ∧ TakesFault s t (.accessFaultFetch s.pc))

/-- R37: a step requested in Halted or Faulted changes nothing, however often, and returns the status, the PC and the last
fault: in Faulted its record, with its message (R303; the text is the model's free value where the spec fixes none, log 13),
in Halted none (R31). -/
def Obligations.TerminalStatesNeverMove : Prop :=
  ∀ (s : State) (k : Nat), (s.status = .halted ∨ s.status = .faulted) →
    Sys2Proof.core.run k s = .next s ∧
      ∃ r, hostStep s = .next (s, r) ∧ r.status = s.status ∧ r.pc = s.pc ∧
        (s.status = .faulted → r.lastFault = s.lastFault ∧ r.message = s.lastFault.map faultMessage) ∧
        (s.status = .halted → r.lastFault = none ∧ r.message = none)

/-- R80: a store to a word of text is seen by the fetch of the next step, with no delay. -/
def Obligations.FetchSeesTheStore : Prop :=
  ∀ (s t : State) (rt rs : RegIdx) (imm : Half) (i : Instr), exec (.sw rt rs imm) s = .next t → Fetchable t →
    t.pc = s.effAddr rs imm → decode t.config.strictFields (s.reg rt) = .ok i → step t = exec i t

/-- Memory canonical and backed (R61), a last fault exactly in Faulted (R31), the slot of register 0 untouched (R21): every
step keeps it. -/
def Obligations.EveryStepKeepsConsistency : Prop :=
  ∀ s t : State, Consistent s → step s = .next t → Consistent t

/-- The state after reset, the states after load and after the host's write are consistent. -/
def Obligations.HostMakesConsistentStates : Prop :=
  Consistent State.reset ∧ (∀ (c : Config) (p : ProgramImage) (s : State), load c p = .ok s → Consistent s) ∧
    ∀ (s t : State) (a : Word) (bs : List Byte), Consistent s → s.writeMemory a bs = .ok t → Consistent t

/-! ### Encoding and decoding -/

/-- Every instruction, with every operand at every value: decoding its word, and its bytes with anything behind them, gives
it back, under both settings of STRICT_FIELDS. -/
def Obligations.DecodeEncodeAgree : Prop :=
  ∀ (i : Instr) (strict : Bool) (rest : List Byte),
    decode strict (encode i) = .ok i ∧ decodeBytes strict (encodeBytes i ++ rest) = .ok (i, rest)

/-- A word whose reserved fields are zero is the word the encoder makes of its instruction; `syscall` alone has a free code
field (R102). -/
def Obligations.EncodeDecodeAgree : Prop :=
  ∀ (w : Word) (i : Instr), decode false w = .ok i → i ≠ .syscall → ZeroFields w i → encode i = w

/-- R99, R100: a word decodes exactly when its key is in the table. -/
def Obligations.DecodeAdmitsExactlyTheTable : Prop :=
  ∀ w : Word, (∃ i, decode false w = .ok i) ↔ Admitted w

/-- R102: with STRICT_FIELDS a word that decodes without it decodes to the same instruction if the listed fields are zero, and
is illegal if one is not. -/
def Obligations.StrictFieldsRejectNonzero : Prop :=
  ∀ (w : Word) (i : Instr), decode false w = .ok i →
    (ZeroFields w i → decode true w = .ok i) ∧ (¬ZeroFields w i → ∃ e, decode true w = .error e)

/-- Words written out in spec/95_test_vectors.md, with the instructions they stand for. -/
def Obligations.SampleWordsDecode : Prop :=
  decode true 0x012A4020#32 = .ok (.add 8 9 10) ∧ decode true 0x8FA8FFFC#32 = .ok (.lw 8 29 0xFFFC#16) ∧
    decode true 0x05110001#32 = .ok (.bgezal 8 1) ∧ decode true 0x08100004#32 = .ok (.j 0x0100004#26) ∧
    decode true 0x012A001A#32 = .ok (.div 9 10) ∧ decode true 0x0320F809#32 = .ok (.jalr 31 25) ∧
    decode true 0x03FFFFCC#32 = .ok .syscall

/-! ### What each kind of instruction changes -/

/-- R24: only the destination register of an instruction changes; `syscall` writes `$v0` in read integer alone. -/
def Obligations.OnlyTheDestinationRegisterChanges : Prop :=
  ∀ (i : Instr) (s t : State) (q : RegIdx), exec i s = .next t → t.reg q ≠ s.reg q →
    q ≠ 0#5 ∧ destination i = some q ∧ (i = .syscall → s.reg 2#5 = 5#32)

/-- R25: HI and LO are written only by the multiply/divide family, and read only by `mfhi` and `mflo`: another instruction does
the same, but for HI and LO themselves, whatever HI and LO hold before it. -/
def Obligations.HiLoBelongToTheirFamily : Prop :=
  ∀ (i : Instr) (s t : State), exec i s = .next t →
    ((t.hi ≠ s.hi ∨ t.lo ≠ s.lo) → writesHiLo i = true) ∧
    ((∀ rd, i ≠ .mfhi rd ∧ i ≠ .mflo rd) → ∀ hi lo : Word,
      ∃ u, exec i { s with hi := hi, lo := lo } = .next u ∧ { u with hi := t.hi, lo := t.lo } = t ∧
        (u.hi = t.hi ∨ (u.hi = hi ∧ t.hi = s.hi)) ∧ (u.lo = t.lo ∨ (u.lo = lo ∧ t.lo = s.lo)))

/-- R61: memory changes only in the bytes of a store, and in at most `$a1` bytes from `$a0` on for the read-string service;
every byte changed is backed. -/
def Obligations.OnlyStoresChangeMemory : Prop :=
  ∀ (i : Instr) (s t : State) (a : Word), exec i s = .next t → t.byteAt a ≠ s.byteAt a →
    s.backed a = true ∧
      ((∃ e n k, storeTarget s i = some (e, n) ∧ k < n ∧ a = e + BitVec.ofNat 32 k) ∨
        (i = .syscall ∧ s.reg 2#5 = 8#32 ∧ ∃ k : Nat, (k : Int) < (s.reg 5#5).toInt ∧ a = s.reg 4#5 + BitVec.ofNat 32 k))

/-- R302: a step that ends Faulted has committed nothing: registers, HI, LO, PC and memory as before, no output of the step,
and the last fault a record with the PC of the faulting instruction. -/
def Obligations.FaultedStepsCommitNothing : Prop :=
  ∀ s t : State, Live s → step s = .next t → t.status = .faulted → ∃ k, Faults s t k ∧ t.output = s.output

/-- R300, R301: an instruction raises only the kinds of fault that the table lists for it. -/
def Obligations.FaultKindsByInstruction : Prop :=
  ∀ (i : Instr) (s t : State), s.status ≠ .faulted → exec i s = .next t → t.status = .faulted →
    ∃ r, t.lastFault = some r ∧ r.pc = s.pc ∧ faultCode r.kind ∈ faultCodes i

/-- R27: every instruction but the branches, jumps and calls goes on at `pc + 4`, unless it faults. -/
def Obligations.OnlyControlInstructionsJump : Prop :=
  ∀ (i : Instr) (s t : State), isControl i = false → exec i s = .next t → t.status ≠ .faulted → t.pc = s.pc + 4#32

/-- R271: only `syscall` calls the host; output only grows, by at most one call; answers are taken in order, at most one; the
parameters and the image never change. -/
def Obligations.OnlySyscallCallsTheHost : Prop :=
  ∀ (i : Instr) (s t : State), exec i s = .next t →
    SameSetup s t ∧ (i ≠ .syscall → SameStreams s t) ∧
      (SameStreams s t ∨ AnswerTaken s t ∨ ∃ bytes, Printed s t bytes)

/-! ### spec/40_alu.md -/

/-- R142, R144 to R148: `addu subu and or xor nor`. -/
def Obligations.RegisterArithmeticAndLogic : Prop :=
  ∀ (s : State) (rd rs rt : RegIdx),
    Computes (.addu rd rs rt) (wordR rs rt rd 0 0x21#6) s rd (s.reg rs + s.reg rt) ∧
    Computes (.subu rd rs rt) (wordR rs rt rd 0 0x23#6) s rd (s.reg rs - s.reg rt) ∧
    Computes (.and rd rs rt) (wordR rs rt rd 0 0x24#6) s rd (s.reg rs &&& s.reg rt) ∧
    Computes (.or rd rs rt) (wordR rs rt rd 0 0x25#6) s rd (s.reg rs ||| s.reg rt) ∧
    Computes (.xor rd rs rt) (wordR rs rt rd 0 0x26#6) s rd (s.reg rs ^^^ s.reg rt) ∧
    Computes (.nor rd rs rt) (wordR rs rt rd 0 0x27#6) s rd (~~~(s.reg rs ||| s.reg rt))

/-- R149, R150, R153, R154: `slt sltu slti sltiu`; both immediates are sign-extended. -/
def Obligations.SetLessThan : Prop :=
  ∀ (s : State) (rd rs rt : RegIdx) (imm : Half),
    Computes (.slt rd rs rt) (wordR rs rt rd 0 0x2A#6) s rd (if (s.reg rs).toInt < (s.reg rt).toInt then 1#32 else 0#32) ∧
    Computes (.sltu rd rs rt) (wordR rs rt rd 0 0x2B#6) s rd
      (if (s.reg rs).toNat < (s.reg rt).toNat then 1#32 else 0#32) ∧
    Computes (.slti rt rs imm) (wordI 0x0A#6 rs rt imm) s rt (if (s.reg rs).toInt < imm.toInt then 1#32 else 0#32) ∧
    Computes (.sltiu rt rs imm) (wordI 0x0B#6 rs rt imm) s rt
      (if (s.reg rs).toNat < (imm.signExtend 32).toNat then 1#32 else 0#32)

/-- R152, R155 to R158: `addiu andi ori xori lui`; `addiu` sign-extends, the logical ones zero-extend. -/
def Obligations.ImmediateArithmeticAndLogic : Prop :=
  ∀ (s : State) (rt rs : RegIdx) (imm : Half),
    Computes (.addiu rt rs imm) (wordI 0x09#6 rs rt imm) s rt (s.reg rs + imm.signExtend 32) ∧
    Computes (.andi rt rs imm) (wordI 0x0C#6 rs rt imm) s rt (s.reg rs &&& imm.zeroExtend 32) ∧
    Computes (.ori rt rs imm) (wordI 0x0D#6 rs rt imm) s rt (s.reg rs ||| imm.zeroExtend 32) ∧
    Computes (.xori rt rs imm) (wordI 0x0E#6 rs rt imm) s rt (s.reg rs ^^^ imm.zeroExtend 32) ∧
    Computes (.lui rt imm) (wordI 0x0F#6 0 rt imm) s rt (imm.zeroExtend 32 <<< 16)

/-- R159 to R164, R98: the shifts; the variable ones use the low 5 bits of the amount, that is, the amount modulo 32. -/
def Obligations.ShiftsUseFiveBits : Prop :=
  ∀ (s : State) (rd rt rs : RegIdx) (shamt : BitVec 5),
    Computes (.sll rd rt shamt) (wordR 0 rt rd shamt 0x00#6) s rd (s.reg rt <<< shamt.toNat) ∧
    Computes (.srl rd rt shamt) (wordR 0 rt rd shamt 0x02#6) s rd (s.reg rt >>> shamt.toNat) ∧
    Computes (.sra rd rt shamt) (wordR 0 rt rd shamt 0x03#6) s rd (BitVec.ofInt 32 ((s.reg rt).toInt / 2 ^ shamt.toNat)) ∧
    Computes (.sllv rd rt rs) (wordR rs rt rd 0 0x04#6) s rd (s.reg rt <<< ((s.reg rs).toNat % 32)) ∧
    Computes (.srlv rd rt rs) (wordR rs rt rd 0 0x06#6) s rd (s.reg rt >>> ((s.reg rs).toNat % 32)) ∧
    Computes (.srav rd rt rs) (wordR rs rt rd 0 0x07#6) s rd
      (BitVec.ofInt 32 ((s.reg rt).toInt / 2 ^ ((s.reg rs).toNat % 32)))

/-- R140, R141, R143, R151: `add sub addi`: with OVERFLOW_TRAPS a result outside -2^31 .. 2^31 - 1 raises IntegerOverflow,
also where the destination is register 0; otherwise the result modulo 2^32 is written. -/
def Obligations.TrappingArithmetic : Prop :=
  ∀ (s : State) (rd rs rt : RegIdx) (imm : Half),
    Encodes (.add rd rs rt) (wordR rs rt rd 0 0x20#6) ∧ Encodes (.sub rd rs rt) (wordR rs rt rd 0 0x22#6) ∧
    Encodes (.addi rt rs imm) (wordI 0x08#6 rs rt imm) ∧
    ∀ p ∈ [(Instr.add rd rs rt, rd, (s.reg rs).toInt + (s.reg rt).toInt, s.reg rs + s.reg rt),
        (Instr.sub rd rs rt, rd, (s.reg rs).toInt - (s.reg rt).toInt, s.reg rs - s.reg rt),
        (Instr.addi rt rs imm, rt, (s.reg rs).toInt + imm.toInt, s.reg rs + imm.signExtend 32)],
      (s.config.overflowTraps = true → (p.2.2.1 < -2 ^ 31 ∨ 2 ^ 31 - 1 < p.2.2.1) →
        ∃ t, exec p.1 s = .next t ∧ TakesFault s t .integerOverflow) ∧
      ((s.config.overflowTraps = false ∨ (-2 ^ 31 ≤ p.2.2.1 ∧ p.2.2.1 ≤ 2 ^ 31 - 1)) →
        ∃ t, exec p.1 s = .next t ∧ WritesReg s t p.2.1 p.2.2.2 (s.pc + 4#32))

/-! ### spec/41_muldiv.md -/

/-- R200, R201: HI and LO together hold the exact product, signed or unsigned. -/
def Obligations.MultiplyWritesTheProduct : Prop :=
  ∀ (s : State) (rs rt : RegIdx),
    Encodes (.mult rs rt) (wordR rs rt 0 0 0x18#6) ∧ Encodes (.multu rs rt) (wordR rs rt 0 0 0x19#6) ∧
    (∃ t hi lo, exec (.mult rs rt) s = .next t ∧ WritesHiLo s t hi lo ∧
      (hi ++ lo : BitVec 64).toInt = (s.reg rs).toInt * (s.reg rt).toInt) ∧
    ∃ t hi lo, exec (.multu rs rt) s = .next t ∧ WritesHiLo s t hi lo ∧
      (hi ++ lo : BitVec 64).toNat = (s.reg rs).toNat * (s.reg rt).toNat

/-- R202: `div`: a zero divisor raises DivideByZero; -2^31 / -1 raises DivideOverflow or wraps by DIV_OVERFLOW; otherwise the
quotient, truncated toward zero, to LO and the remainder to HI. -/
def Obligations.SignedDivide : Prop :=
  ∀ (s : State) (rs rt : RegIdx),
    Encodes (.div rs rt) (wordR rs rt 0 0 0x1A#6) ∧
    (s.reg rt = 0#32 → ∃ t, exec (.div rs rt) s = .next t ∧ TakesFault s t .divideByZero) ∧
    (s.reg rs = 0x80000000#32 → s.reg rt = 0xFFFFFFFF#32 →
      (s.config.divOverflow = .fault → ∃ t, exec (.div rs rt) s = .next t ∧ TakesFault s t .divideOverflow) ∧
      (s.config.divOverflow = .wrap → ∃ t, exec (.div rs rt) s = .next t ∧ WritesHiLo s t 0#32 0x80000000#32)) ∧
    (s.reg rt ≠ 0#32 → ¬(s.reg rs = 0x80000000#32 ∧ s.reg rt = 0xFFFFFFFF#32) →
      ∃ t hi lo, exec (.div rs rt) s = .next t ∧ WritesHiLo s t hi lo ∧
        lo.toInt = (s.reg rs).toInt.tdiv (s.reg rt).toInt ∧ hi.toInt = (s.reg rs).toInt.tmod (s.reg rt).toInt)

/-- R203: `divu`: a zero divisor raises DivideByZero; otherwise quotient to LO and remainder to HI, unsigned. -/
def Obligations.UnsignedDivide : Prop :=
  ∀ (s : State) (rs rt : RegIdx),
    Encodes (.divu rs rt) (wordR rs rt 0 0 0x1B#6) ∧
    (s.reg rt = 0#32 → ∃ t, exec (.divu rs rt) s = .next t ∧ TakesFault s t .divideByZero) ∧
    (s.reg rt ≠ 0#32 → ∃ t hi lo, exec (.divu rs rt) s = .next t ∧ WritesHiLo s t hi lo ∧
      lo.toNat = (s.reg rs).toNat / (s.reg rt).toNat ∧ hi.toNat = (s.reg rs).toNat % (s.reg rt).toNat)

/-- R208: the law of division for every division that does not fault, DIV_OVERFLOW = Wrap aside. -/
def Obligations.DivisionLaws : Prop :=
  ∀ (s t : State) (rs rt : RegIdx), t.status = .running →
    (exec (.div rs rt) s = .next t → s.config.divOverflow = .fault →
      (s.reg rs).toInt = t.lo.toInt * (s.reg rt).toInt + t.hi.toInt ∧ |t.hi.toInt| < |(s.reg rt).toInt| ∧
        (t.hi.toInt = 0 ∨ (t.hi.toInt < 0 ↔ (s.reg rs).toInt < 0))) ∧
    (exec (.divu rs rt) s = .next t →
      (s.reg rs).toNat = t.lo.toNat * (s.reg rt).toNat + t.hi.toNat ∧ t.hi.toNat < (s.reg rt).toNat)

/-- R204 to R207: `mfhi mflo mthi mtlo`. -/
def Obligations.MovesToAndFromHiLo : Prop :=
  ∀ (s : State) (r : RegIdx),
    Computes (.mfhi r) (wordR 0 0 r 0 0x10#6) s r s.hi ∧ Computes (.mflo r) (wordR 0 0 r 0 0x12#6) s r s.lo ∧
    Encodes (.mthi r) (wordR r 0 0 0 0x11#6) ∧ (∃ t, exec (.mthi r) s = .next t ∧ WritesHiLo s t (s.reg r) s.lo) ∧
    Encodes (.mtlo r) (wordR r 0 0 0 0x13#6) ∧ (∃ t, exec (.mtlo r) s = .next t ∧ WritesHiLo s t s.hi (s.reg r))

/-! ### spec/42_control.md -/

/-- R220 to R226: the branches that do not link: taken, they go to `pc + 4` plus four times the signed offset (R96), else to
`pc + 4`, and write nothing. -/
def Obligations.ConditionalBranches : Prop :=
  ∀ (s : State) (rs rt : RegIdx) (imm : Half),
    let target : Word := s.pc + 4#32 + BitVec.ofInt 32 (4 * imm.toInt)
    ∀ p ∈ [(Instr.beq rs rt imm, wordI 0x04#6 rs rt imm, decide (s.reg rs = s.reg rt)),
        (Instr.bne rs rt imm, wordI 0x05#6 rs rt imm, decide (s.reg rs ≠ s.reg rt)),
        (Instr.blez rs imm, wordI 0x06#6 rs 0 imm, decide ((s.reg rs).toInt ≤ 0)),
        (Instr.bgtz rs imm, wordI 0x07#6 rs 0 imm, decide (0 < (s.reg rs).toInt)),
        (Instr.bltz rs imm, wordI 0x01#6 rs 0x00 imm, decide ((s.reg rs).toInt < 0)),
        (Instr.bgez rs imm, wordI 0x01#6 rs 0x01 imm, decide (0 ≤ (s.reg rs).toInt))],
      Encodes p.1 p.2.1 ∧
      ∃ t, exec p.1 s = .next t ∧ GoesTo s t (if p.2.2 then target else s.pc + 4#32)

/-- R227, R228: `bltzal bgezal` write `pc + 4` to `$ra` whether or not the branch is taken, and test the register as it was
before (the spec's own decisions D13, D14). -/
def Obligations.LinkingBranches : Prop :=
  ∀ (s : State) (rs : RegIdx) (imm : Half),
    let target : Word := s.pc + 4#32 + BitVec.ofInt 32 (4 * imm.toInt)
    ∀ p ∈ [(Instr.bltzal rs imm, wordI 0x01#6 rs 0x10 imm, decide ((s.reg rs).toInt < 0)),
        (Instr.bgezal rs imm, wordI 0x01#6 rs 0x11 imm, decide (0 ≤ (s.reg rs).toInt))],
      Encodes p.1 p.2.1 ∧
      ∃ t, exec p.1 s = .next t ∧ WritesReg s t 31#5 (s.pc + 4#32) (if p.2.2 then target else s.pc + 4#32)

/-- R229 to R231, R97: `j` and `jal` keep the top 4 bits of the PC, or of PC + 4 by J_REGION; `jr` takes the register; `jal`
links. -/
def Obligations.JumpsAndCalls : Prop :=
  ∀ (s : State) (rs : RegIdx) (target : BitVec 26),
    let R : Word := match s.config.jRegion with | .pc => s.pc | .pcPlus4 => s.pc + 4#32
    let dest : Word := BitVec.ofNat 32 (R.toNat / 2 ^ 28 * 2 ^ 28 + 4 * target.toNat)
    Encodes (.j target) (wordJ 0x02#6 target) ∧ (∃ t, exec (.j target) s = .next t ∧ GoesTo s t dest) ∧
    Encodes (.jal target) (wordJ 0x03#6 target) ∧
      (∃ t, exec (.jal target) s = .next t ∧ WritesReg s t 31#5 (s.pc + 4#32) dest) ∧
    Encodes (.jr rs) (wordR rs 0 0 0 0x08#6) ∧ ∃ t, exec (.jr rs) s = .next t ∧ GoesTo s t (s.reg rs)

/-- R232: `jalr` takes the old value of the register, also where it is the link register, and links (the spec's own decision
D13); with register 0 as the link register it acts as `jr`. -/
def Obligations.JalrLinksAndJumps : Prop :=
  ∀ (s : State) (rd rs : RegIdx), Encodes (.jalr rd rs) (wordR rs 0 rd 0 0x09#6) ∧
    (∃ t, exec (.jalr rd rs) s = .next t ∧ WritesReg s t rd (s.pc + 4#32) (s.reg rs)) ∧
    exec (.jalr 0 rs) s = exec (.jr rs) s

/-- R233: no branch or jump faults because of its target; the next step's fetch checks it. -/
def Obligations.BadTargetsFaultAtTheNextFetch : Prop :=
  ∀ (i : Instr) (s t : State), isControl i = true → exec i s = .next t →
    t.status = .running ∧
    (t.pc.toNat % 4 ≠ 0 → ∃ u, step t = .next u ∧ TakesFault t u (.addressErrorFetch t.pc)) ∧
    (t.pc.toNat % 4 = 0 → t.pc.toNat = t.config.textBase.toNat + t.image.text.length →
      ∃ u, step t = .next u ∧ Halts t u) ∧
    (t.pc.toNat % 4 = 0 → (t.pc.toNat < t.config.textBase.toNat ∨
        t.config.textBase.toNat + t.image.text.length < t.pc.toNat) →
      ∃ u, step t = .next u ∧ TakesFault t u (.accessFaultFetch t.pc))

/-! ### spec/43_loadstore.md -/

/-- R251, R252: `lb lbu`: the byte at the effective address, sign- or zero-extended; an unbacked address raises
AccessFaultLoad; there is no alignment fault. -/
def Obligations.ByteLoads : Prop :=
  ∀ (s : State) (rt rs : RegIdx) (imm : Half),
    let ea : Word := s.reg rs + imm.signExtend 32
    ∀ p ∈ [(Instr.lb rt rs imm, wordI 0x20#6 rs rt imm, (s.byteAt ea).signExtend 32),
        (Instr.lbu rt rs imm, wordI 0x24#6 rs rt imm, (s.byteAt ea).zeroExtend 32)],
      Encodes p.1 p.2.1 ∧
      (s.backed ea = true → ∃ t, exec p.1 s = .next t ∧ WritesReg s t rt p.2.2 (s.pc + 4#32)) ∧
      (s.backed ea = false → ∃ t, exec p.1 s = .next t ∧ TakesFault s t (.accessFaultLoad ea))

/-- R253 to R255 (with R64 to R66): `lh lhu lw`: alignment first, then the lowest unbacked byte, else the big-endian value. -/
def Obligations.HalfwordAndWordLoads : Prop :=
  ∀ (s : State) (rt rs : RegIdx) (imm : Half),
    let ea : Word := s.reg rs + imm.signExtend 32
    let h : Half := s.byteAt ea ++ s.byteAt (ea + 1#32)
    let w : Word := s.byteAt ea ++ s.byteAt (ea + 1#32) ++ s.byteAt (ea + 2#32) ++ s.byteAt (ea + 3#32)
    ∀ p ∈ [(Instr.lh rt rs imm, wordI 0x21#6 rs rt imm, h.signExtend 32, 2),
        (Instr.lhu rt rs imm, wordI 0x25#6 rs rt imm, h.zeroExtend 32, 2), (Instr.lw rt rs imm, wordI 0x23#6 rs rt imm, w, 4)],
      Encodes p.1 p.2.1 ∧
      (ea.toNat % p.2.2.2 ≠ 0 → ∃ t, exec p.1 s = .next t ∧ TakesFault s t (.addressErrorLoad ea)) ∧
      (ea.toNat % p.2.2.2 = 0 → (∀ k < p.2.2.2, s.backed (ea + BitVec.ofNat 32 k) = true) →
        ∃ t, exec p.1 s = .next t ∧ WritesReg s t rt p.2.2.1 (s.pc + 4#32)) ∧
      (ea.toNat % p.2.2.2 = 0 → ∀ k < p.2.2.2, s.backed (ea + BitVec.ofNat 32 k) = false →
        (∀ j < k, s.backed (ea + BitVec.ofNat 32 j) = true) →
        ∃ t, exec p.1 s = .next t ∧ TakesFault s t (.accessFaultLoad (ea + BitVec.ofNat 32 k)))

/-- R256 to R258 (with R64 to R66): `sb sh sw`: alignment first, then the lowest unbacked byte, else the low bytes of the
register, the most significant first, at the effective address, and nowhere else. -/
def Obligations.StoresWriteTheirBytes : Prop :=
  ∀ (s : State) (rt rs : RegIdx) (imm : Half),
    let ea : Word := s.effAddr rs imm
    let byte (n : Nat) : Byte := BitVec.ofNat 8 ((s.reg rt).toNat / 2 ^ (8 * n))
    ea = s.reg rs + imm.signExtend 32 ∧
    ∀ p ∈ [(Instr.sb rt rs imm, wordI 0x28#6 rs rt imm, [byte 0]),
        (Instr.sh rt rs imm, wordI 0x29#6 rs rt imm, [byte 1, byte 0]),
        (Instr.sw rt rs imm, wordI 0x2B#6 rs rt imm, [byte 3, byte 2, byte 1, byte 0])],
      Encodes p.1 p.2.1 ∧
      (ea.toNat % p.2.2.length ≠ 0 → ∃ t, exec p.1 s = .next t ∧ TakesFault s t (.addressErrorStore ea)) ∧
      (ea.toNat % p.2.2.length = 0 → (∀ k < p.2.2.length, s.backed (ea + BitVec.ofNat 32 k) = true) →
        ∃ t, exec p.1 s = .next t ∧ Stores s t ea p.2.2) ∧
      (ea.toNat % p.2.2.length = 0 → ∀ k < p.2.2.length, s.backed (ea + BitVec.ofNat 32 k) = false →
        (∀ j < k, s.backed (ea + BitVec.ofNat 32 j) = true) →
        ∃ t, exec p.1 s = .next t ∧ TakesFault s t (.accessFaultStore (ea + BitVec.ofNat 32 k)))

/-- R67, R77: after a word store that did not fault, the word reads back, and its halfwords and bytes are big-endian. -/
def Obligations.StoredWordsReadBackBigEndian : Prop :=
  ∀ (s t : State) (rt rs : RegIdx) (imm : Half), exec (.sw rt rs imm) s = .next t → t.status = .running →
    let A := s.effAddr rs imm
    let v := (s.reg rt).toNat
    t.memRead32 .load A = .ok (s.reg rt) ∧
      (∀ k < 2, t.memRead16 .load (A + BitVec.ofNat 32 (2 * k)) = .ok (BitVec.ofNat 16 (v / 2 ^ (16 * (1 - k))))) ∧
      ∀ k < 4, t.memRead8 .load (A + BitVec.ofNat 32 k) = .ok (BitVec.ofNat 8 (v / 2 ^ (8 * (3 - k))))

/-! ### spec/44_syscall.md -/

/-- R273: print integer writes the decimal text of `$a0` read signed, in one call, and nothing else. -/
def Obligations.PrintIntegerWritesDecimal : Prop :=
  Encodes .syscall 0x0000000C#32 ∧
  ∀ s : State, s.reg 2#5 = 1#32 →
    ∃ t, exec .syscall s = .next t ∧ EndsAt s t (s.pc + 4#32) ∧ SameRegs s t ∧ SameHiLo s t ∧ SameMem s t ∧
      Printed s t ((toString (s.reg 4#5).toInt).toList.map (fun c => BitVec.ofNat 8 c.toNat))

/-- R274: print string writes the bytes from `$a0` up to the NUL, in one call; an unbacked address before the NUL raises
AccessFaultLoad and nothing is written. -/
def Obligations.PrintStringStopsAtTheNul : Prop :=
  ∀ (s : State) (bs : List Byte), s.reg 2#5 = 4#32 → bs.length < 2 ^ 32 → (∀ b ∈ bs, b ≠ 0x00#8) →
    (∀ (k : Nat) (h : k < bs.length), s.backed (s.reg 4#5 + BitVec.ofNat 32 k) = true ∧
      s.byteAt (s.reg 4#5 + BitVec.ofNat 32 k) = bs[k]) →
    let last : Word := s.reg 4#5 + BitVec.ofNat 32 bs.length
    (s.backed last = true → s.byteAt last = 0x00#8 →
      ∃ t, exec .syscall s = .next t ∧ EndsAt s t (s.pc + 4#32) ∧ SameRegs s t ∧ SameHiLo s t ∧ SameMem s t ∧
        Printed s t bs) ∧
    (s.backed last = false → ∃ t, exec .syscall s = .next t ∧ TakesFault s t (.accessFaultLoad last))

/-- R275, R280: read integer takes one answer of the host: a line with an integer in range goes to `$v0`; any other line, and
exhausted input, raises InputError. That the answer stays taken where it raises is the model's reading (log 9). -/
def Obligations.ReadIntegerParsesTheLine : Prop :=
  ∀ s : State, s.reg 2#5 = 5#32 →
    (NextAnswer s .exhausted →
      ∃ t, exec .syscall s = .next t ∧ Faults s t (.inputError .exhausted) ∧ AnswerTaken s t) ∧
    (∀ (text : List Char) (v : Int), NextAnswer s (.line text) → IntegerLine text v →
      ∃ t, exec .syscall s = .next t ∧ EndsAt s t (s.pc + 4#32) ∧ RegWritten s t 2#5 (BitVec.ofInt 32 v) ∧ SameHiLo s t ∧
        SameMem s t ∧ AnswerTaken s t) ∧
    (∀ text : List Char, NextAnswer s (.line text) → (¬∃ v, IntegerLine text v) →
      ∃ t, exec .syscall s = .next t ∧ Faults s t (.inputError .malformed) ∧ AnswerTaken s t)

/-- R276: read string takes one answer of the host and writes at most `$a1` bytes from `$a0` on: the first `$a1 - 1` of the
line's UTF-8 bytes and a NUL, or nothing if `$a1 < 1`; the first unbacked address raises AccessFaultStore, no byte is
written and the line is lost. -/
def Obligations.ReadStringTruncates : Prop :=
  ∀ s : State, s.reg 2#5 = 8#32 →
    (NextAnswer s .exhausted →
      ∃ t, exec .syscall s = .next t ∧ Faults s t (.inputError .exhausted) ∧ AnswerTaken s t) ∧
    ∀ text : List Char, NextAnswer s (.line text) →
      let b : List Byte := (text.flatMap String.utf8EncodeChar).map (fun c => c.toBitVec)
      let n : Int := (s.reg 5#5).toInt
      let bs : List Byte := if n < 1 then [] else b.take (min (b.length : Int) (n - 1)).toNat ++ [0x00#8]
      ((∀ k < bs.length, s.backed (s.reg 4#5 + BitVec.ofNat 32 k) = true) →
        ∃ t, exec .syscall s = .next t ∧ EndsAt s t (s.pc + 4#32) ∧ SameRegs s t ∧ SameHiLo s t ∧
          BytesStored s t (s.reg 4#5) bs ∧ AnswerTaken s t) ∧
      ∀ k < bs.length, s.backed (s.reg 4#5 + BitVec.ofNat 32 k) = false →
        (∀ j < k, s.backed (s.reg 4#5 + BitVec.ofNat 32 j) = true) →
        ∃ t, exec .syscall s = .next t ∧ Faults s t (.accessFaultStore (s.reg 4#5 + BitVec.ofNat 32 k)) ∧ AnswerTaken s t

/-- R277, R278: exit commits `pc + 4` and halts (the spec's own decision D22), with nothing else changed and no output, and
every later step does nothing; a code that is none of the five raises UnknownSyscall with the code. -/
def Obligations.ExitHaltsAndUnknownCodesFault : Prop :=
  ∀ s : State,
    (s.reg 2#5 = 10#32 → ∃ t, exec .syscall s = .next t ∧ t.pc = s.pc + 4#32 ∧ t.status = .halted ∧
      t.lastFault = s.lastFault ∧ SameRegs s t ∧ SameHiLo s t ∧ SameMem s t ∧ SameSetup s t ∧ SameStreams s t ∧
      step t = .next t) ∧
    ((s.reg 2#5).toNat ∉ [1, 4, 5, 8, 10] →
      ∃ t, exec .syscall s = .next t ∧ TakesFault s t (.unknownSyscall (s.reg 2#5)))

/-- The steps that never end (spec/93_implementation_defined.md; log 3, log 8): a read service whose `read_line` never
returns, by any word of `syscall`, whatever its code field (R102); a print string over an address space fully backed and
without a NUL. No other step stops so. -/
def Obligations.OnlyEndlessStepsStop : Prop :=
  ∀ s : State,
    (∀ (w : Word) (strict : Bool), decode strict w = .ok .syscall ↔ fieldOp w = 0x00#6 ∧ fieldFunct w = 0x0C#6) ∧
    (Fetchable s → decode s.config.strictFields (wordAtPc s) = .ok .syscall → (s.reg 2#5 = 5#32 ∨ s.reg 2#5 = 8#32) →
      NextAnswer s .silent → step s = .fault .readLineNeverReturns) ∧
    (∀ f, step s = .fault f → Live s ∧
      ((f = .readLineNeverReturns ∧ (s.reg 2#5 = 5#32 ∨ s.reg 2#5 = 8#32) ∧ NextAnswer s .silent) ∨
        (f = .printStringNeverEnds ∧ s.reg 2#5 = 4#32 ∧ ∀ a : Word, s.backed a = true ∧ s.byteAt a ≠ 0x00#8))) ∧
    ∀ r, step s ≠ .refused r

/-- Every 32-bit integer that print integer prints is read back by read integer (R273, R275). -/
def Obligations.DecimalRoundTrip : Prop :=
  ∀ v : Word, parseInteger (decimalText v.toInt) = some v.toInt

/-! ### The host's operations -/

/-- R342, R343 (the spec's own decision D24): the host reads the bytes at `a`, `a + 1`, ... modulo 2^32; what it writes (up to
2^32 bytes) stands there, nothing else changes and it reads back; both are errors, with no change, exactly when a byte is
unbacked; neither needs alignment or looks at the status. -/
def Obligations.HostMemoryAccess : Prop :=
  ∀ (s : State) (a : Word) (n : Nat) (bs : List Byte),
    ((∀ k < n, s.backed (a + BitVec.ofNat 32 k) = true) →
      ∃ r, s.readMemory a n = .ok r ∧ r.length = n ∧ ∀ k < n, r[k]? = some (s.byteAt (a + BitVec.ofNat 32 k))) ∧
    ((∃ k < n, s.backed (a + BitVec.ofNat 32 k) = false) → ∃ e, s.readMemory a n = .error e) ∧
    (bs.length ≤ 2 ^ 32 → (∀ k < bs.length, s.backed (a + BitVec.ofNat 32 k) = true) →
      ∃ t, s.writeMemory a bs = .ok t ∧ BytesStored s t a bs ∧ t.readMemory a bs.length = .ok bs ∧ SameRegs s t ∧
        SameHiLo s t ∧ t.pc = s.pc ∧ t.status = s.status ∧ t.lastFault = s.lastFault ∧ SameSetup s t ∧ SameStreams s t) ∧
    ((∃ k < bs.length, s.backed (a + BitVec.ofNat 32 k) = false) → ∃ e, s.writeMemory a bs = .error e)

/-- R341: the registers 0 to 31 read as signed integers, register 0 as 0; any other index is a host error. -/
def Obligations.ReadRegisterIsSigned : Prop :=
  ∀ (s : State) (index : Int),
    ((0 ≤ index ∧ index ≤ 31) → ∃ v, s.readRegister index = .ok v ∧
      v = (s.reg (BitVec.ofInt 5 index)).toInt ∧ -2 ^ 31 ≤ v ∧ v ≤ 2 ^ 31 - 1 ∧ (index = 0 → v = 0)) ∧
    (¬(0 ≤ index ∧ index ≤ 31) → ∃ e, s.readRegister index = .error e)

/-- R340, R303: what the host receives after a word off the table: status Faulted, the PC, the record, and the message with
the address in upper-case hexadecimal. -/
def Obligations.IllegalInstructionMessage : Prop :=
  ∀ s : State, Fetchable s → ¬Admitted (wordAtPc s) →
    ∃ t r, hostStep s = .next (t, r) ∧ r.status = .faulted ∧ r.pc = s.pc ∧
      r.lastFault = some { kind := .illegalInstruction (wordAtPc s), pc := s.pc } ∧
      ∃ m, r.message = some m ∧ m.take 33 = "illegal instruction at address 0x".toList ∧
        (∀ k : Nat, k < 8 → m[33 + k]? = ("0123456789ABCDEF".toList)[s.pc.toNat / 16 ^ (7 - k) % 16]?) ∧ m.length = 41

/-! ### The assembler -/

/-- R117: the assembler gives a branch at `A` to the label address `L` a field exactly when the distance is whole words in
range, the field is the distance in words, and the branch with that field goes to `L` (R96). That the distance is an exact
integer, so that no field wraps past 2^32, is the model's choice (log 30). -/
def Obligations.BranchFieldReachesTheLabel : Prop :=
  ∀ (A L : Word) (h : Half),
    let d : Int := (L.toNat : Int) - (A.toNat + 4)
    (branchField A L = .ok h ↔ d % 4 = 0 ∧ -32768 ≤ d / 4 ∧ d / 4 ≤ 32767 ∧ h = BitVec.ofInt 16 (d / 4)) ∧
      (branchField A L = .ok h → branchTarget A h = L)

/-- R118: the assembler gives a jump at `A` to the label address `L` a field exactly when `L` is a multiple of 4 with the top
4 bits of the address that J_REGION names, the field is `L[27:2]`, and the jump with that field goes to `L` (R97). -/
def Obligations.JumpFieldReachesTheLabel : Prop :=
  ∀ (c : Config) (A L : Word) (t : BitVec 26),
    let R : Word := match c.jRegion with | .pc => A | .pcPlus4 => A + 4#32
    (jumpField c A L = .ok t ↔
      L.toNat % 4 = 0 ∧ L.toNat / 2 ^ 28 = R.toNat / 2 ^ 28 ∧ t = BitVec.ofNat 26 (L.toNat / 4)) ∧
      (jumpField c A L = .ok t → jumpTarget c.jRegion A t = L)

/-- R120: the assembler makes of `li` the expansion `addiu` for -32768..32767 and `lui` and `ori` otherwise, for an immediate in
-2^31 .. 2^32 - 1 and no other; executed, the instructions leave the value in the register, change nothing else and go on
behind them. -/
def Obligations.LoadImmediateLoads : Prop :=
  ∀ (c : Config) (r : RegIdx) (i : Int),
    let li := statementItem c { name := "li".toList, operands := [.reg r, .imm i] }
    let v : Word := BitVec.ofInt 32 i
    let is : List Instr := if -32768 ≤ i ∧ i ≤ 32767 then [.addiu r 0 (BitVec.ofInt 16 i)]
      else [.lui r (v.extractLsb' 16 16), .ori r r (v.extractLsb' 0 16)]
    (-2 ^ 31 ≤ i → i ≤ 2 ^ 32 - 1 → expandLi r i = .ok (is.map plain) ∧ li = .ok (.instrs (is.map plain)) ∧
      ∀ s : State, ∃ t, execAll is s = .next t ∧ WritesReg s t r v (s.pc + BitVec.ofNat 32 (4 * is.length))) ∧
    (¬(-2 ^ 31 ≤ i ∧ i ≤ 2 ^ 32 - 1) → ∃ e, expandLi r i = .error e ∧ li = .error e)

/-- R121: the assembler makes of `la` always two instructions, whose words, with the halves of the label's address filled in,
are those of `lui` and `ori`; executed, the pair leaves the address in the register, changes nothing else and goes on
behind it. -/
def Obligations.LoadAddressLoads : Prop :=
  ∀ (c : Config) (syms : List Symbol) (A : Word) (r : RegIdx) (l : List Char) (L : Word), labelAddr syms l = .ok L →
    let is : List Instr := [.lui r (L.extractLsb' 16 16), .ori r r (L.extractLsb' 0 16)]
    statementItem c { name := "la".toList, operands := [.reg r, .label l] } = .ok (.instrs (expandLa r l)) ∧
      (expandLa r l).map (fixWord c syms A) = is.map (fun i => .ok (encode i)) ∧
      ∀ s : State, ∃ t, execAll is s = .next t ∧ WritesReg s t r L (s.pc + 8#32)

/-- R122: `move` expands to `add` with register 0, which copies the register and cannot overflow. -/
def Obligations.MoveCopies : Prop :=
  ∀ (c : Config) (d a : RegIdx),
    statementItem c { name := "move".toList, operands := [.reg d, .reg a] } = .ok (.instrs [plain (.add d a 0)]) ∧
      ∀ s : State, ∃ t, exec (.add d a 0) s = .next t ∧ WritesReg s t d (s.reg a) (s.pc + 4#32)

/-- R123 to R126: `blt bgt ble bge` expand to `slt` into the scratch register and a branch on it, whose offset the assembler
computes from the address of the branch, the second of the pair; executed, the pair branches, relative to the branch's own
address, exactly when the signed comparison holds of the old values, and changes no other register. Where SCRATCH_REG is register 0, which stays zero, the `bne` never branches and the `beq` always. -/
def Obligations.CompareBranchesCompare : Prop :=
  ∀ (c : Config) (a b : RegIdx) (l : List Char) (s : State) (imm : Half),
    ∀ p ∈ [("blt", Instr.slt c.scratchReg a b, Instr.bne, decide ((s.reg a).toInt < (s.reg b).toInt), false),
        ("bgt", Instr.slt c.scratchReg b a, Instr.bne, decide ((s.reg a).toInt > (s.reg b).toInt), false),
        ("ble", Instr.slt c.scratchReg b a, Instr.beq, decide ((s.reg a).toInt ≤ (s.reg b).toInt), true),
        ("bge", Instr.slt c.scratchReg a b, Instr.beq, decide ((s.reg a).toInt ≥ (s.reg b).toInt), true)],
      statementItem c { name := p.1.toList, operands := [.reg a, .reg b, .label l] } =
        .ok (.instrs [plain p.2.1, { instr := p.2.2.1 c.scratchReg 0 0, fixup := .branch l }]) ∧
      (∀ (syms : List Symbol) (A : Nat) (L : Word), labelAddr syms l = .ok L →
        branchField (BitVec.ofNat 32 (A + 4)) L = .ok imm →
        instrWords c syms A [plain p.2.1, { instr := p.2.2.1 c.scratchReg 0 0, fixup := .branch l }] =
          [.ok (bytesOfWord (encode p.2.1)), .ok (bytesOfWord (encode (p.2.2.1 c.scratchReg 0 imm)))]) ∧
      ∃ t v, execAll [p.2.1, p.2.2.1 c.scratchReg 0 imm] s = .next t ∧
        WritesReg s t c.scratchReg v (if (if c.scratchReg = 0#5 then p.2.2.2.2 else p.2.2.2.1)
          then branchTarget (s.pc + 4#32) imm else s.pc + 8#32)

/-- R104: the text of an assembled image is whole words, and every one decodes with STRICT_FIELDS. -/
def Obligations.AssembledWordsAreStrict : Prop :=
  ∀ (c : Config) (source : List Char) (a : Assembled), assemble c source = .ok a →
    ∃ ws : List Word, a.program.image.text = ws.flatMap bytesOfWord ∧ ∀ w ∈ ws, ∃ i, decode true w = .ok i
end

