-- ==== Sys2Proof/Laws/State.lean ====
section
/-! SUPPORT. What each update of the state does to each field, and to the readings of registers and bytes. -/

namespace Sys2Proof.Machine

open Sys2Proof

@[simp] theorem State.raise_regs (s : State) (k : FaultKind) : (s.raise k).regs = s.regs := rfl
@[simp] theorem State.raise_pc (s : State) (k : FaultKind) : (s.raise k).pc = s.pc := rfl
@[simp] theorem State.raise_hi (s : State) (k : FaultKind) : (s.raise k).hi = s.hi := rfl
@[simp] theorem State.raise_lo (s : State) (k : FaultKind) : (s.raise k).lo = s.lo := rfl
@[simp] theorem State.raise_mem (s : State) (k : FaultKind) : (s.raise k).mem = s.mem := rfl
@[simp] theorem State.raise_status (s : State) (k : FaultKind) : (s.raise k).status = .faulted := rfl
@[simp] theorem State.raise_lastFault (s : State) (k : FaultKind) : (s.raise k).lastFault = some { kind := k, pc := s.pc } := rfl
@[simp] theorem State.raise_config (s : State) (k : FaultKind) : (s.raise k).config = s.config := rfl
@[simp] theorem State.raise_image (s : State) (k : FaultKind) : (s.raise k).image = s.image := rfl
@[simp] theorem State.raise_answers (s : State) (k : FaultKind) : (s.raise k).answers = s.answers := rfl
@[simp] theorem State.raise_reads (s : State) (k : FaultKind) : (s.raise k).reads = s.reads := rfl
@[simp] theorem State.raise_output (s : State) (k : FaultKind) : (s.raise k).output = s.output := rfl

@[simp] theorem State.commit_regs (s : State) (npc : Word) : (s.commit npc).regs = s.regs := rfl
@[simp] theorem State.commit_pc (s : State) (npc : Word) : (s.commit npc).pc = npc := rfl
@[simp] theorem State.commit_hi (s : State) (npc : Word) : (s.commit npc).hi = s.hi := rfl
@[simp] theorem State.commit_lo (s : State) (npc : Word) : (s.commit npc).lo = s.lo := rfl
@[simp] theorem State.commit_mem (s : State) (npc : Word) : (s.commit npc).mem = s.mem := rfl
@[simp] theorem State.commit_status (s : State) (npc : Word) : (s.commit npc).status = .running := rfl
@[simp] theorem State.commit_lastFault (s : State) (npc : Word) : (s.commit npc).lastFault = s.lastFault := rfl
@[simp] theorem State.commit_config (s : State) (npc : Word) : (s.commit npc).config = s.config := rfl
@[simp] theorem State.commit_image (s : State) (npc : Word) : (s.commit npc).image = s.image := rfl
@[simp] theorem State.commit_answers (s : State) (npc : Word) : (s.commit npc).answers = s.answers := rfl
@[simp] theorem State.commit_reads (s : State) (npc : Word) : (s.commit npc).reads = s.reads := rfl
@[simp] theorem State.commit_output (s : State) (npc : Word) : (s.commit npc).output = s.output := rfl

@[simp] theorem State.halt_regs (s : State)  : (s.halt).regs = s.regs := rfl
@[simp] theorem State.halt_pc (s : State)  : (s.halt).pc = s.pc := rfl
@[simp] theorem State.halt_hi (s : State)  : (s.halt).hi = s.hi := rfl
@[simp] theorem State.halt_lo (s : State)  : (s.halt).lo = s.lo := rfl
@[simp] theorem State.halt_mem (s : State)  : (s.halt).mem = s.mem := rfl
@[simp] theorem State.halt_status (s : State)  : (s.halt).status = .halted := rfl
@[simp] theorem State.halt_lastFault (s : State)  : (s.halt).lastFault = s.lastFault := rfl
@[simp] theorem State.halt_config (s : State)  : (s.halt).config = s.config := rfl
@[simp] theorem State.halt_image (s : State)  : (s.halt).image = s.image := rfl
@[simp] theorem State.halt_answers (s : State)  : (s.halt).answers = s.answers := rfl
@[simp] theorem State.halt_reads (s : State)  : (s.halt).reads = s.reads := rfl
@[simp] theorem State.halt_output (s : State)  : (s.halt).output = s.output := rfl

@[simp] theorem State.out_regs (s : State) (bs : List Byte) : (s.out bs).regs = s.regs := rfl
@[simp] theorem State.out_pc (s : State) (bs : List Byte) : (s.out bs).pc = s.pc := rfl
@[simp] theorem State.out_hi (s : State) (bs : List Byte) : (s.out bs).hi = s.hi := rfl
@[simp] theorem State.out_lo (s : State) (bs : List Byte) : (s.out bs).lo = s.lo := rfl
@[simp] theorem State.out_mem (s : State) (bs : List Byte) : (s.out bs).mem = s.mem := rfl
@[simp] theorem State.out_status (s : State) (bs : List Byte) : (s.out bs).status = s.status := rfl
@[simp] theorem State.out_lastFault (s : State) (bs : List Byte) : (s.out bs).lastFault = s.lastFault := rfl
@[simp] theorem State.out_config (s : State) (bs : List Byte) : (s.out bs).config = s.config := rfl
@[simp] theorem State.out_image (s : State) (bs : List Byte) : (s.out bs).image = s.image := rfl
@[simp] theorem State.out_answers (s : State) (bs : List Byte) : (s.out bs).answers = s.answers := rfl
@[simp] theorem State.out_reads (s : State) (bs : List Byte) : (s.out bs).reads = s.reads := rfl
@[simp] theorem State.out_output (s : State) (bs : List Byte) : (s.out bs).output = s.output ++ [bs] := rfl

@[simp] theorem State.storeBytes_regs (s : State) (a : Word) (bs : List Byte) : (s.storeBytes a bs).regs = s.regs := rfl
@[simp] theorem State.storeBytes_pc (s : State) (a : Word) (bs : List Byte) : (s.storeBytes a bs).pc = s.pc := rfl
@[simp] theorem State.storeBytes_hi (s : State) (a : Word) (bs : List Byte) : (s.storeBytes a bs).hi = s.hi := rfl
@[simp] theorem State.storeBytes_lo (s : State) (a : Word) (bs : List Byte) : (s.storeBytes a bs).lo = s.lo := rfl
@[simp] theorem State.storeBytes_mem (s : State) (a : Word) (bs : List Byte) : (s.storeBytes a bs).mem = s.mem.writeBytes a bs := rfl
@[simp] theorem State.storeBytes_status (s : State) (a : Word) (bs : List Byte) : (s.storeBytes a bs).status = s.status := rfl
@[simp] theorem State.storeBytes_lastFault (s : State) (a : Word) (bs : List Byte) : (s.storeBytes a bs).lastFault = s.lastFault := rfl
@[simp] theorem State.storeBytes_config (s : State) (a : Word) (bs : List Byte) : (s.storeBytes a bs).config = s.config := rfl
@[simp] theorem State.storeBytes_image (s : State) (a : Word) (bs : List Byte) : (s.storeBytes a bs).image = s.image := rfl
@[simp] theorem State.storeBytes_answers (s : State) (a : Word) (bs : List Byte) : (s.storeBytes a bs).answers = s.answers := rfl
@[simp] theorem State.storeBytes_reads (s : State) (a : Word) (bs : List Byte) : (s.storeBytes a bs).reads = s.reads := rfl
@[simp] theorem State.storeBytes_output (s : State) (a : Word) (bs : List Byte) : (s.storeBytes a bs).output = s.output := rfl

@[simp] theorem State.setHiLo_regs (s : State) (hi lo : Word) : (s.setHiLo hi lo).regs = s.regs := rfl
@[simp] theorem State.setHiLo_pc (s : State) (hi lo : Word) : (s.setHiLo hi lo).pc = s.pc := rfl
@[simp] theorem State.setHiLo_hi (s : State) (hi lo : Word) : (s.setHiLo hi lo).hi = hi := rfl
@[simp] theorem State.setHiLo_lo (s : State) (hi lo : Word) : (s.setHiLo hi lo).lo = lo := rfl
@[simp] theorem State.setHiLo_mem (s : State) (hi lo : Word) : (s.setHiLo hi lo).mem = s.mem := rfl
@[simp] theorem State.setHiLo_status (s : State) (hi lo : Word) : (s.setHiLo hi lo).status = s.status := rfl
@[simp] theorem State.setHiLo_lastFault (s : State) (hi lo : Word) : (s.setHiLo hi lo).lastFault = s.lastFault := rfl
@[simp] theorem State.setHiLo_config (s : State) (hi lo : Word) : (s.setHiLo hi lo).config = s.config := rfl
@[simp] theorem State.setHiLo_image (s : State) (hi lo : Word) : (s.setHiLo hi lo).image = s.image := rfl
@[simp] theorem State.setHiLo_answers (s : State) (hi lo : Word) : (s.setHiLo hi lo).answers = s.answers := rfl
@[simp] theorem State.setHiLo_reads (s : State) (hi lo : Word) : (s.setHiLo hi lo).reads = s.reads := rfl
@[simp] theorem State.setHiLo_output (s : State) (hi lo : Word) : (s.setHiLo hi lo).output = s.output := rfl

@[simp] theorem State.setProduct_regs (s : State) (p : BitVec 64) : (s.setProduct p).regs = s.regs := rfl
@[simp] theorem State.setProduct_pc (s : State) (p : BitVec 64) : (s.setProduct p).pc = s.pc := rfl
@[simp] theorem State.setProduct_hi (s : State) (p : BitVec 64) : (s.setProduct p).hi = p.extractLsb' 32 32 := rfl
@[simp] theorem State.setProduct_lo (s : State) (p : BitVec 64) : (s.setProduct p).lo = p.extractLsb' 0 32 := rfl
@[simp] theorem State.setProduct_mem (s : State) (p : BitVec 64) : (s.setProduct p).mem = s.mem := rfl
@[simp] theorem State.setProduct_status (s : State) (p : BitVec 64) : (s.setProduct p).status = s.status := rfl
@[simp] theorem State.setProduct_lastFault (s : State) (p : BitVec 64) : (s.setProduct p).lastFault = s.lastFault := rfl
@[simp] theorem State.setProduct_config (s : State) (p : BitVec 64) : (s.setProduct p).config = s.config := rfl
@[simp] theorem State.setProduct_image (s : State) (p : BitVec 64) : (s.setProduct p).image = s.image := rfl
@[simp] theorem State.setProduct_answers (s : State) (p : BitVec 64) : (s.setProduct p).answers = s.answers := rfl
@[simp] theorem State.setProduct_reads (s : State) (p : BitVec 64) : (s.setProduct p).reads = s.reads := rfl
@[simp] theorem State.setProduct_output (s : State) (p : BitVec 64) : (s.setProduct p).output = s.output := rfl

@[simp] theorem State.setReg_pc (s : State) (r : RegIdx) (v : Word) : (s.setReg r v).pc = s.pc := by unfold State.setReg; split <;> rfl
@[simp] theorem State.setReg_hi (s : State) (r : RegIdx) (v : Word) : (s.setReg r v).hi = s.hi := by unfold State.setReg; split <;> rfl
@[simp] theorem State.setReg_lo (s : State) (r : RegIdx) (v : Word) : (s.setReg r v).lo = s.lo := by unfold State.setReg; split <;> rfl
@[simp] theorem State.setReg_mem (s : State) (r : RegIdx) (v : Word) : (s.setReg r v).mem = s.mem := by unfold State.setReg; split <;> rfl
@[simp] theorem State.setReg_status (s : State) (r : RegIdx) (v : Word) : (s.setReg r v).status = s.status := by unfold State.setReg; split <;> rfl
@[simp] theorem State.setReg_lastFault (s : State) (r : RegIdx) (v : Word) : (s.setReg r v).lastFault = s.lastFault := by unfold State.setReg; split <;> rfl
@[simp] theorem State.setReg_config (s : State) (r : RegIdx) (v : Word) : (s.setReg r v).config = s.config := by unfold State.setReg; split <;> rfl
@[simp] theorem State.setReg_image (s : State) (r : RegIdx) (v : Word) : (s.setReg r v).image = s.image := by unfold State.setReg; split <;> rfl
@[simp] theorem State.setReg_answers (s : State) (r : RegIdx) (v : Word) : (s.setReg r v).answers = s.answers := by unfold State.setReg; split <;> rfl
@[simp] theorem State.setReg_reads (s : State) (r : RegIdx) (v : Word) : (s.setReg r v).reads = s.reads := by unfold State.setReg; split <;> rfl
@[simp] theorem State.setReg_output (s : State) (r : RegIdx) (v : Word) : (s.setReg r v).output = s.output := by unfold State.setReg; split <;> rfl

/-! ### Readings -/

/-- Register 0 reads zero in every state (spec/10_state.md R21). -/
@[simp] theorem State.reg_zero (s : State) : s.reg 0#5 = 0x00000000#32 := rfl

theorem State.reg_of_ne_zero (s : State) {r : RegIdx} (h : r ≠ 0#5) : s.reg r = s.regs[r.toNat]'r.isLt := if_neg h

/-- A register reads by the register file alone. -/
theorem State.reg_congr {s t : State} (h : t.regs = s.regs) (q : RegIdx) : t.reg q = s.reg q := by
  unfold State.reg; rw [h]

/-- A byte reads by memory alone. -/
theorem State.byteAt_congr {s t : State} (h : t.mem = s.mem) (a : Word) : t.byteAt a = s.byteAt a := by
  unfold State.byteAt; rw [h]

/-- Whether an address is backed depends on the parameters and the image alone. -/
theorem State.backed_congr {s t : State} (h : SameSetup s t) (a : Word) : t.backed a = s.backed a := by
  unfold State.backed State.inText State.inData State.inStack; rw [h.1, h.2]

theorem State.firstUnbacked_congr {s t : State} (h : SameSetup s t) (a : Word) (n : Nat) :
    t.firstUnbacked a n = s.firstUnbacked a n := by
  induction n generalizing a with
  | zero => rfl
  | succ n ih => simp only [State.firstUnbacked, State.backed_congr h, ih]

/-- Reading a register after a write (spec/10_state.md R21). -/
theorem State.reg_setReg (s : State) (r q : RegIdx) (v : Word) :
    (s.setReg r v).reg q = if q = r ∧ q ≠ 0#5 then v else s.reg q := by
  by_cases hq : q = 0#5
  · subst hq; simp
  · by_cases hr : r = 0#5
    · subst hr; simp [State.setReg, hq]
    · have hn : q.toNat = r.toNat ↔ q = r := ⟨fun h => BitVec.eq_of_toNat_eq h, fun h => by rw [h]⟩
      simp only [State.reg, State.setReg, hq, hr, if_false, Vector.getElem_set, ne_eq, not_false_eq_true, and_true]
      by_cases hqr : q = r
      · subst hqr; simp
      · rw [if_neg (fun h => hqr (hn.mp h.symm)), if_neg hqr]

@[simp] theorem State.raise_reg (s : State) (k : FaultKind) (q : RegIdx) : (s.raise k).reg q = s.reg q := rfl
@[simp] theorem State.raise_byteAt (s : State) (k : FaultKind) (a : Word) : (s.raise k).byteAt a = s.byteAt a := rfl
@[simp] theorem State.commit_reg (s : State) (npc : Word) (q : RegIdx) : (s.commit npc).reg q = s.reg q := rfl
@[simp] theorem State.commit_byteAt (s : State) (npc : Word) (a : Word) : (s.commit npc).byteAt a = s.byteAt a := rfl
@[simp] theorem State.halt_reg (s : State)  (q : RegIdx) : (s.halt).reg q = s.reg q := rfl
@[simp] theorem State.halt_byteAt (s : State)  (a : Word) : (s.halt).byteAt a = s.byteAt a := rfl
@[simp] theorem State.out_reg (s : State) (bs : List Byte) (q : RegIdx) : (s.out bs).reg q = s.reg q := rfl
@[simp] theorem State.out_byteAt (s : State) (bs : List Byte) (a : Word) : (s.out bs).byteAt a = s.byteAt a := rfl
@[simp] theorem State.storeBytes_reg (s : State) (a : Word) (bs : List Byte) (q : RegIdx) : (s.storeBytes a bs).reg q = s.reg q := rfl
@[simp] theorem State.setHiLo_reg (s : State) (hi lo : Word) (q : RegIdx) : (s.setHiLo hi lo).reg q = s.reg q := rfl
@[simp] theorem State.setHiLo_byteAt (s : State) (hi lo : Word) (a : Word) : (s.setHiLo hi lo).byteAt a = s.byteAt a := rfl
@[simp] theorem State.setProduct_reg (s : State) (p : BitVec 64) (q : RegIdx) : (s.setProduct p).reg q = s.reg q := rfl
@[simp] theorem State.setProduct_byteAt (s : State) (p : BitVec 64) (a : Word) : (s.setProduct p).byteAt a = s.byteAt a := rfl
@[simp] theorem State.setReg_byteAt (s : State) (r : RegIdx) (v : Word) (a : Word) : (s.setReg r v).byteAt a = s.byteAt a := State.byteAt_congr (by simp) a

/-! ### The host's answer -/

/-- What taking an answer does: one answer of the host's is taken, and nothing else of the state changes. -/
theorem State.readLine_spec {s t : State} {a : HostAnswer} (h : s.readLine = (a, t)) :
    NextAnswer s a ∧ AnswerTaken s t ∧
      t = { s with answers := t.answers, reads := t.reads } := by
  unfold State.readLine at h
  cases hs : s.answers with
  | nil =>
    rw [hs] at h
    cases h
    exact ⟨Or.inr ⟨hs, rfl⟩, ⟨by simp [hs], by simp [hs], rfl⟩, rfl⟩
  | cons b rest =>
    rw [hs] at h
    cases h
    exact ⟨Or.inl (by simp [hs]), ⟨by simp [hs], by simp [hs], rfl⟩, rfl⟩

/-- There is one next answer. -/
theorem State.readLine_of_next {s : State} {a : HostAnswer} (h : NextAnswer s a) : ∃ t, s.readLine = (a, t) := by
  unfold State.readLine
  rcases h with h | ⟨h, rfl⟩
  · cases hs : s.answers with
    | nil => rw [hs] at h; cases h
    | cons b rest => rw [hs] at h; cases h; exact ⟨_, rfl⟩
  · rw [h]; exact ⟨_, rfl⟩

end Sys2Proof.Machine
end

