-- ==== Sys2Proof/Laws/Memory.lean ====
section
/-! SUPPORT. The laws of memory: reading after writing, and that every operation keeps the canonical form. -/

namespace Sys2Proof.Machine

open Sys2Proof

/-! ### Reading after writing -/

theorem Memory.read_erase (m : Memory) (a x : Nat) :
    (m.erase a).read x = if x = a then Memory.unlisted else m.read x := by
  induction m with
  | nil => simp [Memory.erase, Memory.read]
  | cons c m ih =>
    unfold Memory.erase at ih ⊢
    by_cases hc : c.1 = a <;> by_cases hx : x = a <;> by_cases hcx : c.1 = x <;>
      simp_all [Memory.read]

theorem Memory.mem_erase {m : Memory} {a : Nat} {c : Host.Cell} : c ∈ m.erase a ↔ c ∈ m ∧ c.1 ≠ a := by
  simp [Memory.erase]

theorem Memory.mem_insert {m : Memory} {a : Nat} {b : Byte} {c : Host.Cell} :
    c ∈ Memory.insert a b m ↔ c = (a, b) ∨ c ∈ m := by
  induction m with
  | nil => simp [Memory.insert]
  | cons d m ih =>
    unfold Memory.insert
    split
    · simp
    · simp only [List.mem_cons, ih]; tauto

theorem Memory.read_insert {m : Memory} {a : Nat} (b : Byte) (x : Nat) (h : ∀ c ∈ m, c.1 ≠ a) :
    (Memory.insert a b m).read x = if x = a then b else m.read x := by
  induction m with
  | nil =>
    by_cases hx : x = a
    · simp [Memory.insert, Memory.read, hx]
    · simp [Memory.insert, Memory.read, hx, Ne.symm hx]
  | cons c m ih =>
    have hc : c.1 ≠ a := h c (by simp)
    have ih := ih (fun d hd => h d (by simp [hd]))
    unfold Memory.insert
    split
    · by_cases hx : x = a
      · simp [Memory.read, hx]
      · simp [Memory.read, hx, Ne.symm hx]
    · by_cases hcx : c.1 = x
      · have : x ≠ a := hcx ▸ hc
        simp [Memory.read, hcx, this]
      · simp [Memory.read, hcx, ih]

/-- A byte reads as it was written; every other address reads as before. -/
theorem Memory.read_write (m : Memory) (a x : Nat) (b : Byte) :
    (m.write a b).read x = if x = a then b else m.read x := by
  unfold Memory.write
  split
  next hb => rw [Memory.read_erase, hb]
  next =>
    rw [Memory.read_insert b x (fun c hc => (Memory.mem_erase.mp hc).2), Memory.read_erase]
    by_cases hx : x = a <;> simp [hx]

/-! ### The canonical form -/

theorem Memory.wf_nil : Memory.wf [] := ⟨List.Pairwise.nil, fun _ h => absurd h (by simp)⟩

theorem Memory.wf_erase {m : Memory} (h : m.wf) (a : Nat) : (m.erase a).wf :=
  ⟨h.1.filter _, fun c hc => h.2 c (Memory.mem_erase.mp hc).1⟩

theorem Memory.wf_insert {m : Memory} (h : m.wf) {a : Nat} {b : Byte} (hb : b ≠ Memory.unlisted)
    (ha : ∀ c ∈ m, c.1 ≠ a) : (Memory.insert a b m).wf := by
  refine ⟨?_, fun c hc => ?_⟩
  · obtain ⟨hp, -⟩ := h
    induction m with
    | nil => simp [Memory.insert]
    | cons d m ih =>
      obtain ⟨hd, hm⟩ := List.pairwise_cons.mp hp
      unfold Memory.insert
      split
      next hlt =>
        refine List.pairwise_cons.mpr ⟨fun c hc => ?_, hp⟩
        rcases List.mem_cons.mp hc with rfl | hc
        · exact hlt
        · exact lt_trans hlt (hd c hc)
      next hlt =>
        refine List.pairwise_cons.mpr ⟨fun c hc => ?_, ih (fun c hc => ha c (by simp [hc])) hm⟩
        rcases Memory.mem_insert.mp hc with rfl | hc
        · have := ha d (by simp)
          show d.1 < a
          omega
        · exact hd c hc
  · rcases Memory.mem_insert.mp hc with rfl | hc
    · exact hb
    · exact h.2 c hc

/-- A write keeps the canonical form. -/
theorem Memory.wf_write {m : Memory} (h : m.wf) (a : Nat) (b : Byte) : (m.write a b).wf := by
  unfold Memory.write
  split
  · exact Memory.wf_erase h a
  next hb => exact Memory.wf_insert (Memory.wf_erase h a) hb (fun c hc => (Memory.mem_erase.mp hc).2)

/-- Storing bytes keeps the canonical form. -/
theorem Memory.wf_writeBytes {m : Memory} (h : m.wf) (a : Word) (bs : List Byte) : (m.writeBytes a bs).wf := by
  induction bs generalizing a with
  | nil => exact h
  | cons b bs ih => exact Memory.wf_write (ih (a + 1#32)) a.toNat b

/-- The cells after a write: those of before, and the one written. -/
theorem Memory.mem_write {m : Memory} {a : Nat} {b : Byte} {c : Host.Cell} (h : c ∈ m.write a b) : c ∈ m ∨ c.1 = a := by
  unfold Memory.write at h
  split at h
  · exact Or.inl (Memory.mem_erase.mp h).1
  · rcases Memory.mem_insert.mp h with rfl | h
    · exact Or.inr rfl
    · exact Or.inl (Memory.mem_erase.mp h).1

/-- The cells after storing bytes: those of before, and those stored to. -/
theorem Memory.mem_writeBytes {m : Memory} {a : Word} {bs : List Byte} {c : Host.Cell} (h : c ∈ m.writeBytes a bs) :
    c ∈ m ∨ ∃ k < bs.length, c.1 = (a + BitVec.ofNat 32 k).toNat := by
  induction bs generalizing a with
  | nil => exact Or.inl h
  | cons b bs ih =>
    rcases Memory.mem_write h with h | h
    · rcases ih h with h | ⟨k, hk, h⟩
      · exact Or.inl h
      · refine Or.inr ⟨k + 1, by simpa using hk, ?_⟩
        rw [h]; congr 1
        rw [BitVec.add_assoc, BitVec.add_comm 1#32, ← BitVec.ofNat_add]
    · exact Or.inr ⟨0, by simp, by simpa using h⟩

/-- Storing bytes: at each of the addresses the byte stored, at every other the byte of before. No more bytes than
addresses. -/
theorem Memory.read_writeBytes (m : Memory) (a : Word) (bs : List Byte) (h : bs.length ≤ 4294967296) (x : Word) :
    (∀ (k : Nat) (hk : k < bs.length), x = a + BitVec.ofNat 32 k → (m.writeBytes a bs).read x.toNat = bs[k]) ∧
      ((∀ k < bs.length, x ≠ a + BitVec.ofNat 32 k) → (m.writeBytes a bs).read x.toNat = m.read x.toNat) := by
  induction bs generalizing a with
  | nil => exact ⟨fun k hk => absurd hk (by simp), fun _ => rfl⟩
  | cons b bs ih =>
    have hl : bs.length + 1 ≤ 4294967296 := by simpa using h
    obtain ⟨ih1, ih2⟩ := ih (a + 1#32) (by omega)
    have hstep : ∀ k, a + BitVec.ofNat 32 (k + 1) = a + 1#32 + BitVec.ofNat 32 k := fun k => by
      rw [BitVec.add_assoc, BitVec.add_comm 1#32, ← BitVec.ofNat_add]
    refine ⟨fun k hk hx => ?_, fun hx => ?_⟩
    · rw [Memory.writeBytes, Memory.read_write]
      cases k with
      | zero => simp [hx]
      | succ k =>
        have hk' : k < bs.length := by simpa using hk
        have hne : x.toNat ≠ a.toNat := by
          intro he
          have he : a + BitVec.ofNat 32 (k + 1) = a := by rw [← hx]; exact BitVec.eq_of_toNat_eq he
          have := congrArg BitVec.toNat he
          simp only [BitVec.toNat_add, BitVec.toNat_ofNat] at this
          have := a.isLt
          omega
        rw [if_neg hne]
        simpa using ih1 k hk' (by rw [hx, hstep])
    · rw [Memory.writeBytes, Memory.read_write]
      have h0 : x ≠ a := by simpa using hx 0 (by simp)
      rw [if_neg (fun he => h0 (BitVec.eq_of_toNat_eq he))]
      exact ih2 (fun k hk => by rw [← hstep]; exact hx (k + 1) (by simpa using hk))

/-- Storing bytes, as the claims say it. -/
theorem State.storeBytes_stored (s : State) (a : Word) (bs : List Byte) (h : bs.length ≤ 4294967296) :
    BytesStored s (s.storeBytes a bs) a bs :=
  ⟨fun k hk => (Memory.read_writeBytes s.mem a bs h _).1 k hk rfl,
    fun x hx => (Memory.read_writeBytes s.mem a bs h x).2 hx⟩

end Sys2Proof.Machine
end

