-- ==== Sys2Proof/Laws/Access.lean ====
section
/-! SUPPORT. What the checked accesses of spec/20_memory.md R62 to R66 answer. -/

namespace Sys2Proof.Machine

open Sys2Proof

theorem add_ofNat_succ (a : Word) (k : Nat) : a + BitVec.ofNat 32 (k + 1) = a + 1#32 + BitVec.ofNat 32 k := by
  rw [BitVec.add_assoc, BitVec.add_comm 1#32, ← BitVec.ofNat_add]

/-- No address is unbacked exactly when all are backed. -/
theorem State.firstUnbacked_eq_none {s : State} {a : Word} {n : Nat} :
    s.firstUnbacked a n = none ↔ ∀ k < n, s.backed (a + BitVec.ofNat 32 k) = true := by
  induction n generalizing a with
  | zero => simp [State.firstUnbacked]
  | succ n ih =>
    unfold State.firstUnbacked
    split
    next hb =>
      rw [ih]
      refine ⟨fun h k hk => ?_, fun h k hk => ?_⟩
      · cases k with
        | zero => simpa using hb
        | succ k => rw [add_ofNat_succ]; exact h k (by omega)
      · rw [← add_ofNat_succ]; exact h (k + 1) (by omega)
    next hb =>
      constructor
      · intro h; cases h
      · intro h; exact absurd (by simpa using h 0 (by omega)) hb

/-- The first unbacked address is the lowest of the access, in the order of the access (R65). -/
theorem State.firstUnbacked_of_first {s : State} {a : Word} {n k : Nat} (hk : k < n)
    (hu : s.backed (a + BitVec.ofNat 32 k) = false) (hb : ∀ j < k, s.backed (a + BitVec.ofNat 32 j) = true) :
    s.firstUnbacked a n = some (a + BitVec.ofNat 32 k) := by
  induction n generalizing a k with
  | zero => omega
  | succ n ih =>
    unfold State.firstUnbacked
    cases k with
    | zero => simp at hu; simp [hu]
    | succ k =>
      have h0 : s.backed a = true := by simpa using hb 0 (by omega)
      rw [add_ofNat_succ] at hu
      rw [if_pos h0, ih (by omega) hu (fun j hj => by rw [← add_ofNat_succ]; exact hb (j + 1) (by omega)), add_ofNat_succ a k]

/-- An unbacked address found is one of the access, and those before it are backed. -/
theorem State.firstUnbacked_eq_some {s : State} {a x : Word} {n : Nat} (h : s.firstUnbacked a n = some x) :
    ∃ k < n, x = a + BitVec.ofNat 32 k ∧ s.backed x = false ∧ ∀ j < k, s.backed (a + BitVec.ofNat 32 j) = true := by
  by_contra hne
  have hall : ∀ k, k < n → s.backed (a + BitVec.ofNat 32 k) = true := by
    intro k
    induction k using Nat.strong_induction_on with
    | _ k ih =>
      intro hk
      by_contra hb
      have hb' : s.backed (a + BitVec.ofNat 32 k) = false := by simpa using hb
      have hj : ∀ j < k, s.backed (a + BitVec.ofNat 32 j) = true := fun j hj => ih j hj (by omega)
      have := State.firstUnbacked_of_first hk hb' hj
      rw [h] at this
      cases this
      exact hne ⟨k, hk, rfl, hb', hj⟩
  rw [State.firstUnbacked_eq_none.mpr hall] at h
  cases h

theorem aligned_one (a : Word) : aligned a 1 = true := by simp [aligned]
theorem aligned_two (a : Word) : aligned a 2 = true ↔ a.toNat % 2 = 0 := by simp [aligned]
theorem aligned_four (a : Word) : aligned a 4 = true ↔ a.toNat % 4 = 0 := by simp [aligned]

/-- A misaligned access raises the address error, backed or not (R64, R66). -/
theorem State.checkAccess_misaligned {s : State} {k : Access} {a : Word} {n : Nat} (h : aligned a n = false) :
    s.checkAccess k a n = some (addressError k a) := by simp [State.checkAccess, h]

/-- An aligned, backed access passes. -/
theorem State.checkAccess_ok {s : State} {k : Access} {a : Word} {n : Nat} (h : aligned a n = true)
    (hb : ∀ j < n, s.backed (a + BitVec.ofNat 32 j) = true) : s.checkAccess k a n = none := by
  simp [State.checkAccess, h, State.firstUnbacked_eq_none.mpr hb]

/-- An aligned access with an unbacked byte raises the access fault of the lowest such address (R65). -/
theorem State.checkAccess_unbacked {s : State} {k : Access} {a : Word} {n j : Nat} (h : aligned a n = true) (hj : j < n)
    (hu : s.backed (a + BitVec.ofNat 32 j) = false) (hb : ∀ i < j, s.backed (a + BitVec.ofNat 32 i) = true) :
    s.checkAccess k a n = some (accessFault k (a + BitVec.ofNat 32 j)) := by
  simp [State.checkAccess, h, State.firstUnbacked_of_first hj hu hb]

/-- What a failed check says: the address error of a misaligned access, or an access fault. -/
theorem State.checkAccess_eq_some {s : State} {k : Access} {a : Word} {n : Nat} {f : FaultKind}
    (h : s.checkAccess k a n = some f) :
    (aligned a n = false ∧ f = addressError k a) ∨ (aligned a n = true ∧ ∃ x, s.backed x = false ∧ f = accessFault k x) := by
  unfold State.checkAccess at h
  split at h
  next ha =>
    obtain ⟨x, hx, rfl⟩ := Option.map_eq_some_iff.mp h
    obtain ⟨_, _, _, hu, _⟩ := State.firstUnbacked_eq_some hx
    exact Or.inr ⟨ha, x, hu, rfl⟩
  next ha => cases h; exact Or.inl ⟨by simpa using ha, rfl⟩

end Sys2Proof.Machine
end

