-- ==== Sys2Proof/Laws/Outcome.lean ====
section
/-! SUPPORT. What each shared ending of an instruction answers: one lemma for each, in the terms of Safety.lean. -/

namespace Sys2Proof.Machine

open Sys2Proof

theorem SameSetup.refl (s : State) : SameSetup s s := ⟨rfl, rfl⟩
theorem SameStreams.refl (s : State) : SameStreams s s := ⟨rfl, rfl, rfl⟩
theorem SameHiLo.refl (s : State) : SameHiLo s s := ⟨rfl, rfl⟩
theorem SameRegs.refl (s : State) : SameRegs s s := fun _ => rfl
theorem SameMem.refl (s : State) : SameMem s s := fun _ => rfl

/-- Taking a fault (spec/60_exceptions.md R302). -/
theorem raise_takesFault (s : State) (k : FaultKind) : TakesFault s (s.raise k) k :=
  ⟨⟨rfl, rfl, rfl, fun _ => rfl, ⟨rfl, rfl⟩, fun _ => rfl, ⟨rfl, rfl⟩⟩, rfl, rfl, rfl⟩

theorem fault_takesFault (k : FaultKind) (s : State) : ∃ t, fault k s = .next t ∧ TakesFault s t k :=
  ⟨_, rfl, raise_takesFault s k⟩

/-- A fault after an answer was taken: nothing else of the step is committed. -/
theorem fault_after {s u : State} (k : FaultKind) (hp : u.pc = s.pc) (hr : SameRegs s u) (hh : SameHiLo s u)
    (hm : SameMem s u) (hc : SameSetup s u) : ∃ t, fault k u = .next t ∧ Faults s t k ∧ SameStreams u t :=
  ⟨_, rfl, ⟨rfl, by simp [hp], by simp [hp], fun q => by simp [hr q], hh, fun a => by simp [hm a], hc⟩, rfl, rfl, rfl⟩

/-- Writing a result and going on. -/
theorem writeResult_writesReg (r : RegIdx) (v : Word) (s : State) :
    ∃ t, writeResult r v s = .next t ∧ WritesReg s t r v (s.pc + 4#32) :=
  ⟨_, rfl, ⟨by simp, rfl, by simp, by simp, by simp⟩, fun q => by simp [State.reg_setReg],
    ⟨by simp, by simp⟩, fun a => by simp, by simp, by simp, by simp⟩

/-- Writing a link and going to a target. -/
theorem link_writesReg (r : RegIdx) (v npc : Word) (s : State) : WritesReg s ((s.setReg r v).commit npc) r v npc :=
  ⟨⟨rfl, rfl, by simp, by simp, by simp⟩, fun q => by simp [State.reg_setReg],
    ⟨by simp, by simp⟩, fun a => by simp, by simp, by simp, by simp⟩

/-- Going to a target, with nothing written. -/
theorem commit_goesTo (npc : Word) (s : State) : GoesTo s (s.commit npc) npc :=
  ⟨⟨rfl, rfl, rfl, rfl, rfl⟩, fun _ => rfl, ⟨rfl, rfl⟩, fun _ => rfl, rfl, rfl, rfl⟩

/-- Writing HI and LO and going on. -/
theorem setHiLo_writesHiLo (hi lo : Word) (s : State) :
    ∃ t, nextInstr (s.setHiLo hi lo) = .next t ∧ WritesHiLo s t hi lo :=
  ⟨_, rfl, ⟨rfl, rfl, rfl, rfl, rfl⟩, fun _ => rfl, rfl, rfl, fun _ => rfl, rfl, rfl, rfl⟩

/-- The result of `add`, `addi`, `sub`: the fault on an enabled overflow, else the wrapped result (spec/40_alu.md R140). -/
theorem trappingResult_spec (r : RegIdx) (exact : Int) (s : State) :
    (s.config.overflowTraps = true ∧ (exact < -2147483648 ∨ 2147483647 < exact) →
      ∃ t, trappingResult r exact s = .next t ∧ TakesFault s t .integerOverflow) ∧
    (¬(s.config.overflowTraps = true ∧ (exact < -2147483648 ∨ 2147483647 < exact)) →
      ∃ t, trappingResult r exact s = .next t ∧ WritesReg s t r (BitVec.ofInt 32 exact) (s.pc + 4#32)) := by
  unfold trappingResult overflows
  simp only [decide_eq_true_eq]
  refine ⟨fun h => ?_, fun h => ?_⟩
  · rw [if_pos h]; exact fault_takesFault _ s
  · rw [if_neg h]; exact writeResult_writesReg r _ s

/-- A load that passes its checks. -/
theorem loadTo_ok (rt : RegIdx) (v : Word) (s : State) :
    ∃ t, loadTo rt (.ok v) s = .next t ∧ WritesReg s t rt v (s.pc + 4#32) := writeResult_writesReg rt v s

/-- A load that fails its checks. -/
theorem loadTo_error (rt : RegIdx) (f : FaultKind) (s : State) :
    ∃ t, loadTo rt (.error f) s = .next t ∧ TakesFault s t f := fault_takesFault f s

/-- Stored bytes and going on. -/
theorem storeBytes_stores (a : Word) (bs : List Byte) (s : State) (h : bs.length ≤ 4294967296) :
    ∃ t, nextInstr (s.storeBytes a bs) = .next t ∧ Stores s t a bs :=
  ⟨_, rfl, ⟨rfl, rfl, rfl, rfl, rfl⟩, fun _ => rfl, ⟨rfl, rfl⟩, State.storeBytes_stored s a bs h, rfl, rfl, rfl⟩

/-- A store that passes its checks. -/
theorem storeTo_ok (a : Word) (bs : List Byte) (s : State) (h : bs.length ≤ 4294967296)
    (hc : s.checkAccess .store a bs.length = none) : ∃ t, storeTo a bs s = .next t ∧ Stores s t a bs := by
  unfold storeTo State.memWrite; rw [hc]; exact storeBytes_stores a bs s h

/-- A store that fails its checks writes nothing. -/
theorem storeTo_error (a : Word) (bs : List Byte) (s : State) {f : FaultKind}
    (hc : s.checkAccess .store a bs.length = some f) : ∃ t, storeTo a bs s = .next t ∧ TakesFault s t f := by
  unfold storeTo State.memWrite; rw [hc]; exact fault_takesFault f s

end Sys2Proof.Machine
end

