-- ==== Sys2Proof/Laws/Decode.lean ====
section
/-! SUPPORT. The fields of the words that the encoder builds, and the masks of spec/30_encoding.md R102. -/

namespace Sys2Proof

/-- Concatenation as arithmetic. -/
theorem append_toNat {m n : Nat} (x : BitVec m) (y : BitVec n) : (x ++ y).toNat = x.toNat * 2 ^ n + y.toNat := by
  rw [BitVec.toNat_append, ← Nat.shiftLeft_add_eq_or_of_lt y.isLt, Nat.shiftLeft_eq]

/-- A field by arithmetic. -/
theorem field_eq {k n : Nat} (w : Word) (v : BitVec n) (h : w.toNat / 2 ^ k % 2 ^ n = v.toNat) :
    w.extractLsb' k n = v := by
  apply BitVec.eq_of_toNat_eq
  rw [BitVec.extractLsb'_toNat, Nat.shiftRight_eq_div_pow, h]

theorem wordR_toNat (rs rt rd sh : BitVec 5) (f : BitVec 6) : (wordR rs rt rd sh f).toNat =
    rs.toNat * 2097152 + rt.toNat * 65536 + rd.toNat * 2048 + sh.toNat * 64 + f.toNat := by
  unfold wordR
  simp only [append_toNat]
  show ((((0 * 2 ^ 5 + rs.toNat) * 2 ^ 5 + rt.toNat) * 2 ^ 5 + rd.toNat) * 2 ^ 5 + sh.toNat) * 2 ^ 6 + f.toNat = _
  omega

theorem wordI_toNat (op : BitVec 6) (rs rt : BitVec 5) (imm : Half) : (wordI op rs rt imm).toNat =
    op.toNat * 67108864 + rs.toNat * 2097152 + rt.toNat * 65536 + imm.toNat := by
  unfold wordI
  simp only [append_toNat]
  omega

theorem wordJ_toNat (op : BitVec 6) (t : BitVec 26) : (wordJ op t).toNat = op.toNat * 67108864 + t.toNat := by
  unfold wordJ
  simp only [append_toNat]
  omega

@[simp] theorem fieldOp_wordR (rs rt rd sh : BitVec 5) (f : BitVec 6) : fieldOp (wordR rs rt rd sh f) = 0x00#6 :=
  field_eq _ _ (by rw [wordR_toNat]; show _ = 0; omega)
@[simp] theorem fieldRs_wordR (rs rt rd sh : BitVec 5) (f : BitVec 6) : fieldRs (wordR rs rt rd sh f) = rs :=
  field_eq _ _ (by rw [wordR_toNat]; omega)
@[simp] theorem fieldRt_wordR (rs rt rd sh : BitVec 5) (f : BitVec 6) : fieldRt (wordR rs rt rd sh f) = rt :=
  field_eq _ _ (by rw [wordR_toNat]; omega)
@[simp] theorem fieldRd_wordR (rs rt rd sh : BitVec 5) (f : BitVec 6) : fieldRd (wordR rs rt rd sh f) = rd :=
  field_eq _ _ (by rw [wordR_toNat]; omega)
@[simp] theorem fieldShamt_wordR (rs rt rd sh : BitVec 5) (f : BitVec 6) : fieldShamt (wordR rs rt rd sh f) = sh :=
  field_eq _ _ (by rw [wordR_toNat]; omega)
@[simp] theorem fieldFunct_wordR (rs rt rd sh : BitVec 5) (f : BitVec 6) : fieldFunct (wordR rs rt rd sh f) = f :=
  field_eq _ _ (by rw [wordR_toNat]; omega)
@[simp] theorem fieldOp_wordI (op : BitVec 6) (rs rt : BitVec 5) (imm : Half) : fieldOp (wordI op rs rt imm) = op :=
  field_eq _ _ (by rw [wordI_toNat]; omega)
@[simp] theorem fieldRs_wordI (op : BitVec 6) (rs rt : BitVec 5) (imm : Half) : fieldRs (wordI op rs rt imm) = rs :=
  field_eq _ _ (by rw [wordI_toNat]; omega)
@[simp] theorem fieldRt_wordI (op : BitVec 6) (rs rt : BitVec 5) (imm : Half) : fieldRt (wordI op rs rt imm) = rt :=
  field_eq _ _ (by rw [wordI_toNat]; omega)
@[simp] theorem fieldImm_wordI (op : BitVec 6) (rs rt : BitVec 5) (imm : Half) : fieldImm (wordI op rs rt imm) = imm :=
  field_eq _ _ (by rw [wordI_toNat]; omega)
@[simp] theorem fieldOp_wordJ (op : BitVec 6) (t : BitVec 26) : fieldOp (wordJ op t) = op :=
  field_eq _ _ (by rw [wordJ_toNat]; omega)
@[simp] theorem fieldTarget_wordJ (op : BitVec 6) (t : BitVec 26) : fieldTarget (wordJ op t) = t :=
  field_eq _ _ (by rw [wordJ_toNat]; omega)

/-- A SPECIAL word is the R-format word of its fields. `wordR`, `wordI` and `wordJ` unfold badly when Lean unifies two of them: a
proof that handles many words makes them locally irreducible and uses these lemmas. -/
theorem wordR_fields {w : Word} (h : fieldOp w = 0x00#6) :
    wordR (fieldRs w) (fieldRt w) (fieldRd w) (fieldShamt w) (fieldFunct w) = w := by
  have hw := congrArg BitVec.toNat h
  apply BitVec.eq_of_toNat_eq
  rw [wordR_toNat]
  simp [fieldOp, fieldRs, fieldRt, fieldRd, fieldShamt, fieldFunct, BitVec.extractLsb'_toNat,
    Nat.shiftRight_eq_div_pow] at hw ⊢
  omega

/-- A word is the I-format word of its fields. -/
theorem wordI_fields (w : Word) : wordI (fieldOp w) (fieldRs w) (fieldRt w) (fieldImm w) = w := by
  apply BitVec.eq_of_toNat_eq
  rw [wordI_toNat]
  simp [fieldOp, fieldRs, fieldRt, fieldImm, BitVec.extractLsb'_toNat, Nat.shiftRight_eq_div_pow]
  omega

/-- A word is the J-format word of its fields. -/
theorem wordJ_fields (w : Word) : wordJ (fieldOp w) (fieldTarget w) = w := by
  apply BitVec.eq_of_toNat_eq
  rw [wordJ_toNat]
  simp [fieldOp, fieldTarget, BitVec.extractLsb'_toNat, Nat.shiftRight_eq_div_pow]
  omega

/-- A word masked by the bits of a field is zero exactly when the field is. -/
theorem and_mask_eq_zero {w m : Word} {k n : Nat} (hkn : k + n ≤ 32)
    (hm : ∀ i < 32, m.getLsbD i = decide (k ≤ i ∧ i < k + n)) : w &&& m = 0#32 ↔ w.extractLsb' k n = 0#n := by
  constructor
  · intro h
    apply BitVec.eq_of_getLsbD_eq
    intro i hi
    have hb := congrArg (fun v => v.getLsbD (k + i)) h
    simp only [BitVec.getLsbD_and, hm (k + i) (by omega), BitVec.getLsbD_zero] at hb
    simpa [BitVec.getLsbD_extractLsb', hi] using hb
  · intro h
    apply BitVec.eq_of_getLsbD_eq
    intro i hi
    rw [BitVec.getLsbD_and, hm i hi]
    by_cases hki : k ≤ i ∧ i < k + n
    · have hb := congrArg (fun v => v.getLsbD (i - k)) h
      simp only [BitVec.getLsbD_extractLsb', BitVec.getLsbD_zero] at hb
      have h1 : i - k < n := by omega
      have h2 : k + (i - k) = i := by omega
      have hw : w.getLsbD i = false := by simpa [h1, h2] using hb
      simp [hw]
    · simp [hki]

theorem and_maskRs (w : Word) : w &&& maskRs = 0#32 ↔ fieldRs w = 0 := and_mask_eq_zero (by omega) (by decide)
theorem and_maskRt (w : Word) : w &&& maskRt = 0#32 ↔ fieldRt w = 0 := and_mask_eq_zero (by omega) (by decide)
theorem and_maskRd (w : Word) : w &&& maskRd = 0#32 ↔ fieldRd w = 0 := and_mask_eq_zero (by omega) (by decide)
theorem and_maskShamt (w : Word) : w &&& maskShamt = 0#32 ↔ fieldShamt w = 0 := and_mask_eq_zero (by omega) (by decide)

theorem and_or_eq_zero {w a b : Word} : w &&& (a ||| b) = 0#32 ↔ w &&& a = 0#32 ∧ w &&& b = 0#32 := by
  rw [BitVec.and_or_distrib_left]
  exact BitVec.or_eq_zero_iff

/-- The four bytes of a word make it again. -/
theorem wordOfBytes_bytesOfWord (w : Word) :
    wordOfBytes (w.extractLsb' 24 8) (w.extractLsb' 16 8) (w.extractLsb' 8 8) (w.extractLsb' 0 8) = w := by
  apply BitVec.eq_of_toNat_eq
  unfold wordOfBytes
  simp only [append_toNat, BitVec.extractLsb'_toNat, Nat.shiftRight_eq_div_pow]
  omega

end Sys2Proof
end

