-- ==== Sys2Proof/Laws/PerInstr.lean ====
section
/-! SUPPORT. Facts about every instruction, one lemma for each constructor. Family AdmittedWord: the encoding of the
instruction has a key of the table of spec/30_encoding.md R100. Family ReservedZero: the fields that R102 lists are zero
in it (R104). -/

namespace Sys2Proof.Laws

open Sys2Proof Sys2Proof.Machine

/-- The key of the instruction's word is in the table of R100. -/
def AdmittedWord.Statement (i : Instr) : Prop := Admitted (encode i)

/-- The reserved fields of the instruction's word are zero. -/
def ReservedZero.Statement (i : Instr) : Prop := encode i &&& reservedMask i = 0#32

theorem admitted_special {w : Word} {f : BitVec 6} (ho : fieldOp w = 0x00#6) (hf : fieldFunct w = f)
    (h : f ∈ specialKeys) : Admitted w := Or.inl ⟨ho, hf ▸ h⟩

theorem admitted_regimm {w : Word} {r : BitVec 5} (ho : fieldOp w = 0x01#6) (hr : fieldRt w = r)
    (h : r ∈ regimmKeys) : Admitted w := Or.inr (Or.inl ⟨ho, hr ▸ h⟩)

theorem admitted_op {w : Word} {o : BitVec 6} (ho : fieldOp w = o) (h : o ∈ opKeys) : Admitted w :=
  Or.inr (Or.inr (ho ▸ h))

theorem AdmittedWord.sll (rd : RegIdx) (rt : RegIdx) (shamt : BitVec 5) : AdmittedWord.Statement (.sll rd rt shamt) :=
  admitted_special (fieldOp_wordR ..) (fieldFunct_wordR ..) (by decide)
theorem AdmittedWord.srl (rd : RegIdx) (rt : RegIdx) (shamt : BitVec 5) : AdmittedWord.Statement (.srl rd rt shamt) :=
  admitted_special (fieldOp_wordR ..) (fieldFunct_wordR ..) (by decide)
theorem AdmittedWord.sra (rd : RegIdx) (rt : RegIdx) (shamt : BitVec 5) : AdmittedWord.Statement (.sra rd rt shamt) :=
  admitted_special (fieldOp_wordR ..) (fieldFunct_wordR ..) (by decide)
theorem AdmittedWord.sllv (rd : RegIdx) (rt : RegIdx) (rs : RegIdx) : AdmittedWord.Statement (.sllv rd rt rs) :=
  admitted_special (fieldOp_wordR ..) (fieldFunct_wordR ..) (by decide)
theorem AdmittedWord.srlv (rd : RegIdx) (rt : RegIdx) (rs : RegIdx) : AdmittedWord.Statement (.srlv rd rt rs) :=
  admitted_special (fieldOp_wordR ..) (fieldFunct_wordR ..) (by decide)
theorem AdmittedWord.srav (rd : RegIdx) (rt : RegIdx) (rs : RegIdx) : AdmittedWord.Statement (.srav rd rt rs) :=
  admitted_special (fieldOp_wordR ..) (fieldFunct_wordR ..) (by decide)
theorem AdmittedWord.jr (rs : RegIdx) : AdmittedWord.Statement (.jr rs) :=
  admitted_special (fieldOp_wordR ..) (fieldFunct_wordR ..) (by decide)
theorem AdmittedWord.jalr (rd : RegIdx) (rs : RegIdx) : AdmittedWord.Statement (.jalr rd rs) :=
  admitted_special (fieldOp_wordR ..) (fieldFunct_wordR ..) (by decide)
theorem AdmittedWord.syscall : AdmittedWord.Statement .syscall :=
  admitted_special (fieldOp_wordR ..) (fieldFunct_wordR ..) (by decide)
theorem AdmittedWord.mfhi (rd : RegIdx) : AdmittedWord.Statement (.mfhi rd) :=
  admitted_special (fieldOp_wordR ..) (fieldFunct_wordR ..) (by decide)
theorem AdmittedWord.mthi (rs : RegIdx) : AdmittedWord.Statement (.mthi rs) :=
  admitted_special (fieldOp_wordR ..) (fieldFunct_wordR ..) (by decide)
theorem AdmittedWord.mflo (rd : RegIdx) : AdmittedWord.Statement (.mflo rd) :=
  admitted_special (fieldOp_wordR ..) (fieldFunct_wordR ..) (by decide)
theorem AdmittedWord.mtlo (rs : RegIdx) : AdmittedWord.Statement (.mtlo rs) :=
  admitted_special (fieldOp_wordR ..) (fieldFunct_wordR ..) (by decide)
theorem AdmittedWord.mult (rs : RegIdx) (rt : RegIdx) : AdmittedWord.Statement (.mult rs rt) :=
  admitted_special (fieldOp_wordR ..) (fieldFunct_wordR ..) (by decide)
theorem AdmittedWord.multu (rs : RegIdx) (rt : RegIdx) : AdmittedWord.Statement (.multu rs rt) :=
  admitted_special (fieldOp_wordR ..) (fieldFunct_wordR ..) (by decide)
theorem AdmittedWord.div (rs : RegIdx) (rt : RegIdx) : AdmittedWord.Statement (.div rs rt) :=
  admitted_special (fieldOp_wordR ..) (fieldFunct_wordR ..) (by decide)
theorem AdmittedWord.divu (rs : RegIdx) (rt : RegIdx) : AdmittedWord.Statement (.divu rs rt) :=
  admitted_special (fieldOp_wordR ..) (fieldFunct_wordR ..) (by decide)
theorem AdmittedWord.add (rd : RegIdx) (rs : RegIdx) (rt : RegIdx) : AdmittedWord.Statement (.add rd rs rt) :=
  admitted_special (fieldOp_wordR ..) (fieldFunct_wordR ..) (by decide)
theorem AdmittedWord.addu (rd : RegIdx) (rs : RegIdx) (rt : RegIdx) : AdmittedWord.Statement (.addu rd rs rt) :=
  admitted_special (fieldOp_wordR ..) (fieldFunct_wordR ..) (by decide)
theorem AdmittedWord.sub (rd : RegIdx) (rs : RegIdx) (rt : RegIdx) : AdmittedWord.Statement (.sub rd rs rt) :=
  admitted_special (fieldOp_wordR ..) (fieldFunct_wordR ..) (by decide)
theorem AdmittedWord.subu (rd : RegIdx) (rs : RegIdx) (rt : RegIdx) : AdmittedWord.Statement (.subu rd rs rt) :=
  admitted_special (fieldOp_wordR ..) (fieldFunct_wordR ..) (by decide)
theorem AdmittedWord.and (rd : RegIdx) (rs : RegIdx) (rt : RegIdx) : AdmittedWord.Statement (.and rd rs rt) :=
  admitted_special (fieldOp_wordR ..) (fieldFunct_wordR ..) (by decide)
theorem AdmittedWord.or (rd : RegIdx) (rs : RegIdx) (rt : RegIdx) : AdmittedWord.Statement (.or rd rs rt) :=
  admitted_special (fieldOp_wordR ..) (fieldFunct_wordR ..) (by decide)
theorem AdmittedWord.xor (rd : RegIdx) (rs : RegIdx) (rt : RegIdx) : AdmittedWord.Statement (.xor rd rs rt) :=
  admitted_special (fieldOp_wordR ..) (fieldFunct_wordR ..) (by decide)
theorem AdmittedWord.nor (rd : RegIdx) (rs : RegIdx) (rt : RegIdx) : AdmittedWord.Statement (.nor rd rs rt) :=
  admitted_special (fieldOp_wordR ..) (fieldFunct_wordR ..) (by decide)
theorem AdmittedWord.slt (rd : RegIdx) (rs : RegIdx) (rt : RegIdx) : AdmittedWord.Statement (.slt rd rs rt) :=
  admitted_special (fieldOp_wordR ..) (fieldFunct_wordR ..) (by decide)
theorem AdmittedWord.sltu (rd : RegIdx) (rs : RegIdx) (rt : RegIdx) : AdmittedWord.Statement (.sltu rd rs rt) :=
  admitted_special (fieldOp_wordR ..) (fieldFunct_wordR ..) (by decide)
theorem AdmittedWord.bltz (rs : RegIdx) (imm : Half) : AdmittedWord.Statement (.bltz rs imm) :=
  admitted_regimm (fieldOp_wordI ..) (fieldRt_wordI ..) (by decide)
theorem AdmittedWord.bgez (rs : RegIdx) (imm : Half) : AdmittedWord.Statement (.bgez rs imm) :=
  admitted_regimm (fieldOp_wordI ..) (fieldRt_wordI ..) (by decide)
theorem AdmittedWord.bltzal (rs : RegIdx) (imm : Half) : AdmittedWord.Statement (.bltzal rs imm) :=
  admitted_regimm (fieldOp_wordI ..) (fieldRt_wordI ..) (by decide)
theorem AdmittedWord.bgezal (rs : RegIdx) (imm : Half) : AdmittedWord.Statement (.bgezal rs imm) :=
  admitted_regimm (fieldOp_wordI ..) (fieldRt_wordI ..) (by decide)
theorem AdmittedWord.j (target : BitVec 26) : AdmittedWord.Statement (.j target) :=
  admitted_op (fieldOp_wordJ ..) (by decide)
theorem AdmittedWord.jal (target : BitVec 26) : AdmittedWord.Statement (.jal target) :=
  admitted_op (fieldOp_wordJ ..) (by decide)
theorem AdmittedWord.beq (rs : RegIdx) (rt : RegIdx) (imm : Half) : AdmittedWord.Statement (.beq rs rt imm) :=
  admitted_op (fieldOp_wordI ..) (by decide)
theorem AdmittedWord.bne (rs : RegIdx) (rt : RegIdx) (imm : Half) : AdmittedWord.Statement (.bne rs rt imm) :=
  admitted_op (fieldOp_wordI ..) (by decide)
theorem AdmittedWord.blez (rs : RegIdx) (imm : Half) : AdmittedWord.Statement (.blez rs imm) :=
  admitted_op (fieldOp_wordI ..) (by decide)
theorem AdmittedWord.bgtz (rs : RegIdx) (imm : Half) : AdmittedWord.Statement (.bgtz rs imm) :=
  admitted_op (fieldOp_wordI ..) (by decide)
theorem AdmittedWord.addi (rt : RegIdx) (rs : RegIdx) (imm : Half) : AdmittedWord.Statement (.addi rt rs imm) :=
  admitted_op (fieldOp_wordI ..) (by decide)
theorem AdmittedWord.addiu (rt : RegIdx) (rs : RegIdx) (imm : Half) : AdmittedWord.Statement (.addiu rt rs imm) :=
  admitted_op (fieldOp_wordI ..) (by decide)
theorem AdmittedWord.slti (rt : RegIdx) (rs : RegIdx) (imm : Half) : AdmittedWord.Statement (.slti rt rs imm) :=
  admitted_op (fieldOp_wordI ..) (by decide)
theorem AdmittedWord.sltiu (rt : RegIdx) (rs : RegIdx) (imm : Half) : AdmittedWord.Statement (.sltiu rt rs imm) :=
  admitted_op (fieldOp_wordI ..) (by decide)
theorem AdmittedWord.andi (rt : RegIdx) (rs : RegIdx) (imm : Half) : AdmittedWord.Statement (.andi rt rs imm) :=
  admitted_op (fieldOp_wordI ..) (by decide)
theorem AdmittedWord.ori (rt : RegIdx) (rs : RegIdx) (imm : Half) : AdmittedWord.Statement (.ori rt rs imm) :=
  admitted_op (fieldOp_wordI ..) (by decide)
theorem AdmittedWord.xori (rt : RegIdx) (rs : RegIdx) (imm : Half) : AdmittedWord.Statement (.xori rt rs imm) :=
  admitted_op (fieldOp_wordI ..) (by decide)
theorem AdmittedWord.lui (rt : RegIdx) (imm : Half) : AdmittedWord.Statement (.lui rt imm) :=
  admitted_op (fieldOp_wordI ..) (by decide)
theorem AdmittedWord.lb (rt : RegIdx) (rs : RegIdx) (imm : Half) : AdmittedWord.Statement (.lb rt rs imm) :=
  admitted_op (fieldOp_wordI ..) (by decide)
theorem AdmittedWord.lh (rt : RegIdx) (rs : RegIdx) (imm : Half) : AdmittedWord.Statement (.lh rt rs imm) :=
  admitted_op (fieldOp_wordI ..) (by decide)
theorem AdmittedWord.lw (rt : RegIdx) (rs : RegIdx) (imm : Half) : AdmittedWord.Statement (.lw rt rs imm) :=
  admitted_op (fieldOp_wordI ..) (by decide)
theorem AdmittedWord.lbu (rt : RegIdx) (rs : RegIdx) (imm : Half) : AdmittedWord.Statement (.lbu rt rs imm) :=
  admitted_op (fieldOp_wordI ..) (by decide)
theorem AdmittedWord.lhu (rt : RegIdx) (rs : RegIdx) (imm : Half) : AdmittedWord.Statement (.lhu rt rs imm) :=
  admitted_op (fieldOp_wordI ..) (by decide)
theorem AdmittedWord.sb (rt : RegIdx) (rs : RegIdx) (imm : Half) : AdmittedWord.Statement (.sb rt rs imm) :=
  admitted_op (fieldOp_wordI ..) (by decide)
theorem AdmittedWord.sh (rt : RegIdx) (rs : RegIdx) (imm : Half) : AdmittedWord.Statement (.sh rt rs imm) :=
  admitted_op (fieldOp_wordI ..) (by decide)
theorem AdmittedWord.sw (rt : RegIdx) (rs : RegIdx) (imm : Half) : AdmittedWord.Statement (.sw rt rs imm) :=
  admitted_op (fieldOp_wordI ..) (by decide)

theorem ReservedZero.sll (rd : RegIdx) (rt : RegIdx) (shamt : BitVec 5) : ReservedZero.Statement (.sll rd rt shamt) :=
  (and_maskRs _).mpr (fieldRs_wordR ..)
theorem ReservedZero.srl (rd : RegIdx) (rt : RegIdx) (shamt : BitVec 5) : ReservedZero.Statement (.srl rd rt shamt) :=
  (and_maskRs _).mpr (fieldRs_wordR ..)
theorem ReservedZero.sra (rd : RegIdx) (rt : RegIdx) (shamt : BitVec 5) : ReservedZero.Statement (.sra rd rt shamt) :=
  (and_maskRs _).mpr (fieldRs_wordR ..)
theorem ReservedZero.sllv (rd : RegIdx) (rt : RegIdx) (rs : RegIdx) : ReservedZero.Statement (.sllv rd rt rs) :=
  (and_maskShamt _).mpr (fieldShamt_wordR ..)
theorem ReservedZero.srlv (rd : RegIdx) (rt : RegIdx) (rs : RegIdx) : ReservedZero.Statement (.srlv rd rt rs) :=
  (and_maskShamt _).mpr (fieldShamt_wordR ..)
theorem ReservedZero.srav (rd : RegIdx) (rt : RegIdx) (rs : RegIdx) : ReservedZero.Statement (.srav rd rt rs) :=
  (and_maskShamt _).mpr (fieldShamt_wordR ..)
theorem ReservedZero.jr (rs : RegIdx) : ReservedZero.Statement (.jr rs) :=
  and_or_eq_zero.mpr
    ⟨and_or_eq_zero.mpr ⟨(and_maskRt _).mpr (fieldRt_wordR ..), (and_maskRd _).mpr (fieldRd_wordR ..)⟩, (and_maskShamt _).mpr (fieldShamt_wordR ..)⟩
theorem ReservedZero.jalr (rd : RegIdx) (rs : RegIdx) : ReservedZero.Statement (.jalr rd rs) :=
  and_or_eq_zero.mpr ⟨(and_maskRt _).mpr (fieldRt_wordR ..), (and_maskShamt _).mpr (fieldShamt_wordR ..)⟩
theorem ReservedZero.syscall : ReservedZero.Statement .syscall :=
  BitVec.and_zero
theorem ReservedZero.mfhi (rd : RegIdx) : ReservedZero.Statement (.mfhi rd) :=
  and_or_eq_zero.mpr
    ⟨and_or_eq_zero.mpr ⟨(and_maskRs _).mpr (fieldRs_wordR ..), (and_maskRt _).mpr (fieldRt_wordR ..)⟩, (and_maskShamt _).mpr (fieldShamt_wordR ..)⟩
theorem ReservedZero.mthi (rs : RegIdx) : ReservedZero.Statement (.mthi rs) :=
  and_or_eq_zero.mpr
    ⟨and_or_eq_zero.mpr ⟨(and_maskRt _).mpr (fieldRt_wordR ..), (and_maskRd _).mpr (fieldRd_wordR ..)⟩, (and_maskShamt _).mpr (fieldShamt_wordR ..)⟩
theorem ReservedZero.mflo (rd : RegIdx) : ReservedZero.Statement (.mflo rd) :=
  and_or_eq_zero.mpr
    ⟨and_or_eq_zero.mpr ⟨(and_maskRs _).mpr (fieldRs_wordR ..), (and_maskRt _).mpr (fieldRt_wordR ..)⟩, (and_maskShamt _).mpr (fieldShamt_wordR ..)⟩
theorem ReservedZero.mtlo (rs : RegIdx) : ReservedZero.Statement (.mtlo rs) :=
  and_or_eq_zero.mpr
    ⟨and_or_eq_zero.mpr ⟨(and_maskRt _).mpr (fieldRt_wordR ..), (and_maskRd _).mpr (fieldRd_wordR ..)⟩, (and_maskShamt _).mpr (fieldShamt_wordR ..)⟩
theorem ReservedZero.mult (rs : RegIdx) (rt : RegIdx) : ReservedZero.Statement (.mult rs rt) :=
  and_or_eq_zero.mpr ⟨(and_maskRd _).mpr (fieldRd_wordR ..), (and_maskShamt _).mpr (fieldShamt_wordR ..)⟩
theorem ReservedZero.multu (rs : RegIdx) (rt : RegIdx) : ReservedZero.Statement (.multu rs rt) :=
  and_or_eq_zero.mpr ⟨(and_maskRd _).mpr (fieldRd_wordR ..), (and_maskShamt _).mpr (fieldShamt_wordR ..)⟩
theorem ReservedZero.div (rs : RegIdx) (rt : RegIdx) : ReservedZero.Statement (.div rs rt) :=
  and_or_eq_zero.mpr ⟨(and_maskRd _).mpr (fieldRd_wordR ..), (and_maskShamt _).mpr (fieldShamt_wordR ..)⟩
theorem ReservedZero.divu (rs : RegIdx) (rt : RegIdx) : ReservedZero.Statement (.divu rs rt) :=
  and_or_eq_zero.mpr ⟨(and_maskRd _).mpr (fieldRd_wordR ..), (and_maskShamt _).mpr (fieldShamt_wordR ..)⟩
theorem ReservedZero.add (rd : RegIdx) (rs : RegIdx) (rt : RegIdx) : ReservedZero.Statement (.add rd rs rt) :=
  (and_maskShamt _).mpr (fieldShamt_wordR ..)
theorem ReservedZero.addu (rd : RegIdx) (rs : RegIdx) (rt : RegIdx) : ReservedZero.Statement (.addu rd rs rt) :=
  (and_maskShamt _).mpr (fieldShamt_wordR ..)
theorem ReservedZero.sub (rd : RegIdx) (rs : RegIdx) (rt : RegIdx) : ReservedZero.Statement (.sub rd rs rt) :=
  (and_maskShamt _).mpr (fieldShamt_wordR ..)
theorem ReservedZero.subu (rd : RegIdx) (rs : RegIdx) (rt : RegIdx) : ReservedZero.Statement (.subu rd rs rt) :=
  (and_maskShamt _).mpr (fieldShamt_wordR ..)
theorem ReservedZero.and (rd : RegIdx) (rs : RegIdx) (rt : RegIdx) : ReservedZero.Statement (.and rd rs rt) :=
  (and_maskShamt _).mpr (fieldShamt_wordR ..)
theorem ReservedZero.or (rd : RegIdx) (rs : RegIdx) (rt : RegIdx) : ReservedZero.Statement (.or rd rs rt) :=
  (and_maskShamt _).mpr (fieldShamt_wordR ..)
theorem ReservedZero.xor (rd : RegIdx) (rs : RegIdx) (rt : RegIdx) : ReservedZero.Statement (.xor rd rs rt) :=
  (and_maskShamt _).mpr (fieldShamt_wordR ..)
theorem ReservedZero.nor (rd : RegIdx) (rs : RegIdx) (rt : RegIdx) : ReservedZero.Statement (.nor rd rs rt) :=
  (and_maskShamt _).mpr (fieldShamt_wordR ..)
theorem ReservedZero.slt (rd : RegIdx) (rs : RegIdx) (rt : RegIdx) : ReservedZero.Statement (.slt rd rs rt) :=
  (and_maskShamt _).mpr (fieldShamt_wordR ..)
theorem ReservedZero.sltu (rd : RegIdx) (rs : RegIdx) (rt : RegIdx) : ReservedZero.Statement (.sltu rd rs rt) :=
  (and_maskShamt _).mpr (fieldShamt_wordR ..)
theorem ReservedZero.bltz (rs : RegIdx) (imm : Half) : ReservedZero.Statement (.bltz rs imm) :=
  BitVec.and_zero
theorem ReservedZero.bgez (rs : RegIdx) (imm : Half) : ReservedZero.Statement (.bgez rs imm) :=
  BitVec.and_zero
theorem ReservedZero.bltzal (rs : RegIdx) (imm : Half) : ReservedZero.Statement (.bltzal rs imm) :=
  BitVec.and_zero
theorem ReservedZero.bgezal (rs : RegIdx) (imm : Half) : ReservedZero.Statement (.bgezal rs imm) :=
  BitVec.and_zero
theorem ReservedZero.j (target : BitVec 26) : ReservedZero.Statement (.j target) :=
  BitVec.and_zero
theorem ReservedZero.jal (target : BitVec 26) : ReservedZero.Statement (.jal target) :=
  BitVec.and_zero
theorem ReservedZero.beq (rs : RegIdx) (rt : RegIdx) (imm : Half) : ReservedZero.Statement (.beq rs rt imm) :=
  BitVec.and_zero
theorem ReservedZero.bne (rs : RegIdx) (rt : RegIdx) (imm : Half) : ReservedZero.Statement (.bne rs rt imm) :=
  BitVec.and_zero
theorem ReservedZero.blez (rs : RegIdx) (imm : Half) : ReservedZero.Statement (.blez rs imm) :=
  (and_maskRt _).mpr (fieldRt_wordI ..)
theorem ReservedZero.bgtz (rs : RegIdx) (imm : Half) : ReservedZero.Statement (.bgtz rs imm) :=
  (and_maskRt _).mpr (fieldRt_wordI ..)
theorem ReservedZero.addi (rt : RegIdx) (rs : RegIdx) (imm : Half) : ReservedZero.Statement (.addi rt rs imm) :=
  BitVec.and_zero
theorem ReservedZero.addiu (rt : RegIdx) (rs : RegIdx) (imm : Half) : ReservedZero.Statement (.addiu rt rs imm) :=
  BitVec.and_zero
theorem ReservedZero.slti (rt : RegIdx) (rs : RegIdx) (imm : Half) : ReservedZero.Statement (.slti rt rs imm) :=
  BitVec.and_zero
theorem ReservedZero.sltiu (rt : RegIdx) (rs : RegIdx) (imm : Half) : ReservedZero.Statement (.sltiu rt rs imm) :=
  BitVec.and_zero
theorem ReservedZero.andi (rt : RegIdx) (rs : RegIdx) (imm : Half) : ReservedZero.Statement (.andi rt rs imm) :=
  BitVec.and_zero
theorem ReservedZero.ori (rt : RegIdx) (rs : RegIdx) (imm : Half) : ReservedZero.Statement (.ori rt rs imm) :=
  BitVec.and_zero
theorem ReservedZero.xori (rt : RegIdx) (rs : RegIdx) (imm : Half) : ReservedZero.Statement (.xori rt rs imm) :=
  BitVec.and_zero
theorem ReservedZero.lui (rt : RegIdx) (imm : Half) : ReservedZero.Statement (.lui rt imm) :=
  (and_maskRs _).mpr (fieldRs_wordI ..)
theorem ReservedZero.lb (rt : RegIdx) (rs : RegIdx) (imm : Half) : ReservedZero.Statement (.lb rt rs imm) :=
  BitVec.and_zero
theorem ReservedZero.lh (rt : RegIdx) (rs : RegIdx) (imm : Half) : ReservedZero.Statement (.lh rt rs imm) :=
  BitVec.and_zero
theorem ReservedZero.lw (rt : RegIdx) (rs : RegIdx) (imm : Half) : ReservedZero.Statement (.lw rt rs imm) :=
  BitVec.and_zero
theorem ReservedZero.lbu (rt : RegIdx) (rs : RegIdx) (imm : Half) : ReservedZero.Statement (.lbu rt rs imm) :=
  BitVec.and_zero
theorem ReservedZero.lhu (rt : RegIdx) (rs : RegIdx) (imm : Half) : ReservedZero.Statement (.lhu rt rs imm) :=
  BitVec.and_zero
theorem ReservedZero.sb (rt : RegIdx) (rs : RegIdx) (imm : Half) : ReservedZero.Statement (.sb rt rs imm) :=
  BitVec.and_zero
theorem ReservedZero.sh (rt : RegIdx) (rs : RegIdx) (imm : Half) : ReservedZero.Statement (.sh rt rs imm) :=
  BitVec.and_zero
theorem ReservedZero.sw (rt : RegIdx) (rs : RegIdx) (imm : Half) : ReservedZero.Statement (.sw rt rs imm) :=
  BitVec.and_zero

end Sys2Proof.Laws
end

