-- ==== Sys2Proof/Laws/Effect.lean ====
section
/-! SUPPORT. Everything that executing one instruction can do, said once: the next state of `exec` in terms of the updates
of Ops.lean. What an instruction leaves unchanged follows from these cases and the lemmas of Laws/State.lean. -/

namespace Sys2Proof.Machine

open Sys2Proof

/-- The next states of `syscall` (spec/44_syscall.md R272 to R278). `u` is `s` after an answer of the host was taken. -/
inductive SyscallEffect (s t : State) : Prop
  | printed (bytes : List Byte) (h : t = (s.out bytes).commit (s.pc + 4#32))
  | raised (k : FaultKind) (hk : faultCode k ∈ faultCodes .syscall) (h : t = s.raise k)
  | raisedAfter (k : FaultKind) (u : State) (hk : faultCode k ∈ faultCodes .syscall) (ha : AnswerTaken s u)
      (hu : u = { s with answers := u.answers, reads := u.reads }) (h : t = u.raise k)
  | tookInteger (v : Word) (u : State) (hc : s.reg 2#5 = 5#32) (ha : AnswerTaken s u)
      (hu : u = { s with answers := u.answers, reads := u.reads }) (h : t = (u.setReg 2#5 v).commit (s.pc + 4#32))
  | tookString (bs : List Byte) (u : State) (hc : s.reg 2#5 = 8#32) (ha : AnswerTaken s u)
      (hu : u = { s with answers := u.answers, reads := u.reads })
      (hn : bs = [] ∨ (bs.length : Int) ≤ (s.reg 5#5).toInt)
      (hb : ∀ k < bs.length, s.backed (s.reg 4#5 + BitVec.ofNat 32 k) = true)
      (h : t = (u.storeBytes (s.reg 4#5) bs).commit (s.pc + 4#32))
  | exited (h : t = (s.commit (s.pc + 4#32)).halt)

/-- The next states of an instruction. -/
inductive Effect (i : Instr) (s t : State) : Prop
  | raised (k : FaultKind) (hk : faultCode k ∈ faultCodes i) (h : t = s.raise k)
  | wrote (r : RegIdx) (v npc : Word) (hd : destination i = some r) (hi : i ≠ .syscall)
      (hn : isControl i = false → npc = s.pc + 4#32) (h : t = (s.setReg r v).commit npc)
  | wroteHiLo (hi lo : Word) (hw : writesHiLo i = true) (hc : isControl i = false)
      (h : t = (s.setHiLo hi lo).commit (s.pc + 4#32))
  | went (npc : Word) (hc : isControl i = true) (h : t = s.commit npc)
  | stored (a : Word) (bs : List Byte) (hs : storeTarget s i = some (a, bs.length)) (hl : bs.length ≤ 4)
      (hc : isControl i = false)
      (hb : ∀ k < bs.length, s.backed (a + BitVec.ofNat 32 k) = true)
      (h : t = (s.storeBytes a bs).commit (s.pc + 4#32))
  | called (hi : i = .syscall) (h : SyscallEffect s t)

/-! ### The shared endings -/

theorem nextInstr_next {u t : State} {pc : Word} (h : nextInstr u = .next t) (hp : u.pc = pc) :
    t = u.commit (pc + 4#32) := by
  subst hp; cases h; rfl

theorem fault_next {k : FaultKind} {u t : State} (h : fault k u = .next t) : t = u.raise k := by
  cases h; rfl

theorem effect_setHiLo {i : Instr} {s t : State} {hi lo : Word} (h : nextInstr (s.setHiLo hi lo) = .next t)
    (hw : writesHiLo i = true) (hc : isControl i = false) : Effect i s t :=
  .wroteHiLo hi lo hw hc (nextInstr_next h rfl)

theorem effect_writeResult {i : Instr} {s t : State} {r : RegIdx} {v : Word} (h : writeResult r v s = .next t)
    (hd : destination i = some r) (hi : i ≠ .syscall) : Effect i s t := by
  cases h
  exact .wrote r v _ hd hi (fun _ => by simp) rfl

theorem effect_trappingResult {i : Instr} {s t : State} {r : RegIdx} {e : Int} (h : trappingResult r e s = .next t)
    (hk : 9 ∈ faultCodes i) (hd : destination i = some r) (hi : i ≠ .syscall) : Effect i s t := by
  unfold trappingResult at h
  split at h
  · cases h; exact .raised .integerOverflow hk rfl
  · exact effect_writeResult h hd hi

/-- The faults of a checked access, as codes. -/
theorem accessCodes {s : State} {k : Access} {a : Word} {n : Nat} {f : FaultKind} (h : s.checkAccess k a n = some f) :
    (aligned a n = false ∧ f = addressError k a) ∨ ∃ x, f = accessFault k x := by
  rcases State.checkAccess_eq_some h with h | ⟨-, x, -, hf⟩
  · exact Or.inl h
  · exact Or.inr ⟨x, hf⟩

theorem memRead8_error {s : State} {a : Word} {f : FaultKind} (h : s.memRead8 .load a = .error f) : faultCode f = 6 := by
  unfold State.memRead8 at h
  split at h
  next g hg =>
    cases h
    rcases accessCodes hg with ⟨ha, -⟩ | ⟨x, rfl⟩
    · rw [aligned_one] at ha; cases ha
    · rfl
  next => cases h

theorem memRead16_error {s : State} {a : Word} {f : FaultKind} (h : s.memRead16 .load a = .error f) :
    faultCode f ∈ [4, 6] := by
  unfold State.memRead16 at h
  split at h
  next g hg =>
    cases h
    rcases accessCodes hg with ⟨-, rfl⟩ | ⟨x, rfl⟩
    · exact .head _
    · exact .tail _ (.head _)
  next => cases h

theorem memRead32_error {s : State} {a : Word} {f : FaultKind} (h : s.memRead32 .load a = .error f) :
    faultCode f ∈ [4, 6] := by
  unfold State.memRead32 at h
  split at h
  next g hg =>
    cases h
    rcases accessCodes hg with ⟨-, rfl⟩ | ⟨x, rfl⟩
    · exact .head _
    · exact .tail _ (.head _)
  next => cases h

theorem effect_loadTo {i : Instr} {s t : State} {r : RegIdx} {x : Except FaultKind Word} (h : loadTo r x s = .next t)
    (hk : ∀ f, x = .error f → faultCode f ∈ faultCodes i) (hd : destination i = some r) (hi : i ≠ .syscall) :
    Effect i s t := by
  cases x with
  | error f => cases h; exact .raised f (hk f rfl) rfl
  | ok v => exact effect_writeResult h hd hi

theorem map_error {α β : Type} {x : Except FaultKind α} {g : α → β} {f : FaultKind} (h : x.map g = .error f) :
    x = .error f := by
  cases x with
  | error e => cases h; rfl
  | ok a => cases h

theorem effect_storeTo {i : Instr} {s t : State} {a : Word} {bs : List Byte} (h : storeTo a bs s = .next t)
    (hs : storeTarget s i = some (a, bs.length)) (hl : bs.length ≤ 4) (hc : isControl i = false)
    (hk : ∀ f, s.checkAccess .store a bs.length = some f → faultCode f ∈ faultCodes i) : Effect i s t := by
  unfold storeTo State.memWrite at h
  cases hx : s.checkAccess .store a bs.length with
  | some f =>
    rw [hx] at h
    cases h
    exact .raised f (hk f hx) rfl
  | none =>
    rw [hx] at h
    refine .stored a bs hs hl hc ?_ (nextInstr_next h rfl)
    unfold State.checkAccess at hx
    split at hx
    · rw [Option.map_eq_none_iff] at hx
      exact State.firstUnbacked_eq_none.mp hx
    · cases hx

theorem storeCodes {s : State} {a : Word} {n : Nat} {f : FaultKind} (h : s.checkAccess .store a n = some f) :
    faultCode f ∈ [5, 7] := by
  rcases accessCodes h with ⟨-, rfl⟩ | ⟨x, rfl⟩
  · exact .head _
  · exact .tail _ (.head _)

theorem storeCodes_byte {s : State} {a : Word} {f : FaultKind} (h : s.checkAccess .store a 1 = some f) :
    faultCode f ∈ [7] := by
  rcases accessCodes h with ⟨ha, -⟩ | ⟨x, rfl⟩
  · rw [aligned_one] at ha; cases ha
  · exact .head _

/-! ### syscall -/

theorem code_inputError (e : InputError) : faultCode (.inputError e) ∈ faultCodes .syscall :=
  .tail _ (.tail _ (.tail _ (.head _)))
theorem code_unknownSyscall (c : Word) : faultCode (.unknownSyscall c) ∈ faultCodes .syscall :=
  .tail _ (.tail _ (.head _))
theorem code_accessFaultStore (a : Word) : faultCode (.accessFaultStore a) ∈ faultCodes .syscall := .tail _ (.head _)
theorem code_six {k : FaultKind} (h : faultCode k = 6) : faultCode k ∈ faultCodes .syscall := h ▸ .head _

/-- Where a scan stops with a fault, the fault is an access fault of a load. -/
theorem scanString_stopped {s : State} {n : Nat} {a : Word} {k : FaultKind} (h : s.scanString n a = .stopped k) :
    faultCode k = 6 := by
  induction n generalizing a with
  | zero => cases h
  | succ n ih =>
    unfold State.scanString at h
    split at h
    next f hf => cases h; exact memRead8_error hf
    next b hb =>
      split at h
      · cases h
      · cases hr : s.scanString n (a + 1#32) with
        | found bs => rw [hr] at h; cases h
        | stopped f => rw [hr] at h; cases h; exact ih hr
        | endless => rw [hr] at h; cases h

theorem effect_printString {s t : State} (h : printString s = .next t) : SyscallEffect s t := by
  unfold printString at h
  cases hr : s.scanString addressCount (s.reg regA0) with
  | found bs => rw [hr] at h; exact .printed bs (nextInstr_next h rfl)
  | stopped k => rw [hr] at h; exact .raised k (code_six (scanString_stopped hr)) (fault_next h)
  | endless => rw [hr] at h; cases h

theorem effect_readInteger {s t : State} (h : readInteger s = .next t) (hc : s.reg 2#5 = 5#32) : SyscallEffect s t := by
  unfold readInteger at h
  cases hr : s.readLine with
  | mk a u =>
    rw [hr] at h
    obtain ⟨-, ha, hu⟩ := State.readLine_spec hr
    have hp : u.pc = s.pc := by rw [hu]
    cases a with
    | exhausted => exact .raisedAfter _ u (code_inputError _) ha hu (fault_next h)
    | silent => cases h
    | line text =>
      dsimp only at h
      cases hv : parseInteger text with
      | none => rw [hv] at h; exact .raisedAfter _ u (code_inputError _) ha hu (fault_next h)
      | some v =>
        rw [hv] at h
        exact .tookInteger (BitVec.ofInt 32 v) u hc ha hu (nextInstr_next h ((State.setReg_pc ..).trans hp))

/-- Read string writes nothing, or at most as many bytes as `$a1` says (R276). -/
theorem stringBytes_length (b : List Byte) (n : Int) : stringBytes b n = [] ∨ ((stringBytes b n).length : Int) ≤ n := by
  unfold stringBytes
  split
  · exact Or.inl rfl
  · refine Or.inr ?_
    rw [List.length_append, List.length_take, List.length_singleton]
    omega

theorem effect_readString {s t : State} (h : readString s = .next t) (hc : s.reg 2#5 = 8#32) : SyscallEffect s t := by
  unfold readString at h
  cases hr : s.readLine with
  | mk a u =>
    rw [hr] at h
    obtain ⟨-, ha, hu⟩ := State.readLine_spec hr
    have hp : u.pc = s.pc := by rw [hu]
    have hset : SameSetup s u := by rw [hu]; exact ⟨rfl, rfl⟩
    cases a with
    | exhausted => exact .raisedAfter _ u (code_inputError _) ha hu (fault_next h)
    | silent => cases h
    | line text =>
      simp only [storeString] at h
      split at h
      next x hx => exact .raisedAfter _ u (code_accessFaultStore x) ha hu (fault_next h)
      next hx =>
        rw [State.firstUnbacked_congr hset] at hx
        exact .tookString _ u hc ha hu (stringBytes_length _ _) (State.firstUnbacked_eq_none.mp hx)
          (nextInstr_next h hp)

theorem effect_syscall {s t : State} (h : execSyscall s = .next t) : SyscallEffect s t := by
  unfold execSyscall at h
  split at h
  · exact .printed _ (nextInstr_next h rfl)
  · exact effect_printString h
  next hc => exact effect_readInteger h hc
  next hc => exact effect_readString h hc
  · cases h; exact .exited rfl
  · exact .raised _ (code_unknownSyscall _) (fault_next h)

/-! ### Every instruction -/

theorem effect_div {rs rt : RegIdx} {s t : State} (h : execDiv rs rt s = .next t) : Effect (.div rs rt) s t := by
  unfold execDiv at h
  split at h
  · exact .raised .divideByZero (.head _) (fault_next h)
  · split at h
    · split at h
      · exact .raised .divideOverflow (.tail _ (.head _)) (fault_next h)
      · exact effect_setHiLo h rfl rfl
    · exact effect_setHiLo h rfl rfl

theorem effect_divu {rs rt : RegIdx} {s t : State} (h : execDivu rs rt s = .next t) : Effect (.divu rs rt) s t := by
  unfold execDivu at h
  split at h
  · exact .raised .divideByZero (.head _) (fault_next h)
  · exact effect_setHiLo h rfl rfl

/-- Everything a next state of `exec` can be. -/
theorem exec_effect {i : Instr} {s t : State} (h : exec i s = .next t) : Effect i s t := by
  cases i with
  | add | sub => exact effect_trappingResult h (.head _) rfl (by simp)
  | addi => exact effect_trappingResult h (.head _) rfl (by simp)
  | mult | multu => exact effect_setHiLo h rfl rfl
  | mthi | mtlo => exact effect_setHiLo h rfl rfl
  | div => exact effect_div h
  | divu => exact effect_divu h
  | beq | bne | blez | bgtz | bltz | bgez | j | jr => cases h; exact .went _ rfl rfl
  | bltzal | bgezal | jal | jalr =>
    cases h; exact .wrote _ _ _ rfl (by simp) (fun h => by cases h) rfl
  | lb | lbu =>
    exact effect_loadTo h (fun f hf => memRead8_error (map_error hf) ▸ .head _) rfl (by simp)
  | lh | lhu => exact effect_loadTo h (fun f hf => memRead16_error (map_error hf)) rfl (by simp)
  | lw => exact effect_loadTo h (fun f hf => memRead32_error hf) rfl (by simp)
  | sb => exact effect_storeTo h rfl (show 1 ≤ 4 by omega) rfl (fun f hf => storeCodes_byte hf)
  | sh => exact effect_storeTo h rfl (show 2 ≤ 4 by omega) rfl (fun f hf => storeCodes hf)
  | sw => exact effect_storeTo h rfl (show 4 ≤ 4 by omega) rfl (fun f hf => storeCodes hf)
  | syscall => exact .called rfl (effect_syscall h)
  | _ => exact effect_writeResult h rfl (by simp)

/-- Every instruction but `syscall` answers a next state, whatever the state. -/
theorem exec_completes {i : Instr} (s : State) (hi : i ≠ .syscall) : ∃ t, exec i s = .next t := by
  have htrap : ∀ r e, ∃ t, trappingResult r e s = .next t := fun r e => by
    unfold trappingResult; split <;> exact ⟨_, rfl⟩
  have hload : ∀ r x, ∃ t, loadTo r x s = .next t := fun r x => by cases x <;> exact ⟨_, rfl⟩
  have hstore : ∀ a bs, ∃ t, storeTo a bs s = .next t := fun a bs => by
    unfold storeTo; split <;> exact ⟨_, rfl⟩
  cases i with
  | add | sub => exact htrap _ _
  | addi => exact htrap _ _
  | lb | lbu | lh | lhu | lw => exact hload _ _
  | sb | sh | sw => exact hstore _ _
  | div rs rt =>
    show ∃ t, execDiv rs rt s = .next t
    unfold execDiv
    split
    · exact ⟨_, rfl⟩
    · split
      · split <;> exact ⟨_, rfl⟩
      · exact ⟨_, rfl⟩
  | divu rs rt =>
    show ∃ t, execDivu rs rt s = .next t
    unfold execDivu
    split <;> exact ⟨_, rfl⟩
  | syscall => exact absurd rfl hi
  | _ => exact ⟨_, rfl⟩

end Sys2Proof.Machine
end

