-- ==== Sys2Proof/Laws/Run.lean ====
section
/-! SUPPORT. Steps one after the other, and what no step changes. -/

namespace Sys2Proof.Machine

open Sys2Proof

/-- A step that answers a next state, and then `k` more. -/
theorem run_next {M : Host.Core} {s t : M.State} (h : M.step s = .next t) (k : Nat) : M.run (k + 1) s = M.run k t := by
  rw [Host.Core.run, h]

/-- A state whose step is itself stays. -/
theorem run_fixed {M : Host.Core} {s : M.State} (h : M.step s = .next s) (k : Nat) : M.run k s = .next s := by
  induction k with
  | zero => rfl
  | succ k ih => rw [run_next h, ih]

/-- What every step keeps, every run keeps. -/
theorem run_keeps {M : Host.Core} {P : M.State → Prop} (hstep : ∀ s t, P s → M.step s = .next t → P t) {s t : M.State}
    {k : Nat} (hs : P s) (h : M.run k s = .next t) : P t := by
  induction k generalizing s with
  | zero => cases h; exact hs
  | succ k ih =>
    cases hu : M.step s with
    | next u => rw [run_next hu] at h; exact ih (hstep s u hs hu) h
    | fault f => rw [Host.Core.run, hu] at h; cases h
    | refused r => rw [Host.Core.run, hu] at h; cases h

/-- An instruction changes neither the parameters nor the image. -/
theorem exec_setup {i : Instr} {s t : State} (h : exec i s = .next t) : SameSetup s t := by
  cases exec_effect h with
  | raised k hk h => rw [h]; exact ⟨rfl, rfl⟩
  | wrote r v npc hd hi hn h => rw [h]; exact ⟨by simp, by simp⟩
  | wroteHiLo hi lo hw hc h => rw [h]; exact ⟨rfl, rfl⟩
  | went npc hc h => rw [h]; exact ⟨rfl, rfl⟩
  | stored a bs hs hl hc hb h => rw [h]; exact ⟨rfl, rfl⟩
  | called hi h =>
    cases h with
    | printed bytes h => rw [h]; exact ⟨rfl, rfl⟩
    | raised k hk h => rw [h]; exact ⟨rfl, rfl⟩
    | raisedAfter k u hk ha hu h => rw [h, hu]; exact ⟨rfl, rfl⟩
    | tookInteger v u hc ha hu h => rw [h, hu]; exact ⟨by simp, by simp⟩
    | tookString bs u hc ha hu hn hb h => rw [h, hu]; exact ⟨rfl, rfl⟩
    | exited h => rw [h]; exact ⟨rfl, rfl⟩

/-- The outcomes of a step: nothing, a halt, a fault of the fetch or of the decoder, an instruction. -/
theorem step_cases {s t : State} (h : step s = .next t) :
    t = s ∨ t = s.halt ∨ (∃ k, t = s.raise k) ∨ ∃ i w, decode s.config.strictFields w = .ok i ∧ exec i s = .next t := by
  unfold step at h
  have key : fetchAndRun s = .next t →
      t = s.halt ∨ (∃ k, t = s.raise k) ∨ ∃ i w, decode s.config.strictFields w = .ok i ∧ exec i s = .next t := by
    intro h
    unfold fetchAndRun at h
    split at h
    · exact Or.inr (Or.inl ⟨_, fault_next h⟩)
    · split at h
      · cases h; exact Or.inl rfl
      · split at h
        · split at h
          · exact Or.inr (Or.inl ⟨_, fault_next h⟩)
          next w _ =>
            unfold runWord at h
            split at h
            · exact Or.inr (Or.inl ⟨_, fault_next h⟩)
            next i hi => exact Or.inr (Or.inr ⟨i, w, hi, h⟩)
        · exact Or.inr (Or.inl ⟨_, fault_next h⟩)
  split at h
  · cases h; exact Or.inl rfl
  · cases h; exact Or.inl rfl
  · exact Or.inr (key h)
  · exact Or.inr (key h)

/-- A step changes neither the parameters nor the image. -/
theorem step_setup {s t : State} (h : step s = .next t) : SameSetup s t := by
  rcases step_cases h with rfl | rfl | ⟨k, rfl⟩ | ⟨i, w, -, h⟩
  · exact ⟨rfl, rfl⟩
  · exact ⟨rfl, rfl⟩
  · exact ⟨rfl, rfl⟩
  · exact exec_setup h

end Sys2Proof.Machine
end

