-- ==== Sys2Proof/Tests/Slice0.lean ====
section
/-! SUPPORT. Tests. Words and expected results are those of spec/95_test_vectors.md (S1 to S10, table L2) and of the examples
in the rules cited, or are written out by hand from the encoding tables of spec/30_encoding.md; none is an output of the
model. The last part shows for each obligation a state and operands that meet its hypotheses. -/

namespace Sys2Proof.Tests

open Sys2Proof Sys2Proof.Machine

/-- The state after loading the words and the data bytes under a configuration, with some registers set. -/
def start (c : Config) (text : List Word) (data : List Byte) (regs : List (RegIdx × Word)) : State :=
  regs.foldl (fun s p => s.setReg p.1 p.2)
    (State.reset.loaded c { text := text.flatMap bytesOfWord, data := data, entry := c.textBase })

/-- A reading of the state after one step. -/
def after {α : Type} (read : State → α) (s : State) : Option α :=
  match step s with
  | .next t => some (read t)
  | .fault _ => none
  | .refused _ => none

/-- One instruction, default configuration. -/
def one (w : Word) (regs : List (RegIdx × Word)) : State := start Config.default [w] [] regs

/-- One instruction over the data region of the load and store vectors: bytes 80 7F FE 01, DATA_SIZE 16. -/
def mem (w : Word) (regs : List (RegIdx × Word)) : State :=
  start { dataSize := some 16 } [w] [0x80, 0x7F, 0xFE, 0x01] regs

/-- One instruction with HI = 0x11111111 and LO = 0x22222222. -/
def hilo (w : Word) (regs : List (RegIdx × Word)) : State := (one w regs).setHiLo 0x11111111#32 0x22222222#32

/-- `syscall` over the data bytes "hi" and NUL, DATA_SIZE 16, with the host's coming answers. -/
def sys (answers : List HostAnswer) (regs : List (RegIdx × Word)) : State :=
  (start { dataSize := some 16 } [0x0000000C#32] [0x68, 0x69, 0x00] regs).offer answers

/-- The record of a fault at the first instruction. -/
def faultAt (k : FaultKind) : Option FaultRecord := some { kind := k, pc := 0x00400000#32 }

/-- A register and the PC. -/
def regPc (r : RegIdx) (t : State) : Word × Word := (t.reg r, t.pc)

/-! ### Decoding: one word of each instruction, by the encoding tables of spec/30_encoding.md R91 to R94, R100 -/

theorem test_decode_add : decode true 0x012A4020#32 = .ok (.add 8 9 10) := by decide
theorem test_decode_addu : decode true 0x012A4021#32 = .ok (.addu 8 9 10) := by decide
theorem test_decode_sub : decode true 0x012A4022#32 = .ok (.sub 8 9 10) := by decide
theorem test_decode_subu : decode true 0x012A4023#32 = .ok (.subu 8 9 10) := by decide
theorem test_decode_and : decode true 0x012A4024#32 = .ok (.and 8 9 10) := by decide
theorem test_decode_or : decode true 0x012A4025#32 = .ok (.or 8 9 10) := by decide
theorem test_decode_xor : decode true 0x012A4026#32 = .ok (.xor 8 9 10) := by decide
theorem test_decode_nor : decode true 0x012A4027#32 = .ok (.nor 8 9 10) := by decide
theorem test_decode_slt : decode true 0x012A402A#32 = .ok (.slt 8 9 10) := by decide
theorem test_decode_sltu : decode true 0x012A402B#32 = .ok (.sltu 8 9 10) := by decide
theorem test_decode_addi : decode true 0x2128FFFF#32 = .ok (.addi 8 9 0xFFFF) := by decide
theorem test_decode_addiu : decode true 0x2528FFFF#32 = .ok (.addiu 8 9 0xFFFF) := by decide
theorem test_decode_slti : decode true 0x2928FFFF#32 = .ok (.slti 8 9 0xFFFF) := by decide
theorem test_decode_sltiu : decode true 0x2D28FFFF#32 = .ok (.sltiu 8 9 0xFFFF) := by decide
theorem test_decode_andi : decode true 0x3128FF00#32 = .ok (.andi 8 9 0xFF00) := by decide
theorem test_decode_ori : decode true 0x35288000#32 = .ok (.ori 8 9 0x8000) := by decide
theorem test_decode_xori : decode true 0x3928FFFF#32 = .ok (.xori 8 9 0xFFFF) := by decide
theorem test_decode_lui : decode true 0x3C081234#32 = .ok (.lui 8 0x1234) := by decide
theorem test_decode_sll : decode true 0x00094100#32 = .ok (.sll 8 9 4) := by decide
theorem test_decode_srl : decode true 0x00094102#32 = .ok (.srl 8 9 4) := by decide
theorem test_decode_sra : decode true 0x00094103#32 = .ok (.sra 8 9 4) := by decide
theorem test_decode_sllv : decode true 0x01494004#32 = .ok (.sllv 8 9 10) := by decide
theorem test_decode_srlv : decode true 0x01494006#32 = .ok (.srlv 8 9 10) := by decide
theorem test_decode_srav : decode true 0x01494007#32 = .ok (.srav 8 9 10) := by decide
theorem test_decode_mult : decode true 0x012A0018#32 = .ok (.mult 9 10) := by decide
theorem test_decode_multu : decode true 0x012A0019#32 = .ok (.multu 9 10) := by decide
theorem test_decode_div : decode true 0x012A001A#32 = .ok (.div 9 10) := by decide
theorem test_decode_divu : decode true 0x012A001B#32 = .ok (.divu 9 10) := by decide
theorem test_decode_mfhi : decode true 0x00004010#32 = .ok (.mfhi 8) := by decide
theorem test_decode_mflo : decode true 0x00004012#32 = .ok (.mflo 8) := by decide
theorem test_decode_mthi : decode true 0x01200011#32 = .ok (.mthi 9) := by decide
theorem test_decode_mtlo : decode true 0x01200013#32 = .ok (.mtlo 9) := by decide
theorem test_decode_beq : decode true 0x11090003#32 = .ok (.beq 8 9 3) := by decide
theorem test_decode_bne : decode true 0x1509FFFE#32 = .ok (.bne 8 9 0xFFFE) := by decide
theorem test_decode_blez : decode true 0x19000001#32 = .ok (.blez 8 1) := by decide
theorem test_decode_bgtz : decode true 0x1D000001#32 = .ok (.bgtz 8 1) := by decide
theorem test_decode_bltz : decode true 0x05000001#32 = .ok (.bltz 8 1) := by decide
theorem test_decode_bgez : decode true 0x05010001#32 = .ok (.bgez 8 1) := by decide
theorem test_decode_bltzal : decode true 0x05100001#32 = .ok (.bltzal 8 1) := by decide
theorem test_decode_bgezal : decode true 0x05110001#32 = .ok (.bgezal 8 1) := by decide
theorem test_decode_j : decode true 0x08100004#32 = .ok (.j 0x0100004) := by decide
theorem test_decode_jal : decode true 0x0C100004#32 = .ok (.jal 0x0100004) := by decide
theorem test_decode_jr : decode true 0x03E00008#32 = .ok (.jr 31) := by decide
theorem test_decode_jalr : decode true 0x01004009#32 = .ok (.jalr 8 8) := by decide
theorem test_decode_lb : decode true 0x81280003#32 = .ok (.lb 8 9 3) := by decide
theorem test_decode_lbu : decode true 0x91280000#32 = .ok (.lbu 8 9 0) := by decide
theorem test_decode_lh : decode true 0x85280002#32 = .ok (.lh 8 9 2) := by decide
theorem test_decode_lhu : decode true 0x95280000#32 = .ok (.lhu 8 9 0) := by decide
theorem test_decode_lw : decode true 0x8FA8FFFC#32 = .ok (.lw 8 29 0xFFFC) := by decide
theorem test_decode_sb : decode true 0xA1280001#32 = .ok (.sb 8 9 1) := by decide
theorem test_decode_sh : decode true 0xA5280002#32 = .ok (.sh 8 9 2) := by decide
theorem test_decode_sw : decode true 0xAFA8FFFC#32 = .ok (.sw 8 29 0xFFFC) := by decide
theorem test_decode_syscall : decode true 0x0000000C#32 = .ok (.syscall) := by decide

/-- jalr with its two registers apart: rd = 31, rs = 25. -/
theorem test_decode_jalr_fields : decode true 0x0320F809#32 = .ok (.jalr 31 25) := by decide

/-! ### Words that are no instruction (spec/30_encoding.md R101, R102) -/

theorem test_decode_unknown_op : decode false 0xFC000000#32 = .error (.unknownOp 0x3F) := by decide
theorem test_decode_unknown_funct : decode false 0x00000001#32 = .error (.unknownFunct 0x01) := by decide
theorem test_decode_unknown_regimm : decode false 0x04020000#32 = .error (.unknownRegimm 0x02) := by decide
theorem test_decode_reserved_lenient : decode false 0x012A4060#32 = .ok (.add 8 9 10) := by decide
theorem test_decode_reserved_strict : decode true 0x012A4060#32 = .error (.reservedField 0x012A4060#32) := by decide
theorem test_decode_syscall_code : decode true 0x03FFFFCC#32 = .ok .syscall := by decide
theorem test_decode_truncated : decodeBytes false [0x01, 0x2A, 0x40] = .error .truncated := by decide
theorem test_decode_big_endian : decodeBytes false [0x01, 0x2A, 0x40, 0x20, 0x55] = .ok (.add 8 9 10, [0x55]) := by decide

/-! ### WellFormed: an operand that each check refuses, and the boundary it accepts (spec/30_encoding.md R115 to R118) -/

theorem test_fits_signed : fitsSigned16 32767 = true ∧ fitsSigned16 32768 = false ∧ fitsSigned16 (-32769) = false := by decide
theorem test_fits_unsigned : fitsUnsigned16 65535 = true ∧ fitsUnsigned16 65536 = false ∧ fitsUnsigned16 (-1) = false := by
  decide
theorem test_fits_shamt : fitsShamt 31 = true ∧ fitsShamt 32 = false ∧ fitsShamt (-1) = false := by decide
theorem test_branch_aligned : branchAligned 0x00400000#32 0x00400010#32 = true ∧ branchAligned 0x00400000#32 0x00400012#32 = false := by
  decide
theorem test_branch_range : branchInRange 0x00400000#32 0x00420000#32 = true ∧ branchInRange 0x00400000#32 0x00420004#32 = false := by
  decide
theorem test_jump_aligned : jumpAligned 0x00400010#32 = true ∧ jumpAligned 0x00400011#32 = false := by decide
theorem test_jump_region : jumpInRegion 0x00400000#32 0x0FFFFFFC#32 = true ∧ jumpInRegion 0x00400000#32 0x10000000#32 = false := by
  decide
theorem test_immediate_refused : checked (fitsSigned16 32768) (.immediateRange 32768) (.addiu 8 0 (half 32768)) =
    .error (.encoding (.immediateRange 32768)) := by decide

/-! ### load refuses (spec/70_reset_and_hazards.md R331) -/

/-- What load refuses first. -/
def refusal (c : Config) (text data : List Byte) : Option LoadError :=
  (loadErrors c { text := text, data := data, entry := c.textBase }).head?

theorem test_load_accepts : refusal Config.default [0, 0, 0, 0x0C] [1, 2, 3] = none := by decide
theorem test_load_text_length : refusal Config.default [0, 0] [] = some .textLength := by decide
theorem test_load_text_base : refusal { textBase := 0x00400002#32 } [] [] = some (.misalignedBase .text) := by decide
theorem test_load_stack_size : refusal { stackSize := 6 } [] [] = some .stackSize := by decide
theorem test_load_data_size : refusal { dataSize := some 2 } [] [1, 2, 3] = some .dataSize := by decide
theorem test_load_wraps : refusal { stackTop := 0x00001000#32 } [] [] = some (.wraps .stack) := by decide
theorem test_load_overlap : refusal { dataBase := 0x00400000#32 } [0, 0, 0, 0] [1] = some (.overlap .text .data) := by decide

/-! ### One step (spec/95_test_vectors.md, table L2) -/

theorem test_add_overflow : after State.lastFault (one 0x012A4020#32 [(9, 0x7FFFFFFF#32), (10, 1#32)]) = some (faultAt (.integerOverflow)) := by decide
theorem test_add_wraps : after (regPc 8) (start { overflowTraps := false } [0x012A4020#32] [] [(9, 0x7FFFFFFF#32), (10, 1#32)]) =
    some (0x80000000#32, 0x00400004#32) := by decide
theorem test_add_zero_traps : after State.lastFault (one 0x012A0020#32 [(9, 0x7FFFFFFF#32), (10, 1#32)]) = some (faultAt (.integerOverflow)) := by decide
theorem test_add_zero : after (regPc 0) (one 0x012A0020#32 [(9, 1#32), (10, 2#32)]) = some (0#32, 0x00400004#32) := by decide
theorem test_addu : after (regPc 8) (one 0x012A4021#32 [(9, 0x7FFFFFFF#32), (10, 1#32)]) = some (0x80000000#32, 0x00400004#32) := by decide
theorem test_sub_overflow : after State.lastFault (one 0x012A4022#32 [(9, 0x80000000#32), (10, 1#32)]) = some (faultAt (.integerOverflow)) := by decide
theorem test_sub : after (regPc 8) (one 0x012A4022#32 [(9, 3#32), (10, 5#32)]) = some (0xFFFFFFFE#32, 0x00400004#32) := by decide
theorem test_subu : after (regPc 8) (one 0x012A4023#32 [(9, 0#32), (10, 1#32)]) = some (0xFFFFFFFF#32, 0x00400004#32) := by decide
theorem test_and : after (regPc 8) (one 0x012A4024#32 [(9, 0xF0F0F0F0#32), (10, 0xFF00FF00#32)]) = some (0xF000F000#32, 0x00400004#32) := by decide
theorem test_or : after (regPc 8) (one 0x012A4025#32 [(9, 0xF0F0F0F0#32), (10, 0xFF00FF00#32)]) = some (0xFFF0FFF0#32, 0x00400004#32) := by decide
theorem test_xor : after (regPc 8) (one 0x012A4026#32 [(9, 0xF0F0F0F0#32), (10, 0xFF00FF00#32)]) = some (0x0FF00FF0#32, 0x00400004#32) := by decide
theorem test_nor : after (regPc 8) (one 0x012A4027#32 [(9, 0xF0F0F0F0#32), (10, 0xFF00FF00#32)]) = some (0x000F000F#32, 0x00400004#32) := by decide
theorem test_slt : after (regPc 8) (one 0x012A402A#32 [(9, 0xFFFFFFFF#32), (10, 1#32)]) = some (1#32, 0x00400004#32) := by decide
theorem test_sltu : after (regPc 8) (one 0x012A402B#32 [(9, 0xFFFFFFFF#32), (10, 1#32), (8, 7#32)]) = some (0#32, 0x00400004#32) := by decide
theorem test_addi : after (regPc 8) (one 0x2128FFFF#32 []) = some (0xFFFFFFFF#32, 0x00400004#32) := by decide
theorem test_addi_overflow : after State.lastFault (one 0x21280001#32 [(9, 0x7FFFFFFF#32)]) = some (faultAt (.integerOverflow)) := by decide
theorem test_addiu : after (regPc 8) (one 0x2528FFFF#32 []) = some (0xFFFFFFFF#32, 0x00400004#32) := by decide
theorem test_slti : after (regPc 8) (one 0x2928FFFF#32 [(9, 0xFFFFFFFE#32)]) = some (1#32, 0x00400004#32) := by decide
theorem test_sltiu : after (regPc 8) (one 0x2D28FFFF#32 [(9, 0xFFFFFFFE#32)]) = some (1#32, 0x00400004#32) := by decide
theorem test_sltiu_one : after (regPc 8) (one 0x2D280001#32 []) = some (1#32, 0x00400004#32) := by decide
theorem test_andi : after (regPc 8) (one 0x3128FF00#32 [(9, 0xFFFFFFFF#32)]) = some (0x0000FF00#32, 0x00400004#32) := by decide
theorem test_ori : after (regPc 8) (one 0x35288000#32 [(9, 0x00010000#32)]) = some (0x00018000#32, 0x00400004#32) := by decide
theorem test_xori : after (regPc 8) (one 0x3928FFFF#32 [(9, 0x12345678#32)]) = some (0x1234A987#32, 0x00400004#32) := by decide
theorem test_lui : after (regPc 8) (one 0x3C081234#32 []) = some (0x12340000#32, 0x00400004#32) := by decide
theorem test_sll : after (regPc 8) (one 0x00094100#32 [(9, 0x80000001#32)]) = some (0x00000010#32, 0x00400004#32) := by decide
theorem test_sll_31 : after (regPc 8) (one 0x000947C0#32 [(9, 3#32)]) = some (0x80000000#32, 0x00400004#32) := by decide
theorem test_srl : after (regPc 8) (one 0x00094102#32 [(9, 0x80000001#32)]) = some (0x08000000#32, 0x00400004#32) := by decide
theorem test_sra : after (regPc 8) (one 0x00094103#32 [(9, 0x80000001#32)]) = some (0xF8000000#32, 0x00400004#32) := by decide
theorem test_sllv : after (regPc 8) (one 0x01494004#32 [(9, 0x80000001#32), (10, 36#32)]) = some (0x00000010#32, 0x00400004#32) := by decide
theorem test_srlv : after (regPc 8) (one 0x01494006#32 [(9, 0x80000001#32), (10, 4#32)]) = some (0x08000000#32, 0x00400004#32) := by decide
theorem test_srav : after (regPc 8) (one 0x01494007#32 [(9, 0x80000001#32), (10, 0xFFFFFFFF#32)]) = some (0xFFFFFFFF#32, 0x00400004#32) := by decide

theorem test_mult : after (fun t => (t.hi, t.lo)) (hilo 0x012A0018#32 [(9, 0xFFFFFFFE#32), (10, 3#32)]) = some (0xFFFFFFFF#32, 0xFFFFFFFA#32) := by decide
theorem test_mult_min : after (fun t => (t.hi, t.lo)) (hilo 0x012A0018#32 [(9, 0x80000000#32), (10, 0x80000000#32)]) = some (0x40000000#32, 0#32) := by decide
theorem test_multu : after (fun t => (t.hi, t.lo)) (hilo 0x012A0019#32 [(9, 0xFFFFFFFF#32), (10, 0xFFFFFFFF#32)]) = some (0xFFFFFFFE#32, 1#32) := by decide
theorem test_div : after (fun t => (t.hi, t.lo)) (hilo 0x012A001A#32 [(9, 0xFFFFFFF9#32), (10, 2#32)]) = some (0xFFFFFFFF#32, 0xFFFFFFFD#32) := by decide
theorem test_div_zero : after (fun t => (t.lastFault, t.hi, t.lo)) (hilo 0x012A001A#32 [(9, 7#32)]) =
    some (faultAt .divideByZero, 0x11111111#32, 0x22222222#32) := by decide
theorem test_divu : after (fun t => (t.hi, t.lo)) (hilo 0x012A001B#32 [(9, 0xFFFFFFF9#32), (10, 2#32)]) = some (1#32, 0x7FFFFFFC#32) := by decide
theorem test_divu_zero : after State.lastFault (hilo 0x012A001B#32 [(9, 7#32)]) = some (faultAt (.divideByZero)) := by decide
theorem test_div_overflow : after State.lastFault (hilo 0x012A001A#32 [(9, 0x80000000#32), (10, 0xFFFFFFFF#32)]) = some (faultAt (.divideOverflow)) := by decide
theorem test_div_wrap : after (fun t => (t.hi, t.lo))
    (start { divOverflow := .wrap } [0x012A001A#32] [] [(9, 0x80000000#32), (10, 0xFFFFFFFF#32)]) =
    some (0#32, 0x80000000#32) := by decide
theorem test_mfhi : after (regPc 8) (hilo 0x00004010#32 []) = some (0x11111111#32, 0x00400004#32) := by decide
theorem test_mflo : after (regPc 8) (hilo 0x00004012#32 []) = some (0x22222222#32, 0x00400004#32) := by decide
theorem test_mthi : after (fun t => (t.hi, t.lo)) (hilo 0x01200011#32 [(9, 0xDEADBEEF#32)]) = some (0xDEADBEEF#32, 0x22222222#32) := by decide
theorem test_mtlo : after (fun t => (t.hi, t.lo)) (hilo 0x01200013#32 [(9, 0xDEADBEEF#32)]) = some (0x11111111#32, 0xDEADBEEF#32) := by decide

theorem test_beq : after State.pc (one 0x11080003#32 []) = some 0x00400010#32 := by decide
theorem test_beq_not_taken : after State.pc (one 0x11090003#32 [(9, 1#32)]) = some 0x00400004#32 := by decide
theorem test_bne : after State.pc (one 0x1509FFFE#32 [(9, 1#32)]) = some 0x003FFFFC#32 := by decide
theorem test_bne_not_taken : after State.pc (one 0x1509FFFE#32 []) = some 0x00400004#32 := by decide
theorem test_blez : after State.pc (one 0x19000001#32 []) = some 0x00400008#32 := by decide
theorem test_blez_not_taken : after State.pc (one 0x19000001#32 [(8, 1#32)]) = some 0x00400004#32 := by decide
theorem test_bgtz : after State.pc (one 0x1D000001#32 [(8, 0x7FFFFFFF#32)]) = some 0x00400008#32 := by decide
theorem test_bgtz_not_taken : after State.pc (one 0x1D000001#32 []) = some 0x00400004#32 := by decide
theorem test_bltz : after State.pc (one 0x05000001#32 [(8, 0x80000000#32)]) = some 0x00400008#32 := by decide
theorem test_bltz_not_taken : after State.pc (one 0x05000001#32 []) = some 0x00400004#32 := by decide
theorem test_bgez : after State.pc (one 0x05010001#32 []) = some 0x00400008#32 := by decide
theorem test_bgez_not_taken : after State.pc (one 0x05010001#32 [(8, 0x80000000#32)]) = some 0x00400004#32 := by decide
theorem test_bltzal : after (regPc 31) (one 0x05100001#32 []) = some (0x00400004#32, 0x00400004#32) := by decide
theorem test_bgezal : after (regPc 31) (one 0x05110001#32 []) = some (0x00400004#32, 0x00400008#32) := by decide
theorem test_bgezal_old_ra : after (regPc 31) (one 0x07F10001#32 [(31, 0x80000000#32)]) = some (0x00400004#32, 0x00400004#32) := by decide
theorem test_j : after State.pc (one 0x08100004#32 []) = some 0x00400010#32 := by decide
theorem test_j_region : after State.pc (start { textBase := 0x0FFFFFFC#32, jRegion := .pcPlus4 } [0x08000000#32] [] []) =
    some 0x10000000#32 := by decide
theorem test_jal : after (regPc 31) (one 0x0C100004#32 []) = some (0x00400004#32, 0x00400010#32) := by decide
theorem test_jr : after State.pc (one 0x03E00008#32 [(31, 0x00400004#32)]) = some 0x00400004#32 := by decide
theorem test_jalr : after (regPc 31) (one 0x0320F809#32 [(25, 0x00400008#32)]) = some (0x00400004#32, 0x00400008#32) := by decide
theorem test_jalr_same : after (regPc 8) (one 0x01004009#32 [(8, 0x00400008#32)]) = some (0x00400004#32, 0x00400008#32) := by decide

theorem test_lb : after (regPc 8) (mem 0x81280000#32 [(9, 0x10010000#32)]) = some (0xFFFFFF80#32, 0x00400004#32) := by decide
theorem test_lb_odd : after (regPc 8) (mem 0x81280003#32 [(9, 0x10010000#32)]) = some (0x00000001#32, 0x00400004#32) := by decide
theorem test_lbu : after (regPc 8) (mem 0x91280000#32 [(9, 0x10010000#32)]) = some (0x00000080#32, 0x00400004#32) := by decide
theorem test_lh : after (regPc 8) (mem 0x85280002#32 [(9, 0x10010000#32)]) = some (0xFFFFFE01#32, 0x00400004#32) := by decide
theorem test_lh_misaligned : after State.lastFault (mem 0x85280001#32 [(9, 0x10010000#32)]) = some (faultAt (.addressErrorLoad 0x10010001#32)) := by decide
theorem test_lhu : after (regPc 8) (mem 0x95280000#32 [(9, 0x10010000#32)]) = some (0x0000807F#32, 0x00400004#32) := by decide
theorem test_lw : after (regPc 8) (mem 0x8D28FFFC#32 [(9, 0x10010004#32)]) = some (0x807FFE01#32, 0x00400004#32) := by decide
theorem test_lw_unbacked : after State.lastFault (mem 0x8D280010#32 [(9, 0x10010000#32)]) = some (faultAt (.accessFaultLoad 0x10010010#32)) := by decide
theorem test_sb : after (fun t => t.bytesAt 0x10010000#32 4) (mem 0xA1280001#32 [(8, 0x12345678#32), (9, 0x10010000#32)]) =
    some [0x80, 0x78, 0xFE, 0x01] := by decide
theorem test_sh : after (fun t => t.bytesAt 0x10010000#32 4) (mem 0xA5280002#32 [(8, 0x12345678#32), (9, 0x10010000#32)]) =
    some [0x80, 0x7F, 0x56, 0x78] := by decide
theorem test_sh_misaligned : after State.lastFault (mem 0xA5280003#32 [(8, 1#32), (9, 0x10010000#32)]) = some (faultAt (.addressErrorStore 0x10010003#32)) := by decide
theorem test_sw : after (fun t => t.bytesAt 0x7FFFEFFC#32 4) (mem 0xAFA8FFFC#32 [(8, 0xCAFEBABE#32)]) =
    some [0xCA, 0xFE, 0xBA, 0xBE] := by decide
theorem test_sw_stack_top : after State.lastFault (mem 0xAFA80000#32 [(8, 0xCAFEBABE#32)]) = some (faultAt (.accessFaultStore 0x7FFFF000#32)) := by decide

theorem test_print_integer : after State.output (sys [] [(2, 1#32), (4, 0xFFFFFFF9#32)]) = some [[0x2D, 0x37]] := by decide
theorem test_print_integer_zero : after State.output (sys [] [(2, 1#32)]) = some [[0x30]] := by decide
theorem test_print_string : after (fun t => (t.output, t.pc)) (sys [] [(2, 4#32), (4, 0x10010000#32)]) =
    some ([[0x68, 0x69]], 0x00400004#32) := by decide
theorem test_print_string_fault : after (fun t => (t.output, t.lastFault))
    (start { dataSize := some 4 } [0x0000000C#32] [0x61, 0x62, 0x63, 0x64] [(2, 4#32), (4, 0x10010000#32)]) =
    some ([], faultAt (.accessFaultLoad 0x10010004#32)) := by decide
theorem test_read_integer : after (regPc 2) (sys [.line " 42 ".toList] [(2, 5#32)]) = some (0x2A#32, 0x00400004#32) := by decide
theorem test_read_integer_range : after State.lastFault (sys [.line "2147483648".toList] [(2, 5#32)]) =
    some (faultAt (.inputError .malformed)) := by decide
theorem test_read_string : after (fun t => (t.bytesAt 0x10010000#32 5, t.answers))
    (sys [.line "hello".toList] [(2, 8#32), (4, 0x10010000#32), (5, 4#32)]) =
    some ([0x68, 0x65, 0x6C, 0x00, 0x00], []) := by decide
theorem test_read_string_fault : after (fun t => (t.lastFault, t.byteAt 0x1001000E#32, t.answers))
    (sys [.line "hello".toList] [(2, 8#32), (4, 0x1001000E#32), (5, 8#32)]) =
    some (faultAt (.accessFaultStore 0x10010010#32), 0x00, []) := by decide
theorem test_exit : after (fun t => (t.status, t.pc)) (sys [] [(2, 10#32)]) = some (.halted, 0x00400004#32) := by decide
theorem test_unknown_syscall : after State.lastFault (sys [] [(2, 11#32)]) = some (faultAt (.unknownSyscall 11#32)) := by decide

/-! ### Fetch (spec/10_state.md R33, R36, R37) and the host's operations (spec/70_reset_and_hazards.md) -/

theorem test_fetch_end : after (fun t => (t.status, t.pc)) (start Config.default [] [] []) = some (.halted, 0x00400000#32) := by
  decide
theorem test_fetch_misaligned : after State.lastFault ((one 0#32 []).commit 0x00400002#32) =
    some (some { kind := .addressErrorFetch 0x00400002#32, pc := 0x00400002#32 }) := by decide
theorem test_fetch_outside : after State.lastFault ((one 0#32 []).commit 0x10010000#32) =
    some (some { kind := .accessFaultFetch 0x10010000#32, pc := 0x10010000#32 }) := by decide
theorem test_illegal_message : (after State.stepResult (one 0xFC000000#32 [])).bind StepResult.message =
    some "illegal instruction at address 0x00400000".toList := by decide
theorem test_strict_illegal : after State.lastFault (start { strictFields := true } [0x012A4060#32] [] [(9, 1#32), (10, 2#32)]) =
    some (faultAt (.illegalInstruction 0x012A4060#32)) := by decide
theorem test_read_register : State.reset.readRegister 29 = .ok 2147479552 ∧ State.reset.readRegister 32 = .error (.registerIndex 32) := by
  decide
theorem test_read_memory : (mem 0#32 []).readMemory 0x10010001#32 2 = .ok [0x7F, 0xFE] ∧
    (mem 0#32 []).readMemory 0x1001000F#32 2 = .error (.unbacked 0x10010010#32) := by decide

/-! ### The assembler (spec/95_test_vectors.md S2, S9, table "Assembler expansions") -/

/-- The text bytes of an assembled source. -/
def textOf (source : String) : Option (List Byte) :=
  match assemble Config.default source.toList with
  | .ok a => some a.program.image.text
  | .error _ => none

theorem test_asm_branch : textOf "L: addi $t0,$t0,1\nbne $t0,$t1,L" =
    some [0x21, 0x08, 0x00, 0x01, 0x15, 0x09, 0xFF, 0xFE] := by decide
theorem test_asm_li_one : textOf "li $t0,-1" = some [0x24, 0x08, 0xFF, 0xFF] := by decide
theorem test_asm_li_two : textOf "li $t0,0x8000" = some [0x3C, 0x08, 0x00, 0x00, 0x35, 0x08, 0x80, 0x00] := by decide
theorem test_asm_move : textOf "move $a0,$t1" = some [0x01, 0x20, 0x20, 0x20] := by decide
theorem test_asm_duplicate : assemble Config.default "a: nop\na: nop".toList = .error [.duplicateLabel ['a'] 1 2] := by decide
theorem test_asm_range : assemble Config.default "addiu $t0,$t0,32768".toList =
    .error [.atLine 1 (.encoding (.immediateRange 32768))] := by decide

/-! ### Witnesses: the hypotheses of each obligation are met together -/

/-- A reading of the state after one instruction. -/
def does (p : State → Bool) (i : Instr) (s : State) : Bool :=
  match exec i s with
  | .next t => p t
  | .fault _ => false
  | .refused _ => false

theorem does_next {p : State → Prop} [DecidablePred p] {i : Instr} {s : State} (h : does (fun t => decide (p t)) i s = true) :
    ∃ t, exec i s = .next t ∧ p t := by
  unfold does at h
  split at h
  next t ht => exact ⟨t, ht, of_decide_eq_true h⟩
  · cases h
  · cases h

theorem after_next {α : Type} {read : State → α} {s : State} {v : α} (h : after read s = some v) :
    ∃ t, step s = .next t ∧ read t = v := by
  unfold after at h
  split at h
  next t ht => exact ⟨t, ht, Option.some.inj h⟩
  · cases h
  · cases h

/-- A loadable configuration and image: one `syscall`, one data byte. -/
def someConfig : Config := { dataSize := some 16 }
/-- See `someConfig`. -/
def someImage : ProgramImage :=
  { image := { text := [0x00, 0x00, 0x00, 0x0C], data := [0x68], entry := 0x00400000#32 }, symbols := [] }

theorem witness_load : load someConfig someImage = .ok (State.reset.loaded someConfig someImage.image) := by decide

theorem witness_LoadGivesTheSpecState : ∃ c p s, load c p = .ok s := ⟨_, _, _, witness_load⟩

theorem witness_HostReset : ∃ c p s₀ t, load c p = .ok s₀ ∧ HostReaches s₀ t := by
  have h : after (fun t => (t.writeMemory 0x10010000#32 [0xAB]).isOk) (State.reset.loaded someConfig someImage.image) =
      some true := by decide
  obtain ⟨s, hs, hw⟩ := after_next h
  refine ⟨someConfig, someImage, State.reset.loaded someConfig someImage.image, ?_⟩
  cases hx : s.writeMemory 0x10010000#32 [0xAB] with
  | ok t => exact ⟨t, witness_load, .write _ _ (.step .start hs) hx⟩
  | error e => rw [hx] at hw; cases hw

theorem witness_fetchable (w : Word) : Fetchable (one w []) := by
  have hp : (one w []).pc = 0x00400000#32 := rfl
  exact ⟨Or.inl rfl, by rw [hp]; decide, Nat.le_refl _, Nat.le_refl _⟩

theorem witness_StepRuns : ∃ s i, Fetchable s ∧ decode s.config.strictFields (wordAtPc s) = .ok i :=
  ⟨one 0x012A4020#32 [], .add 8 9 10, witness_fetchable _, by decide⟩

theorem witness_OffTheTable : ∃ s, Fetchable s ∧ ¬Admitted (wordAtPc s) :=
  ⟨one 0xFC000000#32 [], witness_fetchable _, by unfold Admitted; decide⟩
theorem witness_OffTheTable_special : ∃ s, Fetchable s ∧ ¬Admitted (wordAtPc s) :=
  ⟨one 0x00000001#32 [], witness_fetchable _, by unfold Admitted; decide⟩
theorem witness_OffTheTable_regimm : ∃ s, Fetchable s ∧ ¬Admitted (wordAtPc s) :=
  ⟨one 0x04020000#32 [], witness_fetchable _, by unfold Admitted; decide⟩

theorem witness_FetchChecks_misaligned : ∃ s, Live s ∧ s.pc.toNat % 4 ≠ 0 :=
  ⟨(one 0#32 []).commit 0x00400001#32, Or.inr rfl, by decide⟩
theorem witness_FetchChecks_end : ∃ s, Live s ∧ s.pc.toNat % 4 = 0 ∧
    s.pc.toNat = s.config.textBase.toNat + s.image.text.length :=
  ⟨(one 0#32 []).commit 0x00400004#32, Or.inr rfl, by decide, by decide⟩
theorem witness_FetchChecks_below : ∃ s, Live s ∧ s.pc.toNat % 4 = 0 ∧
    s.pc.toNat ≠ s.config.textBase.toNat + s.image.text.length ∧ s.pc.toNat < s.config.textBase.toNat :=
  ⟨(one 0#32 []).commit 0x003FFFFC#32, Or.inr rfl, by decide, by decide, by decide⟩
theorem witness_FetchChecks_above : ∃ s, Live s ∧ s.pc.toNat % 4 = 0 ∧
    s.pc.toNat ≠ s.config.textBase.toNat + s.image.text.length ∧
    s.config.textBase.toNat + s.image.text.length < s.pc.toNat :=
  ⟨(one 0#32 []).commit 0x00400008#32, Or.inr rfl, by decide, by decide, by decide⟩

theorem witness_Terminal_halted : ∃ s : State, s.status = .halted := ⟨(one 0#32 []).halt, rfl⟩
theorem witness_Terminal_faulted : ∃ s : State, s.status = .faulted := ⟨(one 0#32 []).raise .divideByZero, rfl⟩

theorem witness_FetchSeesTheStore : ∃ s t, exec (.sw 8 9 4#16) s = .next t ∧ Fetchable t ∧ t.pc = s.effAddr 9 4#16 ∧
    decode t.config.strictFields (s.reg 8) = .ok .syscall := by
  have h : does (fun t => decide (t.status = .running ∧ t.pc = 0x00400004#32 ∧ t.config = Config.default ∧
      t.image.text.length = 8)) (.sw 8 9 4#16)
      (start Config.default [0#32, 0#32] [] [(8, 0x0000000C#32), (9, 0x00400000#32)]) = true := by decide
  obtain ⟨t, ht, hr, hp, hc, hl⟩ := does_next h
  refine ⟨_, t, ht, ⟨Or.inr hr, ?_, ?_, ?_⟩, hp, ?_⟩
  · rw [hp]; decide
  · rw [hp, hc]; decide
  · rw [hp, hc, hl]; decide
  · rw [hc]; decide

/-- A consistent state. -/
theorem witness_consistent : Consistent (mem 0xA1280001#32 [(8, 0x12345678#32), (9, 0x10010000#32)]) :=
  ⟨by decide, by decide, by decide, by decide⟩
theorem witness_EveryStepKeeps : ∃ s t, Consistent s ∧ step s = .next t :=
  have h : after State.status (mem 0xA1280001#32 [(8, 0x12345678#32), (9, 0x10010000#32)]) = some .running := by decide
  (after_next h).elim fun t ht => ⟨_, t, witness_consistent, ht.1⟩
theorem witness_HostMakes : ∃ s t, Consistent s ∧ s.writeMemory 0x10010000#32 [0xAB] = .ok t :=
  ⟨mem 0xA1280001#32 [(8, 0x12345678#32), (9, 0x10010000#32)], _, witness_consistent, by rfl⟩

theorem witness_EncodeDecode : ∃ w i, decode false w = .ok i ∧ i ≠ .syscall ∧ ZeroFields w i :=
  ⟨0x012A4020#32, .add 8 9 10, by decide, by decide, show fieldShamt _ = 0 by decide⟩
theorem witness_StrictFields_zero : ∃ w i, decode false w = .ok i ∧ ZeroFields w i :=
  ⟨0x012A4020#32, .add 8 9 10, by decide, show fieldShamt _ = 0 by decide⟩
theorem witness_StrictFields_nonzero : ∃ w i, decode false w = .ok i ∧ ¬ZeroFields w i :=
  ⟨0x012A4060#32, .add 8 9 10, by decide, show ¬fieldShamt _ = 0 by decide⟩

theorem witness_OnlyTheDestination : ∃ t, exec (.addu 8 9 10) (one 0#32 [(9, 5#32)]) = .next t ∧
    t.reg 8 ≠ (one 0#32 [(9, 5#32)]).reg 8 := does_next (by decide)
theorem witness_OnlyTheDestination_syscall : ∃ t, exec .syscall (sys [.line ['7']] [(2, 5#32)]) = .next t ∧
    t.reg 2 ≠ (sys [.line ['7']] [(2, 5#32)]).reg 2 := does_next (by decide)
theorem witness_WritesHiLo : ∃ t, exec (.mult 9 9) (one 0#32 [(9, 5#32)]) = .next t ∧ t.lo ≠ (one 0#32 [(9, 5#32)]).lo :=
  does_next (by decide)
theorem witness_ReadsHiLo : (∀ rd, Instr.mthi 9 ≠ .mfhi rd ∧ Instr.mthi 9 ≠ .mflo rd) ∧
    ∃ t, exec (.mthi 9) (one 0#32 []) = .next t := ⟨fun _ => ⟨nofun, nofun⟩, _, rfl⟩
theorem witness_OnlyStores : ∃ t, exec (.sb 8 9 0) (mem 0#32 [(8, 1#32), (9, 0x10010000#32)]) = .next t ∧
    t.byteAt 0x10010000#32 ≠ (mem 0#32 [(8, 1#32), (9, 0x10010000#32)]).byteAt 0x10010000#32 := does_next (by decide)
theorem witness_OnlyStores_syscall : ∃ t,
    exec .syscall (sys [.line ['7']] [(2, 8#32), (4, 0x10010000#32), (5, 1#32)]) = .next t ∧
    t.byteAt 0x10010000#32 ≠ (sys [.line ['7']] [(2, 8#32), (4, 0x10010000#32), (5, 1#32)]).byteAt 0x10010000#32 :=
  does_next (by decide)
theorem witness_FaultedSteps : ∃ s t, Live s ∧ step s = .next t ∧ t.status = .faulted :=
  have h : after State.status (mem 0x8D280010#32 [(9, 0x10010000#32)]) = some .faulted := by decide
  (after_next h).elim fun t ht => ⟨_, t, Or.inl rfl, ht.1, ht.2⟩
theorem witness_FaultKinds : ∃ s t, s.status ≠ .faulted ∧ exec (.lw 8 9 16) s = .next t ∧ t.status = .faulted :=
  have h : does (fun t => decide (t.status = .faulted)) (.lw 8 9 16) (mem 0#32 [(9, 0x10010000#32)]) = true := by decide
  (does_next h).elim fun t ht => ⟨_, t, by decide, ht.1, ht.2⟩
theorem witness_OnlyControl : isControl .syscall = false ∧
    ∃ t, exec .syscall (sys [] [(2, 1#32)]) = .next t ∧ t.status ≠ .faulted := ⟨rfl, does_next (by decide)⟩
theorem witness_OnlySyscall : ∃ t, exec .syscall (sys [] [(2, 1#32)]) = .next t ∧ t.output ≠ [] := does_next (by decide)

theorem witness_Trapping_high : (one 0#32 []).config.overflowTraps = true ∧
    2 ^ 31 - 1 < ((one 0#32 [(9, 0x7FFFFFFF#32), (10, 1#32)]).reg 9).toInt + ((one 0#32 [(9, 0x7FFFFFFF#32), (10, 1#32)]).reg 10).toInt := by
  decide
theorem witness_Trapping_low : (one 0#32 []).config.overflowTraps = true ∧
    ((one 0#32 [(9, 0x80000000#32), (10, 1#32)]).reg 9).toInt - ((one 0#32 [(9, 0x80000000#32), (10, 1#32)]).reg 10).toInt < -2 ^ 31 := by
  decide
theorem witness_Trapping_fits : -2 ^ 31 ≤ ((one 0#32 [(9, 0x7FFFFFFE#32)]).reg 9).toInt + (1#16).toInt ∧
    ((one 0#32 [(9, 0x7FFFFFFE#32)]).reg 9).toInt + (1#16).toInt ≤ 2 ^ 31 - 1 := by decide
theorem witness_Trapping_off : (start { overflowTraps := false } [] [] []).config.overflowTraps = false := by decide

theorem witness_SignedDivide_zero : (one 0#32 [(9, 7#32)]).reg 10 = 0#32 := by decide
theorem witness_SignedDivide_overflow : ∃ s : State, s.reg 9 = 0x80000000#32 ∧ s.reg 10 = 0xFFFFFFFF#32 ∧ s.config.divOverflow = .fault :=
  ⟨one 0#32 [(9, 0x80000000#32), (10, 0xFFFFFFFF#32)], by decide, by decide, by decide⟩
theorem witness_SignedDivide_wrap : ∃ s : State, s.reg 9 = 0x80000000#32 ∧ s.reg 10 = 0xFFFFFFFF#32 ∧ s.config.divOverflow = .wrap :=
  ⟨start { divOverflow := .wrap } [] [] [(9, 0x80000000#32), (10, 0xFFFFFFFF#32)], by decide, by decide, by decide⟩
theorem witness_SignedDivide : ∃ s : State, s.reg 10 ≠ 0#32 ∧ ¬(s.reg 9 = 0x80000000#32 ∧ s.reg 10 = 0xFFFFFFFF#32) :=
  ⟨one 0#32 [(9, 0x80000000#32), (10, 1#32)], by decide, by decide⟩
theorem witness_UnsignedDivide : ∃ s : State, s.reg 10 ≠ 0#32 := ⟨one 0#32 [(10, 1#32)], by decide⟩
theorem witness_DivisionLaws : ∃ s t, t.status = .running ∧ exec (.div 9 10) s = .next t ∧ s.config.divOverflow = .fault :=
  have h : does (fun t => decide (t.status = .running)) (.div 9 10) (one 0#32 [(9, 0xFFFFFFF9#32), (10, 2#32)]) = true := by
    decide
  (does_next h).elim fun t ht => ⟨_, t, ht.2, ht.1, by decide⟩
theorem witness_DivisionLaws_unsigned : ∃ s t, t.status = .running ∧ exec (.divu 9 10) s = .next t :=
  have h : does (fun t => decide (t.status = .running)) (.divu 9 10) (one 0#32 [(9, 0xFFFFFFF9#32), (10, 2#32)]) = true := by
    decide
  (does_next h).elim fun t ht => ⟨_, t, ht.2, ht.1⟩

theorem witness_BadTargets_misaligned : isControl (.jr 9) = true ∧
    ∃ t, exec (.jr 9) (one 0#32 [(9, 0x00400002#32)]) = .next t ∧ t.pc.toNat % 4 ≠ 0 := ⟨rfl, does_next (by decide)⟩
theorem witness_BadTargets_end : isControl (.jr 9) = true ∧ ∃ t, exec (.jr 9) (one 0#32 [(9, 0x00400004#32)]) = .next t ∧
    (t.pc.toNat % 4 = 0 ∧ t.pc.toNat = t.config.textBase.toNat + t.image.text.length) := ⟨rfl, does_next (by decide)⟩
theorem witness_BadTargets_outside : isControl (.jr 9) = true ∧ ∃ t, exec (.jr 9) (one 0#32 [(9, 0x10010000#32)]) = .next t ∧
    (t.pc.toNat % 4 = 0 ∧ t.config.textBase.toNat + t.image.text.length < t.pc.toNat) := ⟨rfl, does_next (by decide)⟩

/-- Data regions of 16 and of 6 bytes, the latter ending in the middle of a word. -/
def six : State := start { dataSize := some 6 } [] [] [(9, 0x10010000#32)]

theorem witness_ByteLoads_backed : (mem 0#32 [(9, 0x10010000#32)]).backed ((mem 0#32 [(9, 0x10010000#32)]).reg 9 + (15#16).signExtend 32) = true := by
  decide
theorem witness_ByteLoads_unbacked : (mem 0#32 [(9, 0x10010000#32)]).backed ((mem 0#32 [(9, 0x10010000#32)]).reg 9 + (16#16).signExtend 32) = false := by
  decide
theorem witness_Access_misaligned : (six.reg 9 + (1#16).signExtend 32).toNat % 2 ≠ 0 ∧ (six.reg 9 + (2#16).signExtend 32).toNat % 4 ≠ 0 := by
  decide
theorem witness_Access_backed : (six.reg 9 + (4#16).signExtend 32).toNat % 2 = 0 ∧
    (∀ k < 2, six.backed (six.reg 9 + (4#16).signExtend 32 + BitVec.ofNat 32 k) = true) ∧
    (six.reg 9 + (0#16).signExtend 32).toNat % 4 = 0 ∧
    ∀ k < 4, six.backed (six.reg 9 + (0#16).signExtend 32 + BitVec.ofNat 32 k) = true := by decide
theorem witness_Access_partly : (six.reg 9 + (4#16).signExtend 32).toNat % 4 = 0 ∧
    six.backed (six.reg 9 + (4#16).signExtend 32 + BitVec.ofNat 32 2) = false ∧
    ∀ j < 2, six.backed (six.reg 9 + (4#16).signExtend 32 + BitVec.ofNat 32 j) = true := by decide
theorem witness_Access_outside : (six.reg 9 + (6#16).signExtend 32).toNat % 2 = 0 ∧
    six.backed (six.reg 9 + (6#16).signExtend 32 + BitVec.ofNat 32 0) = false := by decide
theorem witness_Stores : ∃ s : State, s.effAddr 9 0xFFFF#16 = s.reg 9 + (0xFFFF#16).signExtend 32 ∧ s.backed (s.effAddr 9 0xFFFF#16) = true :=
  ⟨start { dataSize := some 6 } [] [] [(9, 0x10010001#32)], by decide, by decide⟩
theorem witness_StoredWords : ∃ s t, exec (.sw 8 9 0) s = .next t ∧ t.status = .running :=
  have h : does (fun t => decide (t.status = .running)) (.sw 8 9 0) six = true := by decide
  (does_next h).elim fun t ht => ⟨_, t, ht⟩

theorem witness_PrintInteger : (sys [] [(2, 1#32)]).reg 2#5 = 1#32 := by decide
theorem witness_PrintString : ∃ (s : State) (bs : List Byte), s.reg 2#5 = 4#32 ∧ bs.length < 2 ^ 32 ∧ (∀ b ∈ bs, b ≠ 0x00#8) ∧
    (∀ (k : Nat) (h : k < bs.length), s.backed (s.reg 4#5 + BitVec.ofNat 32 k) = true ∧
      s.byteAt (s.reg 4#5 + BitVec.ofNat 32 k) = bs[k]) ∧
    s.backed (s.reg 4#5 + BitVec.ofNat 32 bs.length) = true ∧ s.byteAt (s.reg 4#5 + BitVec.ofNat 32 bs.length) = 0x00#8 :=
  ⟨sys [] [(2, 4#32), (4, 0x10010000#32)], [0x68, 0x69], by decide, by decide, by decide, by decide, by decide, by decide⟩
theorem witness_PrintString_unbacked : ∃ (s : State) (bs : List Byte), s.reg 2#5 = 4#32 ∧ bs.length < 2 ^ 32 ∧ (∀ b ∈ bs, b ≠ 0x00#8) ∧
    (∀ (k : Nat) (h : k < bs.length), s.backed (s.reg 4#5 + BitVec.ofNat 32 k) = true ∧
      s.byteAt (s.reg 4#5 + BitVec.ofNat 32 k) = bs[k]) ∧
    s.backed (s.reg 4#5 + BitVec.ofNat 32 bs.length) = false :=
  ⟨start { dataSize := some 1 } [] [0x61] [(2, 4#32), (4, 0x10010000#32)], [0x61],
    by decide, by decide, by decide, by decide, by decide⟩

theorem witness_ReadInteger_exhausted : (sys [.exhausted] [(2, 5#32)]).reg 2#5 = 5#32 ∧
    NextAnswer (sys [.exhausted] [(2, 5#32)]) .exhausted := ⟨by decide, Or.inl rfl⟩
theorem witness_ReadInteger_line : (sys [.line " -2147483648\t".toList] [(2, 5#32)]).reg 2#5 = 5#32 ∧
    NextAnswer (sys [.line " -2147483648\t".toList] [(2, 5#32)]) (.line " -2147483648\t".toList) ∧
    IntegerLine " -2147483648\t".toList (-2147483648) :=
  ⟨by decide, Or.inl rfl, [' '], ['-'], ['2', '1', '4', '7', '4', '8', '3', '6', '4', '8'], ['\t'], by decide, by simp, by decide, by simp,
    Or.inr ⟨rfl, by rfl⟩, by omega, by omega⟩
theorem witness_ReadInteger_malformed : (sys [.line []] [(2, 5#32)]).reg 2#5 = 5#32 ∧
    NextAnswer (sys [.line []] [(2, 5#32)]) (.line []) ∧ ¬∃ v, IntegerLine [] v := by
  refine ⟨by decide, Or.inl rfl, ?_⟩
  rintro ⟨v, pre, sign, digits, post, h, -, hd, -⟩
  simp at h
  exact hd h.2.2.1
theorem witness_ReadString_exhausted : (sys [.exhausted] [(2, 8#32)]).reg 2#5 = 8#32 ∧
    NextAnswer (sys [.exhausted] [(2, 8#32)]) .exhausted := ⟨by decide, Or.inl rfl⟩
/-- A maximum length of 2: one byte and the NUL, in the last two bytes of the region; and from the last byte on. -/
theorem witness_ReadString_fits : ∃ s : State, s.reg 2#5 = 8#32 ∧ NextAnswer s (.line ['h', 'i']) ∧ (s.reg 5#5).toInt = 2 ∧
    ∀ k < 2, s.backed (s.reg 4#5 + BitVec.ofNat 32 k) = true :=
  ⟨sys [.line ['h', 'i']] [(2, 8#32), (4, 0x1001000E#32), (5, 2#32)], by decide, Or.inl rfl, by decide, by decide⟩
theorem witness_ReadString_unbacked : ∃ s : State, s.reg 2#5 = 8#32 ∧ NextAnswer s (.line ['h', 'i']) ∧ (s.reg 5#5).toInt = 2 ∧
    s.backed (s.reg 4#5 + BitVec.ofNat 32 1) = false ∧ ∀ j < 1, s.backed (s.reg 4#5 + BitVec.ofNat 32 j) = true :=
  ⟨sys [.line ['h', 'i']] [(2, 8#32), (4, 0x1001000F#32), (5, 2#32)], by decide, Or.inl rfl, by decide, by decide, by decide⟩
theorem witness_Exit : (sys [] [(2, 10#32)]).reg 2#5 = 10#32 := by decide
theorem witness_UnknownCode : ((sys [] [(2, 0xFFFFFFFF#32)]).reg 2#5).toNat ∉ [1, 4, 5, 8, 10] := by decide
theorem witness_Endless : ∃ s, Fetchable s ∧ decode s.config.strictFields (wordAtPc s) = .ok .syscall ∧ s.reg 2#5 = 5#32 ∧
    NextAnswer s .silent :=
  ⟨sys [.silent] [(2, 5#32)], ⟨Or.inl rfl, by decide, by decide, by decide⟩, by decide, by decide, Or.inl rfl⟩
theorem witness_Endless_code : fieldOp 0x03FFFFCC#32 = 0x00#6 ∧ fieldFunct 0x03FFFFCC#32 = 0x0C#6 := by decide
theorem witness_Endless_stops : ∃ s f, step s = .fault f := ⟨sys [.silent] [(2, 5#32)], .readLineNeverReturns, by rfl⟩

theorem witness_HostMemory_backed : ∀ k < 2, six.backed (0x10010004#32 + BitVec.ofNat 32 k) = true := by decide
theorem witness_HostMemory_unbacked : ∃ k < 2, six.backed (0x10010005#32 + BitVec.ofNat 32 k) = false := ⟨1, by decide, by decide⟩
theorem witness_BranchField_high : branchField 0x00400000#32 0x00420000#32 = .ok 0x7FFF#16 := by decide
theorem witness_BranchField_low : branchField 0x00400000#32 0x003E0004#32 = .ok 0x8000#16 := by decide
theorem witness_JumpField : jumpField Config.default 0x00400000#32 0x00400010#32 = .ok 0x0100004#26 := by decide
theorem witness_JumpField_next : jumpField { jRegion := .pcPlus4 } 0x0FFFFFFC#32 0x10000000#32 = .ok 0#26 := by decide
theorem witness_LoadImmediate : (-2 ^ 31 : Int) ≤ 32768 ∧ (32768 : Int) ≤ 2 ^ 32 - 1 := by decide
theorem witness_LoadImmediate_over : ¬((-2 ^ 31 : Int) ≤ 4294967296 ∧ (4294967296 : Int) ≤ 2 ^ 32 - 1) := by decide
theorem witness_CompareBranches : labelAddr [{ name := ['L'], addr := 0x00400010#32, line := 1 }] ['L'] = .ok 0x00400010#32 ∧
    branchField (BitVec.ofNat 32 (0x00400000 + 4)) 0x00400010#32 = .ok 0x0002#16 := by decide
theorem witness_LoadAddress : labelAddr [{ name := ['L'], addr := 0x10010004#32, line := 1 }] ['L'] = .ok 0x10010004#32 := by
  decide
theorem witness_Assembled : (assemble Config.default "li $t0,5".toList).isOk = true := by decide

end Sys2Proof.Tests
end

section
/-! Proofs about encoding, decoding and the assembler's expansions (spec/30_encoding.md): first the facts about the
model's operations that the proofs share, then the obligations. -/

namespace Sys2Proof

open Sys2Proof.Machine Sys2Proof.Laws

/-! ### The decoder (spec/30_encoding.md R99 to R102) -/

theorem specialKey_of_decodeSpecial {w : Word} {i : Instr} (h : decodeSpecial w = .ok i) :
    fieldFunct w ∈ specialKeys := by
  unfold decodeSpecial at h
  split at h
  case h_28 => cases h
  all_goals next hf => rw [hf]; decide

theorem regimmKey_of_decodeRegimm {w : Word} {i : Instr} (h : decodeRegimm w = .ok i) : fieldRt w ∈ regimmKeys := by
  unfold decodeRegimm at h
  split at h
  case h_5 => cases h
  all_goals next hr => rw [hr]; decide

/-- The decoder reads no word off the table of R100. -/
theorem admitted_of_decodeKey {w : Word} {i : Instr} (h : decodeKey w = .ok i) : Admitted w := by
  unfold decodeKey at h
  split at h
  case h_1 ho => exact .inl ⟨ho, specialKey_of_decodeSpecial h⟩
  case h_2 ho => exact .inr (.inl ⟨ho, regimmKey_of_decodeRegimm h⟩)
  case h_25 => cases h
  all_goals next ho => exact admitted_op ho (by decide)

/-- A word off the table is an error under both settings of STRICT_FIELDS. -/
theorem decode_error_of_not_admitted {w : Word} (strict : Bool) (h : ¬Admitted w) :
    ∃ e, decode strict w = .error e := by
  unfold decode
  split
  next e _ => exact ⟨e, rfl⟩
  next i hi => exact absurd (admitted_of_decodeKey hi) h

theorem decodeKey_wordR (rs rt rd sh : BitVec 5) (f : BitVec 6) :
    decodeKey (wordR rs rt rd sh f) = decodeSpecial (wordR rs rt rd sh f) := by
  simp only [decodeKey, fieldOp_wordR]

/-- An R-format instruction is encoded by the word that SPECIAL decodes to it: its reserved fields are zero, so that
STRICT_FIELDS makes no difference (R104). -/
theorem encodes_wordR {i : Instr} {rs rt rd sh : BitVec 5} {f : BitVec 6} (hw : encode i = wordR rs rt rd sh f)
    (hd : decodeSpecial (wordR rs rt rd sh f) = .ok i) (hz : ReservedZero.Statement i) :
    Encodes i (wordR rs rt rd sh f) := by
  have hmask : wordR rs rt rd sh f &&& reservedMask i = 0#32 := hw ▸ hz
  exact ⟨hw, fun strict => by simp [decode, decodeKey_wordR, hd, hmask]⟩

/-! ### The immediate field of a word (R91, R117, R121) -/

/-- Filling the zero immediate field of an I-format word. -/
theorem wordI_or_imm (op : BitVec 6) (rs rt : BitVec 5) (imm : Half) :
    wordI op rs rt 0 ||| imm.zeroExtend 32 = wordI op rs rt imm := by
  apply BitVec.eq_of_getLsbD_eq
  intro i hi
  simp only [wordI, BitVec.getLsbD_or, BitVec.getLsbD_append]
  by_cases h : i < 16
  · simp [h, hi]
  · simp [h, BitVec.getLsbD_of_ge imm i (by omega)]

end Sys2Proof

namespace Sys2Proof.Machine

open Sys2Proof Sys2Proof.Laws

/-! ### The fetch of a step (spec/10_state.md R33) -/

theorem extractLsb'_two_eq_zero {a : Word} (h : a.toNat % 4 = 0) : a.extractLsb' 0 2 = 0b00#2 :=
  field_eq _ _ (by simpa using h)

theorem inText_iff {s : State} {a : Word} : s.inText a = true ↔
    s.config.textBase.toNat ≤ a.toNat ∧ a.toNat < s.config.textBase.toNat + s.image.text.length :=
  decide_eq_true_iff

/-- The four bytes of a word whose address is a multiple of 4 lie in the text region if the region holds them: no
address of them wraps. -/
theorem backed_of_fetchable {s : State} (h : Fetchable s) : ∀ j < 4, s.backed (s.pc + BitVec.ofNat 32 j) = true := by
  obtain ⟨-, hmod, hlo, hhi⟩ := h
  intro j hj
  have hnat : (s.pc + BitVec.ofNat 32 j).toNat = s.pc.toNat + j := by
    have := s.pc.isLt
    rw [BitVec.toNat_add, BitVec.toNat_ofNat]
    omega
  have htext : s.inText (s.pc + BitVec.ofNat 32 j) = true := inText_iff.mpr (by omega)
  simp [State.backed, htext]

theorem memRead32_of_fetchable {s : State} (h : Fetchable s) : s.memRead32 .fetch s.pc = .ok (wordAtPc s) := by
  have hbacked := backed_of_fetchable h
  obtain ⟨-, hmod, -⟩ := h
  simp only [State.memRead32, State.checkAccess_ok ((aligned_four _).mpr hmod) hbacked]
  rfl

/-- A step of a fetchable state decodes and executes the word at the PC. -/
theorem step_of_fetchable {s : State} (h : Fetchable s) : step s = runWord (wordAtPc s) s := by
  have hread := memRead32_of_fetchable h
  obtain ⟨hlive, hmod, hlo, hhi⟩ := h
  have hend : s.pc.toNat ≠ textEnd s.config s.image := by unfold textEnd; omega
  have htext : s.inText s.pc = true := inText_iff.mpr (by omega)
  have hrun : fetchAndRun s = runWord (wordAtPc s) s := by
    simp [fetchAndRun, extractLsb'_two_eq_zero hmod, hend, htext, hread]
  rcases hlive with hs | hs <;> simp only [step, hs, hrun]

theorem runWord_of_error {s : State} {w : Word} {e : DecodeError} (h : decode s.config.strictFields w = .error e) :
    runWord w s = fault (.illegalInstruction w) s := by
  simp only [runWord, h]

/-- Settles O7: the decoder answers an error off the table, whatever STRICT_FIELDS, and the step raises it. -/
theorem offTheTableIsIllegal : Obligations.OffTheTableIsIllegal := by
  unfold Obligations.OffTheTableIsIllegal
  intro s hfetch hoff
  obtain ⟨e, he⟩ := decode_error_of_not_admitted s.config.strictFields hoff
  rw [step_of_fetchable hfetch, runWord_of_error he]
  exact fault_takesFault _ s

/-! ### Shifts (spec/40_alu.md R159 to R164) -/

/-- An arithmetic right shift is floor division by a power of two. -/
theorem sshiftRight_eq_ofInt_div (v : Word) (n : Nat) : v.sshiftRight n = BitVec.ofInt 32 (v.toInt / 2 ^ n) := by
  rw [BitVec.sshiftRight, Int.shiftRight_eq_div_pow, Nat.cast_pow, Nat.cast_ofNat]

/-- The low 5 bits of a word are its value modulo 32 (R98). -/
theorem shiftAmount_eq_mod (v : Word) : shiftAmount v = v.toNat % 32 := by
  simp [shiftAmount]

/-- An instruction whose meaning is to write a result completes in every state. -/
theorem computes_of_writeResult {i : Instr} {w : Word} {s : State} {r : RegIdx} {v : Word} (he : Encodes i w)
    (hx : exec i s = writeResult r v s) : Computes i w s r v :=
  ⟨he, hx ▸ writeResult_writesReg r v s⟩

/-- Settles O28: each shift writes one result; the amount is read modulo 32, and the arithmetic shift divides, rounding
down. -/
theorem shiftsUseFiveBits : Obligations.ShiftsUseFiveBits := by
  unfold Obligations.ShiftsUseFiveBits
  intro s rd rt rs shamt
  simp only [← shiftAmount_eq_mod, ← sshiftRight_eq_ofInt_div]
  refine ⟨?sll, ?srl, ?sra, ?sllv, ?srlv, ?srav⟩
  case sll => exact computes_of_writeResult (encodes_wordR rfl (by simp [decodeSpecial]) (ReservedZero.sll ..)) rfl
  case srl => exact computes_of_writeResult (encodes_wordR rfl (by simp [decodeSpecial]) (ReservedZero.srl ..)) rfl
  case sra => exact computes_of_writeResult (encodes_wordR rfl (by simp [decodeSpecial]) (ReservedZero.sra ..)) rfl
  case sllv => exact computes_of_writeResult (encodes_wordR rfl (by simp [decodeSpecial]) (ReservedZero.sllv ..)) rfl
  case srlv => exact computes_of_writeResult (encodes_wordR rfl (by simp [decodeSpecial]) (ReservedZero.srlv ..)) rfl
  case srav => exact computes_of_writeResult (encodes_wordR rfl (by simp [decodeSpecial]) (ReservedZero.srav ..)) rfl

/-! ### One outcome after another -/

theorem execAll_pair {i j : Instr} {s t u : State} (hi : exec i s = .next t) (hj : exec j t = .next u) :
    execAll [i, j] s = .next u := by
  simp only [execAll, hi, hj]

theorem EndsAt.trans {s t u : State} {p q : Word} (h : EndsAt s t p) (h' : EndsAt t u q) : EndsAt s u q := by
  obtain ⟨-, -, hf, hc, hi⟩ := h
  obtain ⟨hpc, hst, hf', hc', hi'⟩ := h'
  exact ⟨hpc, hst, hf'.trans hf, hc'.trans hc, hi'.trans hi⟩

theorem SameHiLo.trans {s t u : State} (h : SameHiLo s t) (h' : SameHiLo t u) : SameHiLo s u :=
  ⟨h'.1.trans h.1, h'.2.trans h.2⟩

theorem SameMem.trans {s t u : State} (h : SameMem s t) (h' : SameMem t u) : SameMem s u :=
  fun a => (h' a).trans (h a)

theorem SameStreams.trans {s t u : State} (h : SameStreams s t) (h' : SameStreams t u) : SameStreams s u := by
  obtain ⟨ha, hr, ho⟩ := h
  obtain ⟨ha', hr', ho'⟩ := h'
  exact ⟨ha'.trans ha, hr'.trans hr, ho'.trans ho⟩

/-- Of two writes to one register the later stands. -/
theorem RegWritten.overwrite {s t u : State} {r : RegIdx} {v w : Word} (h : RegWritten s t r v)
    (h' : RegWritten t u r w) : RegWritten s u r w := by
  intro q
  rw [h' q, h q]
  split <;> rfl

/-- A write to register 0 is discarded, so its value does not matter. -/
theorem RegWritten.congr {s t : State} {r : RegIdx} {v w : Word} (hvw : r ≠ 0#5 → v = w) (h : RegWritten s t r v) :
    RegWritten s t r w := by
  intro q
  rw [h q]
  split
  next hq => exact hvw (hq.1 ▸ hq.2)
  next => rfl

theorem RegWritten.reg_self {s t : State} {r : RegIdx} {v : Word} (h : RegWritten s t r v) :
    t.reg r = if r = 0#5 then 0#32 else v := by
  rw [h r]
  by_cases hr : r = 0#5 <;> simp [hr]

theorem WritesReg.overwrite {s t u : State} {r : RegIdx} {v w p q : Word} (h : WritesReg s t r v p)
    (h' : WritesReg t u r w q) : WritesReg s u r w q := by
  obtain ⟨he, hr, hh, hm, hs⟩ := h
  obtain ⟨he', hr', hh', hm', hs'⟩ := h'
  exact ⟨he.trans he', hr.overwrite hr', hh.trans hh', hm.trans hm', hs.trans hs'⟩

theorem WritesReg.then_goesTo {s t u : State} {r : RegIdx} {v p q : Word} (h : WritesReg s t r v p)
    (h' : GoesTo t u q) : WritesReg s u r v q := by
  obtain ⟨he, hr, hh, hm, hs⟩ := h
  obtain ⟨he', hr', hh', hm', hs'⟩ := h'
  exact ⟨he.trans he', fun x => (hr' x).trans (hr x), hh.trans hh', hm.trans hm', hs.trans hs'⟩

theorem WritesReg.congr {s t : State} {r : RegIdx} {v w p : Word} (hvw : r ≠ 0#5 → v = w) (h : WritesReg s t r v p) :
    WritesReg s t r w p := by
  obtain ⟨he, hr, hrest⟩ := h
  exact ⟨he, hr.congr hvw, hrest⟩

theorem WritesReg.reg_self {s t : State} {r : RegIdx} {v p : Word} (h : WritesReg s t r v p) :
    t.reg r = if r = 0#5 then 0#32 else v := by
  obtain ⟨-, hr, -⟩ := h
  exact hr.reg_self

theorem WritesReg.pc_eq {s t : State} {r : RegIdx} {v p : Word} (h : WritesReg s t r v p) : t.pc = p := h.1.1

theorem pc_add_eight (a : Word) : a + 4#32 + 4#32 = a + 8#32 := by rw [BitVec.add_assoc]; rfl

/-! ### The assembler (spec/30_encoding.md R117 to R126) -/

/-- The item of an instruction or pseudo-instruction is its shape's expansion. -/
theorem statementItem_of_lookup {c : Config} {name : List Char} {sh : Shape} {ops : List Operand} {is : List RealInstr}
    (hsh : lookupShape (realShapes ++ pseudoShapes) name = some sh)
    (his : expandShape c.scratchReg name sh ops = .ok is) :
    statementItem c { name := name, operands := ops } = .ok (.instrs is) := by
  simp only [statementItem, hsh, his, Except.map]

theorem fixWord_plain (c : Config) (syms : List Symbol) (A : Word) (i : Instr) :
    fixWord c syms A (plain i) = .ok (encode i) := rfl

section
variable {c : Config} {syms : List Symbol} {l : List Char} {L : Word} (hL : labelAddr syms l = .ok L)
include hL

theorem fixWord_highHalf (A : Word) (i : Instr) : fixWord c syms A { instr := i, fixup := .highHalf l } =
    .ok (encode i ||| (L.extractLsb' 16 16).zeroExtend 32) := by
  simp only [fixWord, hL, Except.map]

theorem fixWord_lowHalf (A : Word) (i : Instr) : fixWord c syms A { instr := i, fixup := .lowHalf l } =
    .ok (encode i ||| (L.extractLsb' 0 16).zeroExtend 32) := by
  simp only [fixWord, hL, Except.map]

theorem fixWord_branch {A : Word} {imm : Half} (i : Instr) (hf : branchField A L = .ok imm) :
    fixWord c syms A { instr := i, fixup := .branch l } = .ok (encode i ||| imm.zeroExtend 32) := by
  simp only [fixWord, hL, hf, Except.map]

/-- Pass 2 makes of the pair of `la` the words of `lui` and `ori` with the halves of the label's address (R121). -/
theorem map_fixWord_expandLa (A : Word) (r : RegIdx) : (expandLa r l).map (fixWord c syms A) =
    [.ok (encode (.lui r (L.extractLsb' 16 16))), .ok (encode (.ori r r (L.extractLsb' 0 16)))] := by
  simp only [expandLa, List.map_cons, List.map_nil, fixWord_highHalf hL, fixWord_lowHalf hL, encode, wordI_or_imm]

/-- Pass 2 fills the field of a branch that stands behind another instruction from the branch's own address (R117). -/
theorem instrWords_then_branch {A : Nat} {imm : Half} {op : BitVec 6} {rs rt : RegIdx} {branch : Half → Instr} (i : Instr)
    (hb : ∀ h, encode (branch h) = wordI op rs rt h) (hf : branchField (BitVec.ofNat 32 (A + 4)) L = .ok imm) :
    instrWords c syms A [plain i, { instr := branch 0, fixup := .branch l }] =
      [.ok (bytesOfWord (encode i)), .ok (bytesOfWord (encode (branch imm)))] := by
  simp only [instrWords, fixWord_plain, fixWord_branch hL _ hf, hb, wordI_or_imm, Except.map]

end

/-! ### `la` (R121) -/

/-- The two halves of a word, as `lui` and `ori` join them. -/
theorem upper16_or_zext16 (L : Word) : upper16 (L.extractLsb' 16 16) ||| zext16 (L.extractLsb' 0 16) = L := by
  apply BitVec.eq_of_getLsbD_eq
  intro i hi
  simp only [upper16, zext16, BitVec.getLsbD_or, BitVec.getLsbD_append]
  by_cases h : i < 16
  · simp [h, hi]
  · have : 16 + (i - 16) = i := by omega
    simp [h, this, show i - 16 < 16 by omega]

/-- `lui` and `ori` of the two halves of a word leave it in the register. -/
theorem lui_ori_writesReg (r : RegIdx) (L : Word) (s : State) :
    ∃ t, execAll [.lui r (L.extractLsb' 16 16), .ori r r (L.extractLsb' 0 16)] s = .next t ∧
      WritesReg s t r L (s.pc + 8#32) := by
  obtain ⟨t, ht, hwt⟩ := writeResult_writesReg r (upper16 (L.extractLsb' 16 16)) s
  obtain ⟨u, hu, hwu⟩ := writeResult_writesReg r (t.reg r ||| zext16 (L.extractLsb' 0 16)) t
  rw [hwt.pc_eq, pc_add_eight] at hwu
  refine ⟨u, execAll_pair ht hu, (hwt.overwrite hwu).congr fun hr => ?_⟩
  rw [hwt.reg_self, if_neg hr, upper16_or_zext16]

/-- Settles O57: `la` expands to `lui` and `ori` with open halves, pass 2 fills them, and executed they join to the
address. -/
theorem loadAddressLoads : Obligations.LoadAddressLoads := by
  unfold Obligations.LoadAddressLoads
  intro c syms A r l L hL
  exact ⟨statementItem_of_lookup rfl rfl, map_fixWord_expandLa hL A r, lui_ori_writesReg r L⟩

/-! ### `move` (R122) -/

/-- `add` with register 0 copies a register: a 32-bit value plus zero is in range, so nothing traps. -/
theorem add_zero_writesReg (d a : RegIdx) (s : State) :
    ∃ t, exec (.add d a 0) s = .next t ∧ WritesReg s t d (s.reg a) (s.pc + 4#32) := by
  have hexec : exec (.add d a 0) s = trappingResult d (s.reg a).toInt s := by
    change trappingResult d ((s.reg a).toInt + (s.reg 0#5).toInt) s = _
    rw [State.reg_zero, BitVec.toInt_zero, add_zero]
  have hlo := (s.reg a).le_two_mul_toInt
  have hhi := (s.reg a).two_mul_toInt_lt
  have hadd := (trappingResult_spec d (s.reg a).toInt s).2 (by omega)
  rwa [← hexec, BitVec.ofInt_toInt] at hadd

/-- Settles O58: `move` is `add` with register 0, whose exact sum is the register's own value. -/
theorem moveCopies : Obligations.MoveCopies := by
  unfold Obligations.MoveCopies
  intro c d a
  exact ⟨statementItem_of_lookup rfl rfl, add_zero_writesReg d a⟩

/-! ### `blt bgt ble bge` (R123 to R126) -/

/-- What the branch of the pair compares with zero: the result of `slt`, or zero where the scratch register is register 0. -/
def scratchValue (scratch : RegIdx) (less : Bool) : Word := if scratch = 0#5 then 0#32 else setIf less

theorem decide_scratchValue_ne_zero (scratch : RegIdx) (less : Bool) :
    decide (scratchValue scratch less ≠ 0#32) = if scratch = 0#5 then false else less := by
  unfold scratchValue
  by_cases hz : scratch = 0#5
  · simp [hz]
  · cases less <;> simp [hz, setIf]

theorem decide_scratchValue_eq_zero (scratch : RegIdx) (less : Bool) :
    decide (scratchValue scratch less = 0#32) = if scratch = 0#5 then true else !less := by
  unfold scratchValue
  by_cases hz : scratch = 0#5
  · simp [hz]
  · cases less <;> simp [hz, setIf]

/-- `slt` into the scratch register and a branch on that register: the branch tests the comparison of the old values, and the
pair changes no other register. -/
theorem slt_then_branch {scratch x y : RegIdx} {imm : Half} {branch : Instr} {taken : Word → Bool}
    (hb : ∀ t, exec branch t = branchIf (taken (t.reg scratch)) imm t) (s : State) :
    ∃ t v, execAll [.slt scratch x y, branch] s = .next t ∧
      WritesReg s t scratch v (if taken (scratchValue scratch (lessSigned (s.reg x) (s.reg y)))
        then branchTarget (s.pc + 4#32) imm else s.pc + 8#32) := by
  obtain ⟨t, ht, hwt⟩ := writeResult_writesReg scratch (setIf (lessSigned (s.reg x) (s.reg y))) s
  have hnpc : branchNext (taken (t.reg scratch)) t.pc imm =
      if taken (scratchValue scratch (lessSigned (s.reg x) (s.reg y))) then branchTarget (s.pc + 4#32) imm
      else s.pc + 8#32 := by
    rw [hwt.reg_self, hwt.pc_eq, branchNext, pc_add_eight]
    rfl
  rw [← hnpc]
  exact ⟨_, _, execAll_pair ht (hb t), hwt.then_goesTo (commit_goesTo _ t)⟩

theorem slt_then_bne (scratch x y : RegIdx) (imm : Half) (s : State) :
    ∃ t v, execAll [.slt scratch x y, .bne scratch 0 imm] s = .next t ∧
      WritesReg s t scratch v (if (if scratch = 0#5 then false else lessSigned (s.reg x) (s.reg y))
        then branchTarget (s.pc + 4#32) imm else s.pc + 8#32) := by
  rw [← decide_scratchValue_ne_zero]
  exact slt_then_branch (taken := fun v => decide (v ≠ 0#32)) (fun _ => rfl) s

theorem slt_then_beq (scratch x y : RegIdx) (imm : Half) (s : State) :
    ∃ t v, execAll [.slt scratch x y, .beq scratch 0 imm] s = .next t ∧
      WritesReg s t scratch v (if (if scratch = 0#5 then true else !lessSigned (s.reg x) (s.reg y))
        then branchTarget (s.pc + 4#32) imm else s.pc + 8#32) := by
  rw [← decide_scratchValue_eq_zero]
  exact slt_then_branch (taken := fun v => decide (v = 0#32)) (fun _ => rfl) s

/-- Not less is the reverse order with equality. -/
theorem not_lessSigned (a b : Word) : (!lessSigned a b) = decide (b.toInt ≤ a.toInt) := by
  simp only [lessSigned, ← decide_not, Int.not_lt]

/-- Settles O59: the comparison of each pseudo-instruction is that of its `slt` where the branch is `bne`, and its negation
where the branch is `beq`. -/
theorem compareBranchesCompare : Obligations.CompareBranchesCompare := by
  unfold Obligations.CompareBranchesCompare
  intro c a b l s imm p hp
  simp only [List.mem_cons, List.not_mem_nil, or_false] at hp
  have hbne (x y : RegIdx) := slt_then_bne c.scratchReg x y imm s
  have hbeq (x y : RegIdx) := slt_then_beq c.scratchReg x y imm s
  simp only [not_lessSigned] at hbeq
  obtain rfl | rfl | rfl | rfl := hp <;> dsimp only
  · exact ⟨statementItem_of_lookup (sh := .compareBranch false .bne) rfl rfl,
      fun _ _ _ hL hf => instrWords_then_branch hL (branch := .bne c.scratchReg 0) _ (fun _ => rfl) hf, hbne a b⟩
  · exact ⟨statementItem_of_lookup (sh := .compareBranch true .bne) rfl rfl,
      fun _ _ _ hL hf => instrWords_then_branch hL (branch := .bne c.scratchReg 0) _ (fun _ => rfl) hf, hbne b a⟩
  · exact ⟨statementItem_of_lookup (sh := .compareBranch true .beq) rfl rfl,
      fun _ _ _ hL hf => instrWords_then_branch hL (branch := .beq c.scratchReg 0) _ (fun _ => rfl) hf, hbeq b a⟩
  · exact ⟨statementItem_of_lookup (sh := .compareBranch false .beq) rfl rfl,
      fun _ _ _ hL hf => instrWords_then_branch hL (branch := .beq c.scratchReg 0) _ (fun _ => rfl) hf, hbeq a b⟩

end Sys2Proof.Machine
end

section
/-! Proofs about spec/40_alu.md: the words of the R-format and I-format arithmetic and the values it writes, then the
obligations. -/

namespace Sys2Proof

open Sys2Proof.Machine Sys2Proof.Laws

/-! ### The words of arithmetic (spec/30_encoding.md R92, R93, R102) -/

/-- A word is the encoding of the instruction that its key selects, if the reserved fields are zero in it. -/
theorem encodes_of_decodeKey {i : Instr} {w : Word} (hw : encode i = w) (hd : decodeKey w = .ok i)
    (hz : ReservedZero.Statement i) : Encodes i w := by
  have hmask : w &&& reservedMask i = 0#32 := hw ▸ hz
  exact ⟨hw, fun strict => by simp [decode, hd, hmask]⟩

end Sys2Proof

namespace Sys2Proof.Machine

open Sys2Proof Sys2Proof.Laws

/-- A SPECIAL instruction with three registers and one result: only the shift amount is reserved. -/
theorem computes_wordR {i : Instr} {s : State} {rs rt rd : RegIdx} {f : BitVec 6} {v : Word}
    (hw : encode i = wordR rs rt rd 0 f) (hd : decodeSpecial (wordR rs rt rd 0 f) = .ok i)
    (hm : reservedMask i = maskShamt) (hx : exec i s = writeResult rd v s) :
    Computes i (wordR rs rt rd 0 f) s rd v := by
  have hz : ReservedZero.Statement i := by
    rw [ReservedZero.Statement, hw, hm, and_maskShamt, fieldShamt_wordR]
  exact computes_of_writeResult (encodes_wordR hw hd hz) hx

/-- An I-format instruction with one result and no reserved field. -/
theorem computes_wordI {i : Instr} {s : State} {rs rt : RegIdx} {op : BitVec 6} {imm : Half} {v : Word}
    (hw : encode i = wordI op rs rt imm) (hd : decodeKey (wordI op rs rt imm) = .ok i)
    (hm : reservedMask i = 0#32) (hx : exec i s = writeResult rt v s) :
    Computes i (wordI op rs rt imm) s rt v := by
  have hz : ReservedZero.Statement i := by rw [ReservedZero.Statement, hm, BitVec.and_zero]
  exact computes_of_writeResult (encodes_of_decodeKey hw hd hz) hx

/-! ### Operands and results (spec/30_encoding.md R95, spec/40_alu.md R140, R149, R150) -/

theorem toInt_sext16 (imm : Half) : (sext16 imm).toInt = imm.toInt :=
  BitVec.toInt_signExtend_of_le (by decide)

/-- Placing an immediate in the upper half is shifting it there. -/
theorem upper16_eq_shiftLeft (imm : Half) : upper16 imm = imm.zeroExtend 32 <<< 16 := by
  simpa [upper16] using BitVec.setWidth_append_eq_shiftLeft_setWidth_or (w'' := 32) (b := imm) (b' := 0x0000#16)

theorem setIf_lessSigned (a b : Word) : setIf (lessSigned a b) = if a.toInt < b.toInt then 1#32 else 0#32 := by
  simp only [setIf, lessSigned, decide_eq_true_eq]

theorem setIf_lessUnsigned (a b : Word) : setIf (lessUnsigned a b) = if a.toNat < b.toNat then 1#32 else 0#32 := by
  simp only [setIf, lessUnsigned, decide_eq_true_eq]

theorem ofInt_toInt_add (a b : Word) : BitVec.ofInt 32 (a.toInt + b.toInt) = a + b := by
  rw [BitVec.ofInt_add, BitVec.ofInt_toInt, BitVec.ofInt_toInt]

theorem ofInt_toInt_sub (a b : Word) : BitVec.ofInt 32 (a.toInt - b.toInt) = a - b := by
  rw [Int.sub_eq_add_neg, BitVec.ofInt_add, BitVec.ofInt_neg, BitVec.ofInt_toInt, BitVec.ofInt_toInt,
    BitVec.sub_eq_add_neg]

/-! ### `addu subu and or xor nor` (R142, R144 to R148) -/

/-- Settles O25: each is a three-register SPECIAL word and writes its result in every state. -/
theorem registerArithmeticAndLogic : Obligations.RegisterArithmeticAndLogic := by
  unfold Obligations.RegisterArithmeticAndLogic
  intro s rd rs rt
  refine ⟨?addu, ?subu, ?and, ?or, ?xor, ?nor⟩
  all_goals exact computes_wordR rfl (by simp [decodeSpecial]) rfl rfl

/-! ### `slt sltu slti sltiu` (R149, R150, R153, R154) -/

/-- Settles O26: the 0 or 1 written is the model's comparison; the signed one may compare the immediate itself, because
sign extension keeps its value. -/
theorem setLessThan : Obligations.SetLessThan := by
  unfold Obligations.SetLessThan
  intro s rd rs rt imm
  simp only [← toInt_sext16, ← setIf_lessSigned, ← setIf_lessUnsigned]
  refine ⟨?slt, ?sltu, ?slti, ?sltiu⟩
  case slt | sltu => exact computes_wordR rfl (by simp [decodeSpecial]) rfl rfl
  case slti | sltiu => exact computes_wordI rfl (by simp [decodeKey]) rfl rfl

/-! ### `addiu andi ori xori lui` (R152, R155 to R158) -/

/-- Settles O27: each writes its result in every state; `lui` alone has a reserved field, `rs`. -/
theorem immediateArithmeticAndLogic : Obligations.ImmediateArithmeticAndLogic := by
  unfold Obligations.ImmediateArithmeticAndLogic
  intro s rt rs imm
  rw [← upper16_eq_shiftLeft]
  refine ⟨?addiu, ?andi, ?ori, ?xori, ?lui⟩
  case addiu | andi | ori | xori => exact computes_wordI rfl (by simp [decodeKey]) rfl rfl
  case lui =>
    exact computes_of_writeResult (encodes_of_decodeKey rfl (by simp [decodeKey]) (ReservedZero.lui ..)) rfl

/-! ### `add sub addi` (R140, R141, R143, R151) -/

/-- Where the meaning is `trappingResult`, whether the instruction faults or writes depends on OVERFLOW_TRAPS and on
the exact result alone. -/
theorem exec_traps_or_writes {i : Instr} {s : State} {r : RegIdx} {e : Int} {v : Word}
    (hx : exec i s = trappingResult r e s) (hv : BitVec.ofInt 32 e = v) :
    (s.config.overflowTraps = true → (e < -2 ^ 31 ∨ 2 ^ 31 - 1 < e) →
      ∃ t, exec i s = .next t ∧ TakesFault s t .integerOverflow) ∧
    ((s.config.overflowTraps = false ∨ (-2 ^ 31 ≤ e ∧ e ≤ 2 ^ 31 - 1)) →
      ∃ t, exec i s = .next t ∧ WritesReg s t r v (s.pc + 4#32)) := by
  subst hv
  rw [hx]
  obtain ⟨htraps, hwrites⟩ := trappingResult_spec r e s
  refine ⟨fun hon hout => htraps ⟨hon, by omega⟩, fun hfits => hwrites ?_⟩
  rintro ⟨hon, hout⟩
  obtain hoff | hin := hfits
  · rw [hon] at hoff; cases hoff
  · omega

/-- Settles O29: the three share one ending, and the wrapped exact result is the sum or difference of the words. -/
theorem trappingArithmetic : Obligations.TrappingArithmetic := by
  unfold Obligations.TrappingArithmetic
  intro s rd rs rt imm
  refine ⟨encodes_wordR rfl (by simp [decodeSpecial]) (ReservedZero.add ..),
    encodes_wordR rfl (by simp [decodeSpecial]) (ReservedZero.sub ..),
    encodes_of_decodeKey rfl (by simp [decodeKey]) (ReservedZero.addi ..), ?_⟩
  intro p hp
  simp only [List.mem_cons, List.not_mem_nil, or_false] at hp
  obtain rfl | rfl | rfl := hp
  · exact exec_traps_or_writes rfl (ofInt_toInt_add ..)
  · exact exec_traps_or_writes rfl (ofInt_toInt_sub ..)
  · rw [← toInt_sext16]
    exact exec_traps_or_writes rfl (ofInt_toInt_add ..)

end Sys2Proof.Machine
end

section
/-! Proofs about spec/41_muldiv.md: the values that the multiplications and divisions write, then the obligations. -/

namespace Sys2Proof.Machine

open Sys2Proof Sys2Proof.Laws

/-! ### Writing HI and LO, or faulting -/

/-- An instruction whose meaning is to write HI and LO completes in every state. -/
theorem exec_writesHiLo {i : Instr} {s : State} {hi lo : Word} (hx : exec i s = nextInstr (s.setHiLo hi lo)) :
    ∃ t, exec i s = .next t ∧ WritesHiLo s t hi lo :=
  hx ▸ setHiLo_writesHiLo hi lo s

/-- An instruction whose meaning is to fault takes that fault. -/
theorem exec_takesFault {i : Instr} {s : State} {k : FaultKind} (hx : exec i s = fault k s) :
    ∃ t, exec i s = .next t ∧ TakesFault s t k :=
  hx ▸ fault_takesFault k s

/-! ### `mult multu` (R200, R201) -/

/-- HI joined to LO is the product that was written. -/
theorem exec_writesProduct {i : Instr} {s : State} {p : BitVec 64} (hx : exec i s = nextInstr (s.setProduct p)) :
    ∃ t hi lo, exec i s = .next t ∧ WritesHiLo s t hi lo ∧ (hi ++ lo : BitVec 64) = p := by
  obtain ⟨t, ht, hw⟩ := exec_writesHiLo hx
  exact ⟨t, _, _, ht, hw, (BitVec.extractLsb'_append_extractLsb'_eq_extractLsb' rfl).trans BitVec.extractLsb'_eq_self⟩

/-- 64 bits hold every product of two signed words. -/
theorem toInt_ofInt_mul (a b : Word) : (BitVec.ofInt 64 (a.toInt * b.toInt)).toInt = a.toInt * b.toInt := by
  have hlo := BitVec.le_toInt_mul_toInt (x := a) (y := b)
  have hhi := BitVec.toInt_mul_toInt_le (x := a) (y := b)
  exact BitVec.toInt_ofInt_eq_self (by decide) (by omega) (by omega)

/-- 64 bits hold every product of two unsigned words. -/
theorem toNat_ofNat_mul (a b : Word) : (BitVec.ofNat 64 (a.toNat * b.toNat)).toNat = a.toNat * b.toNat :=
  Nat.mod_eq_of_lt BitVec.toNat_mul_toNat_lt

/-- Settles O30: HI and LO are the halves of the product modulo 2^64, which is exact. -/
theorem multiplyWritesTheProduct : Obligations.MultiplyWritesTheProduct := by
  unfold Obligations.MultiplyWritesTheProduct
  intro s rs rt
  refine ⟨encodes_wordR rfl (by simp [decodeSpecial]) (ReservedZero.mult ..),
    encodes_wordR rfl (by simp [decodeSpecial]) (ReservedZero.multu ..), ?mult, ?multu⟩
  case mult =>
    obtain ⟨t, hi, lo, ht, hw, hp⟩ := exec_writesProduct (i := .mult rs rt) (s := s) rfl
    exact ⟨t, hi, lo, ht, hw, hp ▸ toInt_ofInt_mul ..⟩
  case multu =>
    obtain ⟨t, hi, lo, ht, hw, hp⟩ := exec_writesProduct (i := .multu rs rt) (s := s) rfl
    exact ⟨t, hi, lo, ht, hw, hp ▸ toNat_ofNat_mul ..⟩

/-! ### The cases of `div` and `divu` (R202, R203) -/

section
variable {s : State} {rs rt : RegIdx}

theorem exec_div_zero (h0 : s.reg rt = 0#32) : exec (.div rs rt) s = fault .divideByZero s :=
  if_pos h0

/-- The one quotient that a word does not hold, that of -2^31 by -1, raises a fault or wraps by DIV_OVERFLOW. -/
theorem exec_div_overflow_fault (ha : s.reg rs = 0x80000000#32) (hb : s.reg rt = 0xFFFFFFFF#32)
    (hcfg : s.config.divOverflow = .fault) : exec (.div rs rt) s = fault .divideOverflow s := by
  simp [exec, execDiv, ha, hb, hcfg]

theorem exec_div_overflow_wrap (ha : s.reg rs = 0x80000000#32) (hb : s.reg rt = 0xFFFFFFFF#32)
    (hcfg : s.config.divOverflow = .wrap) :
    exec (.div rs rt) s = nextInstr (s.setHiLo 0#32 0x80000000#32) := by
  simp [exec, execDiv, ha, hb, hcfg]

theorem exec_div_quotient (h0 : s.reg rt ≠ 0#32) (hov : ¬(s.reg rs = 0x80000000#32 ∧ s.reg rt = 0xFFFFFFFF#32)) :
    exec (.div rs rt) s = nextInstr (s.setHiLo (BitVec.ofInt 32 ((s.reg rs).toInt.tmod (s.reg rt).toInt))
      (BitVec.ofInt 32 ((s.reg rs).toInt.tdiv (s.reg rt).toInt))) :=
  (if_neg h0).trans (if_neg hov)

theorem exec_divu_zero (h0 : s.reg rt = 0#32) : exec (.divu rs rt) s = fault .divideByZero s :=
  if_pos h0

theorem exec_divu_quotient (h0 : s.reg rt ≠ 0#32) :
    exec (.divu rs rt) s = nextInstr (s.setHiLo (BitVec.ofNat 32 ((s.reg rs).toNat % (s.reg rt).toNat))
      (BitVec.ofNat 32 ((s.reg rs).toNat / (s.reg rt).toNat))) :=
  if_neg h0

end

/-! ### `div` (R202) -/

/-- A word holds every signed quotient but that of -2^31 by -1. -/
theorem toInt_ofInt_tdiv {a b : Word} (hov : ¬(a = 0x80000000#32 ∧ b = 0xFFFFFFFF#32)) :
    (BitVec.ofInt 32 (a.toInt.tdiv b.toInt)).toInt = a.toInt.tdiv b.toInt := by
  rw [BitVec.toInt_ofInt, ← BitVec.toInt_sdiv]
  exact BitVec.toInt_sdiv_of_ne_or_ne a b (not_and_or.mp hov)

/-- A word holds every signed remainder. -/
theorem toInt_ofInt_tmod (a b : Word) : (BitVec.ofInt 32 (a.toInt.tmod b.toInt)).toInt = a.toInt.tmod b.toInt := by
  rw [← BitVec.toInt_srem, BitVec.ofInt_toInt]

/-- Settles O31: the three cases of the meaning; outside the overflow case quotient and remainder fit in a word. -/
theorem signedDivide : Obligations.SignedDivide := by
  unfold Obligations.SignedDivide
  intro s rs rt
  refine ⟨encodes_wordR rfl (by simp [decodeSpecial]) (ReservedZero.div ..), ?zero, ?overflow, ?quotient⟩
  case zero => exact fun h0 => exec_takesFault (exec_div_zero h0)
  case overflow =>
    exact fun ha hb => ⟨fun hcfg => exec_takesFault (exec_div_overflow_fault ha hb hcfg),
      fun hcfg => exec_writesHiLo (exec_div_overflow_wrap ha hb hcfg)⟩
  case quotient =>
    intro h0 hov
    obtain ⟨t, ht, hw⟩ := exec_writesHiLo (exec_div_quotient h0 hov)
    exact ⟨t, _, _, ht, hw, toInt_ofInt_tdiv hov, toInt_ofInt_tmod ..⟩

/-! ### `divu` (R203) -/

/-- A word holds every unsigned quotient. -/
theorem toNat_ofNat_div (a b : Word) : (BitVec.ofNat 32 (a.toNat / b.toNat)).toNat = a.toNat / b.toNat :=
  Nat.mod_eq_of_lt ((Nat.div_le_self ..).trans_lt a.isLt)

/-- A word holds every unsigned remainder. -/
theorem toNat_ofNat_mod (a b : Word) : (BitVec.ofNat 32 (a.toNat % b.toNat)).toNat = a.toNat % b.toNat :=
  Nat.mod_eq_of_lt ((Nat.mod_le ..).trans_lt a.isLt)

/-- Settles O32: but for a zero divisor, quotient and remainder are written, and both fit in a word. -/
theorem unsignedDivide : Obligations.UnsignedDivide := by
  unfold Obligations.UnsignedDivide
  intro s rs rt
  refine ⟨encodes_wordR rfl (by simp [decodeSpecial]) (ReservedZero.divu ..), ?zero, ?quotient⟩
  case zero => exact fun h0 => exec_takesFault (exec_divu_zero h0)
  case quotient =>
    intro h0
    obtain ⟨t, ht, hw⟩ := exec_writesHiLo (exec_divu_quotient h0)
    exact ⟨t, _, _, ht, hw, toNat_ofNat_div .., toNat_ofNat_mod ..⟩

/-! ### `mfhi mflo mthi mtlo` (R204 to R207) -/

/-- Settles O34: the moves from HI and LO write one register, those to HI and LO write the pair with the other half as
it was. -/
theorem movesToAndFromHiLo : Obligations.MovesToAndFromHiLo := by
  unfold Obligations.MovesToAndFromHiLo
  intro s r
  refine ⟨?mfhi, ?mflo, ?mthiWord, exec_writesHiLo rfl, ?mtloWord, exec_writesHiLo rfl⟩
  case mfhi => exact computes_of_writeResult (encodes_wordR rfl (by simp [decodeSpecial]) (ReservedZero.mfhi ..)) rfl
  case mflo => exact computes_of_writeResult (encodes_wordR rfl (by simp [decodeSpecial]) (ReservedZero.mflo ..)) rfl
  case mthiWord => exact encodes_wordR rfl (by simp [decodeSpecial]) (ReservedZero.mthi ..)
  case mtloWord => exact encodes_wordR rfl (by simp [decodeSpecial]) (ReservedZero.mtlo ..)

end Sys2Proof.Machine
end

section
/-! Proofs about spec/42_control.md: the arithmetic of branch and jump targets and the shared endings, then the
obligations. -/

namespace Sys2Proof.Machine

open Sys2Proof Sys2Proof.Laws

/-! ### Targets (spec/30_encoding.md R96, R97) -/

/-- The offset of a branch, shifted left by two, is four times its signed value. -/
theorem sext16_shiftLeft_two (imm : Half) : sext16 imm <<< 2 = BitVec.ofInt 32 (4 * imm.toInt) := by
  rw [BitVec.shiftLeft_eq_mul_twoPow, BitVec.mul_comm, BitVec.ofInt_mul, sext16, BitVec.signExtend]
  rfl

theorem branchTarget_eq (pc : Word) (imm : Half) :
    branchTarget pc imm = pc + 4#32 + BitVec.ofInt 32 (4 * imm.toInt) := by
  rw [branchTarget, sext16_shiftLeft_two]

/-- The joined fields of a jump target, as arithmetic: the region's base plus four times the target field. -/
theorem jumpTarget_eq (j : JRegion) (pc : Word) (target : BitVec 26) : jumpTarget j pc target =
    BitVec.ofNat 32 ((jumpRegion j pc).toNat / 2 ^ 28 * 2 ^ 28 + 4 * target.toNat) := by
  apply BitVec.eq_of_toNat_eq
  simp only [jumpTarget, append_toNat, BitVec.extractLsb'_toNat, Nat.shiftRight_eq_div_pow, BitVec.toNat_ofNat]
  omega

/-! ### Going to a target, with or without a link -/

/-- An instruction whose meaning is to commit a next PC writes nothing, in every state. -/
theorem exec_goesTo {i : Instr} {s : State} {npc : Word} (hx : exec i s = .next (s.commit npc)) :
    ∃ t, exec i s = .next t ∧ GoesTo s t npc :=
  ⟨_, hx, commit_goesTo npc s⟩

/-- An instruction whose meaning is to write a link and commit a next PC writes that link, in every state. -/
theorem exec_links {i : Instr} {s : State} {r : RegIdx} {v npc : Word}
    (hx : exec i s = .next ((s.setReg r v).commit npc)) : ∃ t, exec i s = .next t ∧ WritesReg s t r v npc :=
  ⟨_, hx, link_writesReg r v npc s⟩

/-! ### `beq bne blez bgtz bltz bgez` (R220 to R226) -/

/-- A branch that does not link goes to its target exactly when it is taken. -/
theorem exec_branchIf_goesTo {i : Instr} {s : State} {taken : Bool} {imm : Half} (hx : exec i s = branchIf taken imm s) :
    ∃ t, exec i s = .next t ∧
      GoesTo s t (if taken then s.pc + 4#32 + BitVec.ofInt 32 (4 * imm.toInt) else s.pc + 4#32) := by
  rw [← branchTarget_eq]
  exact exec_goesTo hx

/-- Settles O35: six keys of the table, two of them under REGIMM, and one ending that differs in the condition alone. -/
theorem conditionalBranches : Obligations.ConditionalBranches := by
  unfold Obligations.ConditionalBranches
  intro s rs rt imm target
  simp only [List.forall_mem_cons, List.not_mem_nil, false_implies, implies_true, and_true]
  refine ⟨⟨?beq, exec_branchIf_goesTo rfl⟩, ⟨?bne, exec_branchIf_goesTo rfl⟩, ⟨?blez, exec_branchIf_goesTo rfl⟩,
    ⟨?bgtz, exec_branchIf_goesTo rfl⟩, ⟨?bltz, exec_branchIf_goesTo rfl⟩, ⟨?bgez, exec_branchIf_goesTo rfl⟩⟩
  case beq => exact encodes_of_decodeKey rfl (by simp [decodeKey]) (ReservedZero.beq ..)
  case bne => exact encodes_of_decodeKey rfl (by simp [decodeKey]) (ReservedZero.bne ..)
  case blez => exact encodes_of_decodeKey rfl (by simp [decodeKey]) (ReservedZero.blez ..)
  case bgtz => exact encodes_of_decodeKey rfl (by simp [decodeKey]) (ReservedZero.bgtz ..)
  case bltz => exact encodes_of_decodeKey rfl (by simp [decodeKey, decodeRegimm]) (ReservedZero.bltz ..)
  case bgez => exact encodes_of_decodeKey rfl (by simp [decodeKey, decodeRegimm]) (ReservedZero.bgez ..)

/-! ### `j jal jr` (R229 to R231) -/

/-- Settles O37: three commits of a next PC, `jal`'s after its link; under either J_REGION the joined fields are the
arithmetic target. -/
theorem jumpsAndCalls : Obligations.JumpsAndCalls := by
  unfold Obligations.JumpsAndCalls
  intro s rs target R dest
  have hdest : jumpTarget s.config.jRegion s.pc target = dest := jumpTarget_eq ..
  rw [← hdest]
  refine ⟨?jWord, exec_goesTo rfl, ?jalWord, exec_links rfl, ?jrWord, exec_goesTo rfl⟩
  case jWord => exact encodes_of_decodeKey rfl (by simp [decodeKey]) (ReservedZero.j ..)
  case jalWord => exact encodes_of_decodeKey rfl (by simp [decodeKey]) (ReservedZero.jal ..)
  case jrWord => exact encodes_wordR rfl (by simp [decodeSpecial]) (ReservedZero.jr ..)

end Sys2Proof.Machine
end

section
/-! Proofs about spec/43_loadstore.md: the ending that a checked access decides, the values that the loads read and the
bytes that the stores write, then the obligations. -/

namespace Sys2Proof.Machine

open Sys2Proof Sys2Proof.Laws

/-! ### The check of an access decides its ending (spec/20_memory.md R62 to R66) -/

/-- The check of one byte is its backing (R64 asks no alignment of it). -/
theorem State.checkAccess_one (s : State) (k : Access) (a : Word) :
    s.checkAccess k a 1 = if s.backed a then none else some (accessFault k a) := by
  simp only [State.checkAccess, aligned_one, State.firstUnbacked]
  cases s.backed a <;> rfl

/-- For the sizes of the loads and stores, aligned means a multiple of the size. -/
theorem aligned_iff {a : Word} {n : Nat} (hn : n ∈ [1, 2, 4]) : aligned a n = true ↔ a.toNat % n = 0 := by
  simp only [List.mem_cons, List.not_mem_nil, or_false] at hn
  obtain rfl | rfl | rfl := hn
  · simp [aligned_one, Nat.mod_one]
  · exact aligned_two a
  · exact aligned_four a

/-- A checked read answers its check's fault, or the value. -/
theorem State.memRead8_eq_elim (s : State) (k : Access) (a : Word) :
    s.memRead8 k a = (s.checkAccess k a 1).elim (.ok (s.byteAt a)) .error := by
  unfold State.memRead8
  cases s.checkAccess k a 1 <;> rfl

theorem State.memRead16_eq_elim (s : State) (k : Access) (a : Word) :
    s.memRead16 k a = (s.checkAccess k a 2).elim (.ok (s.byteAt a ++ s.byteAt (a + 1#32))) .error := by
  unfold State.memRead16
  cases s.checkAccess k a 2 <;> rfl

theorem State.memRead32_eq_elim (s : State) (k : Access) (a : Word) :
    s.memRead32 k a = (s.checkAccess k a 4).elim
      (.ok (wordOfBytes (s.byteAt a) (s.byteAt (a + 1#32)) (s.byteAt (a + 2#32)) (s.byteAt (a + 3#32)))) .error := by
  unfold State.memRead32
  cases s.checkAccess k a 4 <;> rfl

/-- A load faults by its check, or writes what it read. -/
theorem loadTo_elim (rt : RegIdx) (c : Option FaultKind) (v : Word) (s : State) :
    loadTo rt (c.elim (.ok v) .error) s = c.elim (writeResult rt v s) (fault · s) := by
  cases c <;> rfl

/-- As `loadTo_elim`, for a value that is extended to a word. -/
theorem loadTo_map_elim {α : Type} (rt : RegIdx) (c : Option FaultKind) (x : α) (ext : α → Word) (s : State) :
    loadTo rt ((c.elim (.ok x) .error : Except FaultKind α).map ext) s =
      c.elim (writeResult rt (ext x) s) (fault · s) := by
  cases c <;> rfl

/-- A store faults by its check, or goes on with its bytes in memory. -/
theorem storeTo_elim (a : Word) (bs : List Byte) (s : State) :
    storeTo a bs s = (s.checkAccess .store a bs.length).elim (nextInstr (s.storeBytes a bs)) (fault · s) := by
  unfold storeTo State.memWrite
  cases s.checkAccess .store a bs.length <;> rfl

/-- What an instruction does whose ending a checked access decides: alignment first, then the lowest unbacked byte, else
what the instruction does with its access. -/
theorem exec_checked {i : Instr} {s : State} {k : Access} {a : Word} {n : Nat}
    {done : Host.Outcome State Fault Refusal} {Post : State → Prop}
    (hx : exec i s = (s.checkAccess k a n).elim done (fault · s)) (hn : n ∈ [1, 2, 4])
    (hdone : ∃ t, done = .next t ∧ Post t) :
    (a.toNat % n ≠ 0 → ∃ t, exec i s = .next t ∧ TakesFault s t (addressError k a)) ∧
    (a.toNat % n = 0 → (∀ j < n, s.backed (a + BitVec.ofNat 32 j) = true) → ∃ t, exec i s = .next t ∧ Post t) ∧
    (a.toNat % n = 0 → ∀ j < n, s.backed (a + BitVec.ofNat 32 j) = false →
      (∀ l < j, s.backed (a + BitVec.ofNat 32 l) = true) →
      ∃ t, exec i s = .next t ∧ TakesFault s t (accessFault k (a + BitVec.ofNat 32 j))) := by
  refine ⟨fun hmis => ?misaligned, fun hal hall => ?done, fun hal j hj hun hbelow => ?unbacked⟩
  case misaligned =>
    have hal : aligned a n = false := Bool.eq_false_iff.mpr (mt (aligned_iff hn).mp hmis)
    exact exec_takesFault (by rw [hx, State.checkAccess_misaligned hal]; rfl)
  case done =>
    rw [hx, State.checkAccess_ok ((aligned_iff hn).mpr hal) hall]
    exact hdone
  case unbacked =>
    exact exec_takesFault (by rw [hx, State.checkAccess_unbacked ((aligned_iff hn).mpr hal) hj hun hbelow]; rfl)

/-! ### `lb lbu` (R251, R252) -/

/-- A load of one byte writes what it read if the address is backed, and else faults. -/
theorem exec_byteLoad {i : Instr} {s : State} {rt : RegIdx} {a : Word} {ext : Byte → Word}
    (hx : exec i s = loadTo rt ((s.memRead8 .load a).map ext) s) :
    (s.backed a = true → ∃ t, exec i s = .next t ∧ WritesReg s t rt (ext (s.byteAt a)) (s.pc + 4#32)) ∧
    (s.backed a = false → ∃ t, exec i s = .next t ∧ TakesFault s t (.accessFaultLoad a)) := by
  rw [hx, State.memRead8_eq_elim, loadTo_map_elim, State.checkAccess_one]
  refine ⟨fun hb => ?_, fun hb => ?_⟩
  · rw [hb]; exact writeResult_writesReg ..
  · rw [hb]; exact fault_takesFault ..

/-- Settles O40: the two loads differ only in how they extend the byte. -/
theorem byteLoads : Obligations.ByteLoads := by
  unfold Obligations.ByteLoads
  intro s rt rs imm ea
  simp only [List.forall_mem_cons, List.not_mem_nil, false_implies, implies_true, and_true]
  refine ⟨⟨?lb, exec_byteLoad rfl⟩, ⟨?lbu, exec_byteLoad rfl⟩⟩
  case lb => exact encodes_of_decodeKey rfl (by simp [decodeKey]) (ReservedZero.lb ..)
  case lbu => exact encodes_of_decodeKey rfl (by simp [decodeKey]) (ReservedZero.lbu ..)

/-! ### `lh lhu lw` (R253 to R255) -/

/-- A load of a halfword is a checked access that ends by writing the halfword, extended. -/
theorem exec_halfwordLoad {i : Instr} {s : State} {rt : RegIdx} {a : Word} {ext : Half → Word}
    (hx : exec i s = loadTo rt ((s.memRead16 .load a).map ext) s) :
    exec i s = (s.checkAccess .load a 2).elim (writeResult rt (ext (s.byteAt a ++ s.byteAt (a + 1#32))) s)
      (fault · s) := by
  rw [hx, State.memRead16_eq_elim, loadTo_map_elim]

/-- A load of a word is a checked access that ends by writing the word. -/
theorem exec_wordLoad {i : Instr} {s : State} {rt : RegIdx} {a : Word}
    (hx : exec i s = loadTo rt (s.memRead32 .load a) s) :
    exec i s = (s.checkAccess .load a 4).elim (writeResult rt
      (wordOfBytes (s.byteAt a) (s.byteAt (a + 1#32)) (s.byteAt (a + 2#32)) (s.byteAt (a + 3#32))) s) (fault · s) := by
  rw [hx, State.memRead32_eq_elim, loadTo_elim]

/-- Settles O41: each load is a checked access that ends by writing the big-endian value, extended. -/
theorem halfwordAndWordLoads : Obligations.HalfwordAndWordLoads := by
  unfold Obligations.HalfwordAndWordLoads
  intro s rt rs imm ea h w
  simp only [List.forall_mem_cons, List.not_mem_nil, false_implies, implies_true, and_true]
  refine ⟨⟨?lh, exec_checked (exec_halfwordLoad rfl) (by decide) (writeResult_writesReg ..)⟩,
    ⟨?lhu, exec_checked (exec_halfwordLoad rfl) (by decide) (writeResult_writesReg ..)⟩,
    ⟨?lw, exec_checked (exec_wordLoad rfl) (by decide) (writeResult_writesReg ..)⟩⟩
  case lh => exact encodes_of_decodeKey rfl (by simp [decodeKey]) (ReservedZero.lh ..)
  case lhu => exact encodes_of_decodeKey rfl (by simp [decodeKey]) (ReservedZero.lhu ..)
  case lw => exact encodes_of_decodeKey rfl (by simp [decodeKey]) (ReservedZero.lw ..)

/-! ### `sb sh sw` (R256 to R258) -/

/-- A byte field of a word, as arithmetic. -/
theorem extractLsb'_eq_ofNat_div (v : Word) (k : Nat) : v.extractLsb' k 8 = BitVec.ofNat 8 (v.toNat / 2 ^ k) := by
  rw [BitVec.extractLsb', Nat.shiftRight_eq_div_pow]

theorem bytesOfWord_eq (v : Word) : bytesOfWord v = [BitVec.ofNat 8 (v.toNat / 2 ^ 24),
    BitVec.ofNat 8 (v.toNat / 2 ^ 16), BitVec.ofNat 8 (v.toNat / 2 ^ 8), BitVec.ofNat 8 (v.toNat / 2 ^ 0)] := by
  simp only [bytesOfWord, extractLsb'_eq_ofNat_div]

/-- The bytes of the low half of a word are its own two low bytes. -/
theorem bytesOfHalf_lowHalf (v : Word) : bytesOfHalf (v.extractLsb' 0 16) =
    [BitVec.ofNat 8 (v.toNat / 2 ^ 8), BitVec.ofNat 8 (v.toNat / 2 ^ 0)] := by
  simp only [bytesOfHalf, Nat.reduceAdd, Nat.reduceLeDiff, BitVec.extractLsb'_extractLsb'_of_le,
    extractLsb'_eq_ofNat_div]

/-- A store of 1, 2 or 4 bytes is a checked access that ends with the bytes in memory. -/
theorem exec_stores {i : Instr} {s : State} {a : Word} {bs : List Byte} (hx : exec i s = storeTo a bs s)
    (hn : bs.length ∈ [1, 2, 4]) :
    (a.toNat % bs.length ≠ 0 → ∃ t, exec i s = .next t ∧ TakesFault s t (.addressErrorStore a)) ∧
    (a.toNat % bs.length = 0 → (∀ j < bs.length, s.backed (a + BitVec.ofNat 32 j) = true) →
      ∃ t, exec i s = .next t ∧ Stores s t a bs) ∧
    (a.toNat % bs.length = 0 → ∀ j < bs.length, s.backed (a + BitVec.ofNat 32 j) = false →
      (∀ l < j, s.backed (a + BitVec.ofNat 32 l) = true) →
      ∃ t, exec i s = .next t ∧ TakesFault s t (.accessFaultStore (a + BitVec.ofNat 32 j))) :=
  have hlen : bs.length ≤ 4294967296 := by
    simp only [List.mem_cons, List.not_mem_nil, or_false] at hn
    omega
  exec_checked (hx.trans (storeTo_elim a bs s)) hn (storeBytes_stores a bs s hlen)

section
variable (rt rs : RegIdx) (imm : Half) (s : State)

theorem exec_sb : exec (.sb rt rs imm) s =
    storeTo (s.effAddr rs imm) [BitVec.ofNat 8 ((s.reg rt).toNat / 2 ^ 0)] s := by
  rw [← extractLsb'_eq_ofNat_div]
  rfl

theorem exec_sh : exec (.sh rt rs imm) s = storeTo (s.effAddr rs imm)
    [BitVec.ofNat 8 ((s.reg rt).toNat / 2 ^ 8), BitVec.ofNat 8 ((s.reg rt).toNat / 2 ^ 0)] s := by
  rw [← bytesOfHalf_lowHalf]
  rfl

theorem exec_sw : exec (.sw rt rs imm) s = storeTo (s.effAddr rs imm)
    [BitVec.ofNat 8 ((s.reg rt).toNat / 2 ^ 24), BitVec.ofNat 8 ((s.reg rt).toNat / 2 ^ 16),
      BitVec.ofNat 8 ((s.reg rt).toNat / 2 ^ 8), BitVec.ofNat 8 ((s.reg rt).toNat / 2 ^ 0)] s := by
  rw [← bytesOfWord_eq]
  rfl

end

/-- Settles O42: each store is a checked access that ends with the low bytes of the register in memory. -/
theorem storesWriteTheirBytes : Obligations.StoresWriteTheirBytes := by
  unfold Obligations.StoresWriteTheirBytes
  intro s rt rs imm ea byte
  simp only [List.forall_mem_cons, List.not_mem_nil, false_implies, implies_true, and_true]
  refine ⟨rfl, ⟨?sb, exec_stores (exec_sb rt rs imm s) (by simp)⟩,
    ⟨?sh, exec_stores (exec_sh rt rs imm s) (by simp)⟩, ⟨?sw, exec_stores (exec_sw rt rs imm s) (by simp)⟩⟩
  case sb => exact encodes_of_decodeKey rfl (by simp [decodeKey]) (ReservedZero.sb ..)
  case sh => exact encodes_of_decodeKey rfl (by simp [decodeKey]) (ReservedZero.sh ..)
  case sw => exact encodes_of_decodeKey rfl (by simp [decodeKey]) (ReservedZero.sw ..)

end Sys2Proof.Machine
end

section
/-! Proofs about spec/60_exceptions.md: what a step that ends Faulted can have done, then the obligation. -/

namespace Sys2Proof.Machine

open Sys2Proof

/-! ### Raising a fault discards the step (spec/60_exceptions.md R302) -/

/-- A fault raised after at most the host's answers were taken leaves all else but the record as it was. -/
theorem raise_faults {s u : State} (k : FaultKind) (hu : u = { s with answers := u.answers, reads := u.reads }) :
    Faults s (u.raise k) k ∧ (u.raise k).output = s.output := by
  rw [hu]
  exact ⟨⟨rfl, rfl, rfl, fun _ => rfl, ⟨rfl, rfl⟩, fun _ => rfl, ⟨rfl, rfl⟩⟩, rfl⟩

/-- An instruction that ends Faulted raised a fault, after it took at most the host's answers: every other effect ends
Running or Halted. -/
theorem exec_faulted_raises {i : Instr} {s t : State} (h : exec i s = .next t) (hf : t.status = .faulted) :
    ∃ (k : FaultKind) (u : State), u = { s with answers := u.answers, reads := u.reads } ∧ t = u.raise k := by
  cases exec_effect h with
  | raised k hk ht => exact ⟨k, s, rfl, ht⟩
  | wrote | wroteHiLo | went | stored => subst t; cases hf
  | called hi he =>
    cases he with
    | raised k hk ht => exact ⟨k, s, rfl, ht⟩
    | raisedAfter k u hk ha hu ht => exact ⟨k, u, hu, ht⟩
    | printed | tookInteger | tookString | exited => subst t; cases hf

/-- A step that ends Faulted raised a fault, in the fetch, in the decoder or in the instruction. -/
theorem step_faulted_raises {s t : State} (hs : Live s) (h : step s = .next t) (hf : t.status = .faulted) :
    ∃ (k : FaultKind) (u : State), u = { s with answers := u.answers, reads := u.reads } ∧ t = u.raise k := by
  rcases step_cases h with rfl | rfl | ⟨k, ht⟩ | ⟨i, w, -, hx⟩
  · rcases hs with hs | hs <;> exact absurd (hs.symm.trans hf) (by decide)
  · cases hf
  · exact ⟨k, s, rfl, ht⟩
  · exact exec_faulted_raises hx hf

/-- Settles O21: a step from Loaded or Running ends Faulted only by raising a fault, which commits nothing of the step. -/
theorem faultedStepsCommitNothing : Obligations.FaultedStepsCommitNothing := by
  intro s t hs h hf
  obtain ⟨k, u, hu, rfl⟩ := step_faulted_raises hs h hf
  exact ⟨k, raise_faults k hu⟩

end Sys2Proof.Machine
end

section
/-! Proofs about encoding and decoding (spec/30_encoding.md R99 to R105): every instruction and its word, the decoder's table,
STRICT_FIELDS. -/

namespace Sys2Proof
open Sys2Proof.Machine Sys2Proof.Laws

/-! ### Every instruction and its word (spec/30_encoding.md R102, R104) -/

/-- The mask of R102 is zero in a word exactly when the fields listed for the instruction are. -/
theorem and_reservedMask_eq_zero_iff (w : Word) (i : Instr) : w &&& reservedMask i = 0#32 ↔ ZeroFields w i := by
  cases i <;>
    simp only [reservedMask, ZeroFields, and_or_eq_zero, and_maskRs, and_maskRt, and_maskRd, and_maskShamt, and_assoc,
      BitVec.and_zero]

theorem zeroFields_encode (i : Instr) : ZeroFields (encode i) i := by
  cases i <;> simp [ZeroFields, encode]

theorem decodeKey_encode (i : Instr) : decodeKey (encode i) = .ok i := by
  cases i <;> simp [encode, decodeKey, decodeSpecial, decodeRegimm]

/-- The encoder's word is read back under both settings of STRICT_FIELDS. -/
theorem encodes_encode (i : Instr) : Encodes i (encode i) :=
  encodes_of_decodeKey rfl (decodeKey_encode i) ((and_reservedMask_eq_zero_iff ..).mpr (zeroFields_encode i))

theorem decodeBytes_bytesOfWord {strict : Bool} {w : Word} {i : Instr} (h : decode strict w = .ok i)
    (rest : List Byte) : decodeBytes strict (bytesOfWord w ++ rest) = .ok (i, rest) := by
  simp only [bytesOfWord, List.cons_append, List.nil_append, decodeBytes, wordOfBytes_bytesOfWord, h]

/-- Settles O13: the word's key selects the instruction, its fields are the operands and its reserved fields are zero;
the word's four bytes join to it again. -/
theorem decodeEncodeAgree : Obligations.DecodeEncodeAgree := by
  unfold Obligations.DecodeEncodeAgree
  intro i strict rest
  obtain ⟨-, hdec⟩ := encodes_encode i
  exact ⟨hdec strict, decodeBytes_bytesOfWord (hdec strict) rest⟩

/-! ### The decoder under the two settings of STRICT_FIELDS (R99, R102) -/

theorem decode_false (w : Word) : decode false w = decodeKey w := by
  unfold decode
  cases decodeKey w <;> simp

/-- With STRICT_FIELDS the reserved fields decide. -/
theorem decode_true_of_decodeKey {w : Word} {i : Instr} (h : decodeKey w = .ok i) :
    (ZeroFields w i → decode true w = .ok i) ∧ (¬ZeroFields w i → decode true w = .error (.reservedField w)) := by
  rw [← and_reservedMask_eq_zero_iff]
  exact ⟨fun hz => by simp [decode, h, hz], fun hz => by simp [decode, h, hz]⟩

/-- Settles O16: the listed fields are the bits of the mask that STRICT_FIELDS tests. -/
theorem strictFieldsRejectNonzero : Obligations.StrictFieldsRejectNonzero := by
  unfold Obligations.StrictFieldsRejectNonzero
  intro w i h
  rw [decode_false] at h
  obtain ⟨hzero, hnonzero⟩ := decode_true_of_decodeKey h
  exact ⟨hzero, fun hz => ⟨_, hnonzero hz⟩⟩

/-! ### The decoder and the table of R100 -/

theorem decodeSpecial_of_mem {w : Word} (h : fieldFunct w ∈ specialKeys) : ∃ i, decodeSpecial w = .ok i := by
  unfold decodeSpecial
  split
  case h_28 => simp_all [specialKeys]
  all_goals exact ⟨_, rfl⟩

theorem decodeRegimm_of_mem {w : Word} (h : fieldRt w ∈ regimmKeys) : ∃ i, decodeRegimm w = .ok i := by
  unfold decodeRegimm
  split
  case h_5 => simp_all [regimmKeys]
  all_goals exact ⟨_, rfl⟩

theorem decodeKey_of_special {w : Word} (h : fieldOp w = 0x00#6) : decodeKey w = decodeSpecial w := by
  simp only [decodeKey, h]

theorem decodeKey_of_regimm {w : Word} (h : fieldOp w = 0x01#6) : decodeKey w = decodeRegimm w := by
  simp only [decodeKey, h]

/-- The decoder reads every word whose key is in the table. -/
theorem decodeKey_of_admitted {w : Word} (h : Admitted w) : ∃ i, decodeKey w = .ok i := by
  rcases h with ⟨ho, hf⟩ | ⟨ho, hr⟩ | ho
  · rw [decodeKey_of_special ho]; exact decodeSpecial_of_mem hf
  · rw [decodeKey_of_regimm ho]; exact decodeRegimm_of_mem hr
  · unfold decodeKey
    split
    case h_1 hz | h_2 hz => rw [hz] at ho; exact absurd ho (by decide)
    case h_25 => simp_all [opKeys]
    all_goals exact ⟨_, rfl⟩

/-- Settles O15: the keys that the decoder matches are those of the table. -/
theorem decodeAdmitsExactlyTheTable : Obligations.DecodeAdmitsExactlyTheTable := by
  unfold Obligations.DecodeAdmitsExactlyTheTable
  intro w
  rw [decode_false]
  exact ⟨fun ⟨_, h⟩ => admitted_of_decodeKey h, decodeKey_of_admitted⟩

/-! ### The encoding of a decoded word (R104) -/

/-- A SPECIAL word with zero reserved fields is the R-format word of its instruction's operands. -/
theorem encode_of_decodeSpecial {w : Word} {i : Instr} (ho : fieldOp w = 0x00#6) (h : decodeSpecial w = .ok i)
    (hi : i ≠ .syscall) (hz : ZeroFields w i) : encode i = w := by
  have hw := wordR_fields ho
  unfold decodeSpecial at h
  split at h
  case h_9 => cases h; exact absurd rfl hi
  case h_28 => cases h
  all_goals next hf => cases h; simp only [ZeroFields] at hz; simpa only [encode, hf, hz] using hw

theorem encode_of_decodeRegimm {w : Word} {i : Instr} (ho : fieldOp w = 0x01#6) (h : decodeRegimm w = .ok i) :
    encode i = w := by
  have hw := wordI_fields w
  unfold decodeRegimm at h
  split at h
  case h_5 => cases h
  all_goals next hr => cases h; simpa only [encode, ho, hr] using hw

theorem encode_of_decodeKey {w : Word} {i : Instr} (h : decodeKey w = .ok i) (hi : i ≠ .syscall)
    (hz : ZeroFields w i) : encode i = w := by
  unfold decodeKey at h
  split at h
  case h_1 ho => exact encode_of_decodeSpecial ho h hi hz
  case h_2 ho => exact encode_of_decodeRegimm ho h
  case h_3 ho | h_4 ho => cases h; simpa only [encode, ho] using wordJ_fields w
  case h_25 => cases h
  all_goals next ho => cases h; simp only [ZeroFields] at hz; simpa only [encode, ho, hz] using wordI_fields w

/-- Settles O14: a word is joined of its fields; those that are no operand are the key and the zero fields. -/
theorem encodeDecodeAgree : Obligations.EncodeDecodeAgree := by
  unfold Obligations.EncodeDecodeAgree
  intro w i h hi hz
  rw [decode_false] at h
  exact encode_of_decodeKey h hi hz

/-- Settles O17: the seven words, decoded. -/
theorem sampleWordsDecode : Obligations.SampleWordsDecode := by
  unfold Obligations.SampleWordsDecode
  decide

/-! ### The words of `syscall` -/

theorem decodeSpecial_eq_syscall {w : Word} : decodeSpecial w = .ok .syscall ↔ fieldFunct w = 0x0C#6 := by
  unfold decodeSpecial
  split <;> simp_all

theorem decodeRegimm_ne_syscall (w : Word) : decodeRegimm w ≠ .ok .syscall := by
  unfold decodeRegimm
  split <;> simp

theorem decodeKey_eq_syscall {w : Word} : decodeKey w = .ok .syscall ↔ fieldOp w = 0x00#6 ∧ fieldFunct w = 0x0C#6 := by
  unfold decodeKey
  split
  case h_1 ho => simp only [decodeSpecial_eq_syscall, ho, true_and]
  case h_2 ho => simp [decodeRegimm_ne_syscall, ho]
  all_goals simp_all

/-- `syscall` has no reserved field, so its code field is free under both settings. -/
theorem decode_eq_syscall {strict : Bool} {w : Word} :
    decode strict w = .ok .syscall ↔ fieldOp w = 0x00#6 ∧ fieldFunct w = 0x0C#6 := by
  rw [← decodeKey_eq_syscall]
  unfold decode
  cases hk : decodeKey w with
  | error e => simp
  | ok i =>
    dsimp only
    by_cases hi : i = .syscall
    · simp [hi, reservedMask]
    · split <;> simp [hi]

end Sys2Proof
end

section
/-! Proofs about the step (spec/10_state.md R33, R36, R37): the cases of the fetch, the terminal states, what the host receives. -/

namespace Sys2Proof.Machine
open Sys2Proof Sys2Proof.Laws

/-! ### The cases of a step (spec/10_state.md R33, R36, R37) -/

theorem step_of_live {s : State} (h : Live s) : step s = fetchAndRun s := by
  obtain hs | hs := h <;> simp only [step, hs]

theorem step_of_terminal {s : State} (h : s.status = .halted ∨ s.status = .faulted) : step s = .next s := by
  obtain hs | hs := h <;> simp only [step, hs]

/-- A state either steps or stays. -/
theorem live_or_terminal (s : State) : Live s ∨ s.status = .halted ∨ s.status = .faulted := by
  unfold Live
  cases s.status <;> simp

theorem extractLsb'_two_ne_zero {a : Word} (h : a.toNat % 4 ≠ 0) : a.extractLsb' 0 2 ≠ 0b00#2 := by
  intro hz
  have hmod := congrArg BitVec.toNat hz
  simp at hmod
  omega

section
variable {s : State} (hlive : Live s)
include hlive

theorem step_misaligned (h : s.pc.toNat % 4 ≠ 0) : step s = fault (.addressErrorFetch s.pc) s := by
  rw [step_of_live hlive, fetchAndRun, if_pos (extractLsb'_two_ne_zero h)]

theorem step_at_textEnd (h : s.pc.toNat % 4 = 0)
    (hend : s.pc.toNat = s.config.textBase.toNat + s.image.text.length) : step s = .next s.halt := by
  rw [step_of_live hlive, fetchAndRun, if_neg (not_not.mpr (extractLsb'_two_eq_zero h)),
    if_pos (by exact hend)]

theorem step_outside_text (h : s.pc.toNat % 4 = 0)
    (hout : s.pc.toNat < s.config.textBase.toNat ∨ s.config.textBase.toNat + s.image.text.length < s.pc.toNat) :
    step s = fault (.accessFaultFetch s.pc) s := by
  have hend : s.pc.toNat ≠ textEnd s.config s.image := by unfold textEnd; omega
  have htext : s.inText s.pc ≠ true := by rw [Ne, inText_iff]; omega
  rw [step_of_live hlive, fetchAndRun, if_neg (not_not.mpr (extractLsb'_two_eq_zero h)), if_neg hend, if_neg htext]

end

theorem halt_halts (s : State) : Halts s s.halt :=
  ⟨rfl, rfl, rfl, SameRegs.refl s, SameHiLo.refl s, SameMem.refl s, SameSetup.refl s, SameStreams.refl s⟩

/-- Settles O8: the three answers of the fetch that come before a word is read. -/
theorem fetchChecksInOrder : Obligations.FetchChecksInOrder := by
  unfold Obligations.FetchChecksInOrder
  intro s hlive
  refine ⟨fun hmis => ?misaligned, fun hal hend => ⟨_, step_at_textEnd hlive hal hend, halt_halts s⟩,
    fun hal _ hout => ?outside⟩
  case misaligned => rw [step_misaligned hlive hmis]; exact fault_takesFault _ s
  case outside => rw [step_outside_text hlive hal hout]; exact fault_takesFault _ s

/-- The host receives the next state with its result. -/
theorem hostStep_of_step {s t : State} (h : step s = .next t) : hostStep s = .next (t, t.stepResult) := by
  simp only [hostStep, h]

/-- Settles O9: a terminal state steps to itself, and its result to the host reads it. -/
theorem terminalStatesNeverMove : Obligations.TerminalStatesNeverMove := by
  unfold Obligations.TerminalStatesNeverMove
  intro s k hs
  have hstep := step_of_terminal hs
  refine ⟨run_fixed hstep k, s.stepResult, hostStep_of_step hstep, rfl, rfl, fun hf => ?faulted, fun hh => ?halted⟩
  case faulted => simp [State.stepResult, hf]
  case halted => simp [State.stepResult, hh]

/-! ### A word at the PC (R33; spec/60_exceptions.md R303) -/

theorem runWord_of_ok {s : State} {w : Word} {i : Instr} (h : decode s.config.strictFields w = .ok i) :
    runWord w s = exec i s := by
  simp only [runWord, h]

/-- Settles O6: the fetch reads the word at the PC and the step runs what it decodes to. -/
theorem stepRunsTheDecodedInstruction : Obligations.StepRunsTheDecodedInstruction := by
  unfold Obligations.StepRunsTheDecodedInstruction
  intro s i hfetch hdec
  rw [step_of_fetchable hfetch, runWord_of_ok hdec]

theorem step_off_the_table {s : State} (hfetch : Fetchable s) (hoff : ¬Admitted (wordAtPc s)) :
    step s = .next (s.raise (.illegalInstruction (wordAtPc s))) := by
  obtain ⟨e, he⟩ := decode_error_of_not_admitted s.config.strictFields hoff
  rw [step_of_fetchable hfetch, runWord_of_error he]
  rfl

/-- The digit of a number below 16 (spec/92_eei_decisions.md D28). -/
theorem hexDigit_eq (d : BitVec 4) : some (hexDigit d) = ("0123456789ABCDEF".toList)[d.toNat]? := by
  revert d
  decide

/-- The digits of a word, the most significant first. -/
theorem hexWord_digit (w : Word) {k : Nat} (hk : k < 8) :
    (hexWord w)[2 + k]? = ("0123456789ABCDEF".toList)[w.toNat / 16 ^ (7 - k) % 16]? := by
  have hdigit (j : Nat) : some (hexDigit (w.extractLsb' j 4)) = ("0123456789ABCDEF".toList)[w.toNat / 2 ^ j % 16]? := by
    rw [hexDigit_eq, BitVec.extractLsb'_toNat, Nat.shiftRight_eq_div_pow]
  interval_cases k <;> exact hdigit _

/-- Settles O53: the step raises IllegalInstruction, and the message joins the fixed text and the digits of the PC. -/
theorem illegalInstructionMessage : Obligations.IllegalInstructionMessage := by
  unfold Obligations.IllegalInstructionMessage
  intro s hfetch hoff
  refine ⟨_, _, hostStep_of_step (step_off_the_table hfetch hoff), rfl, rfl, rfl,
    "illegal instruction at address ".toList ++ hexWord s.pc, rfl, rfl, fun k hk => ?digits, rfl⟩
  case digits =>
    have hpast : 33 + k = "illegal instruction at address ".toList.length + (2 + k) := by
      rw [show "illegal instruction at address ".toList.length = 31 from rfl]; omega
    rw [← hexWord_digit s.pc hk, hpast, List.getElem?_append_right (Nat.le_add_right ..), Nat.add_sub_cancel_left]

end Sys2Proof.Machine
end

section
/-! Proofs about consistent states: each update of the state keeps them, so every step does. -/

namespace Sys2Proof.Machine
open Sys2Proof Sys2Proof.Laws

/-! ### Each update of the state keeps consistency -/

section
variable {s : State} (hs : Consistent s)
include hs

/-- The bytes at backed addresses, the parameters, the image and the slot of register 0 decide, with the status. -/
theorem Consistent.of_same {t : State} (hm : t.mem = s.mem) (hset : SameSetup s t) (hz : t.regs[0] = s.regs[0])
    (hf : t.lastFault.isSome = true ↔ t.status = .faulted) : Consistent t where
  canonical := hm ▸ hs.canonical
  backed c hc := by rw [State.backed_congr hset]; exact hs.backed c (hm ▸ hc)
  faultRecord := hf
  zeroSlot := hz.trans hs.zeroSlot

theorem Consistent.lastFault_eq_none (hst : s.status ≠ .faulted) : s.lastFault = none := by
  simpa using mt hs.faultRecord.mp hst

theorem Consistent.raise (k : FaultKind) : Consistent (s.raise k) :=
  hs.of_same rfl ⟨rfl, rfl⟩ rfl (by simp)

theorem Consistent.commit (hst : s.status ≠ .faulted) (npc : Word) : Consistent (s.commit npc) :=
  hs.of_same rfl ⟨rfl, rfl⟩ rfl (by simp [hs.lastFault_eq_none hst])

theorem Consistent.halt (hst : s.status ≠ .faulted) : Consistent s.halt :=
  hs.of_same rfl ⟨rfl, rfl⟩ rfl (by simp [hs.lastFault_eq_none hst])

theorem Consistent.setHiLo (hi lo : Word) : Consistent (s.setHiLo hi lo) :=
  hs.of_same rfl ⟨rfl, rfl⟩ rfl hs.faultRecord

theorem Consistent.out (bs : List Byte) : Consistent (s.out bs) :=
  hs.of_same rfl ⟨rfl, rfl⟩ rfl hs.faultRecord

theorem Consistent.taken {u : State} (hu : u = { s with answers := u.answers, reads := u.reads }) : Consistent u := by
  rw [hu]
  exact hs.of_same rfl ⟨rfl, rfl⟩ rfl hs.faultRecord

/-- A write to register 0 is discarded, one to another register leaves its slot. -/
theorem Consistent.setReg (r : RegIdx) (v : Word) : Consistent (s.setReg r v) := by
  refine hs.of_same (by simp) ⟨by simp, by simp⟩ ?slot (by simpa using hs.faultRecord)
  case slot =>
    unfold State.setReg
    split
    next => rfl
    next hr => exact Vector.getElem_set_ne r.isLt (by decide) fun h => hr (BitVec.eq_of_toNat_eq h)

/-- Storing to backed addresses keeps memory canonical and backed. -/
theorem Consistent.storeBytes {a : Word} {bs : List Byte}
    (hb : ∀ k < bs.length, s.backed (a + BitVec.ofNat 32 k) = true) : Consistent (s.storeBytes a bs) where
  canonical := Memory.wf_writeBytes hs.canonical a bs
  backed c hc := by
    rw [State.backed_congr ⟨rfl, rfl⟩]
    obtain hc | ⟨k, hk, hc⟩ := Memory.mem_writeBytes hc
    · exact hs.backed c hc
    · rw [hc, BitVec.ofNat_toNat, BitVec.setWidth_eq]
      exact ⟨BitVec.isLt _, hb k hk⟩
  faultRecord := hs.faultRecord
  zeroSlot := hs.zeroSlot

end

/-! ### Every step keeps consistency -/

theorem Consistent.syscallEffect {s t : State} (hs : Consistent s) (hst : s.status ≠ .faulted)
    (h : SyscallEffect s t) : Consistent t := by
  cases h with
  | printed bytes h => subst h; exact (hs.out bytes).commit hst _
  | raised k hk h => subst h; exact hs.raise k
  | raisedAfter k u hk ha hu h => subst h; exact (hs.taken hu).raise k
  | tookInteger v u hc ha hu h =>
    have hust : u.status ≠ .faulted := by rw [hu]; exact hst
    subst h
    exact ((hs.taken hu).setReg _ v).commit (by simpa using hust) _
  | tookString bs u hc ha hu hn hb h =>
    have hust : u.status ≠ .faulted := by rw [hu]; exact hst
    have hset : SameSetup s u := by rw [hu]; exact ⟨rfl, rfl⟩
    subst h
    exact ((hs.taken hu).storeBytes fun k hk => by rw [State.backed_congr hset]; exact hb k hk).commit hust _
  | exited h => subst h; exact (hs.commit hst _).halt (by simp)

theorem Consistent.exec {i : Instr} {s t : State} (hs : Consistent s) (hst : s.status ≠ .faulted)
    (h : Machine.exec i s = .next t) : Consistent t := by
  cases exec_effect h with
  | raised k hk h => subst h; exact hs.raise k
  | wrote r v npc hd hi hn h => subst h; exact (hs.setReg r v).commit (by simpa using hst) _
  | wroteHiLo hi lo hw hc h => subst h; exact (hs.setHiLo hi lo).commit hst _
  | went npc hc h => subst h; exact hs.commit hst _
  | stored a bs hst' hl hc hb h => subst h; exact (hs.storeBytes hb).commit hst _
  | called hi h => exact hs.syscallEffect hst h

/-- Settles O11: a terminal state stays as it is, and every update of a step from Loaded or Running keeps
consistency. -/
theorem everyStepKeepsConsistency : Obligations.EveryStepKeepsConsistency := by
  unfold Obligations.EveryStepKeepsConsistency
  intro s t hs h
  obtain hlive | hterm := live_or_terminal s
  · have hst : s.status ≠ .faulted := by obtain hl | hl := hlive <;> simp [hl]
    rcases step_cases h with rfl | rfl | ⟨k, rfl⟩ | ⟨i, w, -, hx⟩
    · exact hs
    · exact hs.halt hst
    · exact hs.raise k
    · exact hs.exec hst hx
  · rw [step_of_terminal hterm] at h
    cases h
    exact hs

end Sys2Proof.Machine
end

section
/-! Proofs about what each kind of instruction changes (spec/10_state.md R24, R25, R27; spec/20_memory.md R61). -/

namespace Sys2Proof.Machine
open Sys2Proof Sys2Proof.Laws

/-! ### What each kind of instruction changes (spec/10_state.md R24, R25, R27; spec/20_memory.md R61) -/

/-- Settles O18: the only effects that write a register write the destination, or `$v0` in read integer. -/
theorem onlyTheDestinationRegisterChanges : Obligations.OnlyTheDestinationRegisterChanges := by
  unfold Obligations.OnlyTheDestinationRegisterChanges
  intro i s t q hx hq
  cases exec_effect hx with
  | raised | wroteHiLo | went | stored => subst t; exact absurd rfl hq
  | wrote r v npc hd hi hn h =>
    subst h
    rw [State.commit_reg, State.reg_setReg] at hq
    split at hq
    next hqr => exact ⟨hqr.2, hqr.1 ▸ hd, fun h => absurd h hi⟩
    next => exact absurd rfl hq
  | called hi he =>
    subst hi
    cases he with
    | printed | raised | exited => subst t; exact absurd rfl hq
    | raisedAfter k u hk ha hu h | tookString bs u hc ha hu hn hb h => rw [h, hu] at hq; exact absurd rfl hq
    | tookInteger v u hc ha hu h =>
      rw [h, hu, State.commit_reg, State.reg_setReg] at hq
      split at hq
      next hqr => exact ⟨hqr.2, hqr.1 ▸ rfl, fun _ => hc⟩
      next => exact absurd rfl hq

/-- A byte that storing changes is one of those stored to. -/
theorem State.storeBytes_changed {s : State} {a x : Word} {bs : List Byte} (hl : bs.length ≤ 4294967296)
    (hx : (s.storeBytes a bs).byteAt x ≠ s.byteAt x) : ∃ k < bs.length, x = a + BitVec.ofNat 32 k := by
  by_contra hne
  push Not at hne
  exact hx ((State.storeBytes_stored s a bs hl).2 x hne)

/-- Settles O20: the only effects that change memory store to backed addresses, a store at its target and read string
from `$a0` on. -/
theorem onlyStoresChangeMemory : Obligations.OnlyStoresChangeMemory := by
  unfold Obligations.OnlyStoresChangeMemory
  intro i s t a hx ha
  cases exec_effect hx with
  | raised | wroteHiLo | went => subst t; exact absurd rfl ha
  | wrote r v npc hd hi hn h => subst h; simp at ha
  | stored e bs hs hl hc hb h =>
    subst h
    obtain ⟨k, hk, rfl⟩ := State.storeBytes_changed (by omega) ha
    exact ⟨hb k hk, .inl ⟨e, _, k, hs, hk, rfl⟩⟩
  | called hi he =>
    cases he with
    | printed | raised | exited => subst t; exact absurd rfl ha
    | raisedAfter k u hk htaken hu h => rw [h, hu] at ha; exact absurd rfl ha
    | tookInteger v u hc htaken hu h => rw [h, hu] at ha; simp [State.byteAt] at ha
    | tookString bs u hc htaken hu hn hb h =>
      rw [h, hu] at ha
      obtain rfl | hn := hn
      · exact absurd rfl ha
      · have hmax := (s.reg 5#5).two_mul_toInt_lt
        obtain ⟨k, hk, rfl⟩ := State.storeBytes_changed (s := s) (by omega) ha
        exact ⟨hb k hk, .inr ⟨hi, hc, k, by omega, rfl⟩⟩

/-- Settles O22: the effects that end Faulted raise a kind that the table lists for the instruction. -/
theorem faultKindsByInstruction : Obligations.FaultKindsByInstruction := by
  unfold Obligations.FaultKindsByInstruction
  rintro i s t - hx hf
  cases exec_effect hx with
  | raised k hk h => subst h; exact ⟨_, rfl, rfl, hk⟩
  | wrote | wroteHiLo | went | stored => subst t; cases hf
  | called hi he =>
    subst hi
    cases he with
    | raised k hk h => subst h; exact ⟨_, rfl, rfl, hk⟩
    | raisedAfter k u hk ha hu h => rw [h, hu]; exact ⟨_, rfl, rfl, hk⟩
    | printed | tookInteger | tookString | exited => subst t; cases hf

/-- Settles O23: every effect but a fault and a branch, jump or call commits `pc + 4`. -/
theorem onlyControlInstructionsJump : Obligations.OnlyControlInstructionsJump := by
  unfold Obligations.OnlyControlInstructionsJump
  intro i s t hc hx hf
  cases exec_effect hx with
  | raised k hk h => subst h; exact absurd rfl hf
  | wrote r v npc hd hi hn h => subst h; exact hn hc
  | went npc hctl h => rw [hc] at hctl; cases hctl
  | wroteHiLo | stored => subst t; rfl
  | called hi he =>
    cases he with
    | raised | raisedAfter => subst t; exact absurd rfl hf
    | printed | tookInteger | tookString | exited => subst t; rfl

/-- What `syscall` does to the host's streams (spec/44_syscall.md R271). -/
theorem SyscallEffect.streams {s t : State} (h : SyscallEffect s t) :
    SameStreams s t ∨ AnswerTaken s t ∨ ∃ bytes, Printed s t bytes := by
  cases h with
  | raised | exited => subst t; exact .inl ⟨rfl, rfl, rfl⟩
  | printed bytes h => subst h; exact .inr (.inr ⟨bytes, rfl, rfl, rfl⟩)
  | raisedAfter | tookString => subst t; exact .inr (.inl ‹_›)
  | tookInteger v u hc ha hu h => subst h; exact .inr (.inl (by simpa [AnswerTaken] using ha))

/-- Settles O24: no effect but that of `syscall` touches the streams. -/
theorem onlySyscallCallsTheHost : Obligations.OnlySyscallCallsTheHost := by
  unfold Obligations.OnlySyscallCallsTheHost
  intro i s t hx
  have hsame (hi : i ≠ .syscall) : SameStreams s t := by
    cases exec_effect hx with
    | raised | wroteHiLo | went | stored => subst t; exact ⟨rfl, rfl, rfl⟩
    | wrote r v npc hd hi hn h => subst h; exact ⟨by simp, by simp, by simp⟩
    | called hsys he => exact absurd hsys hi
  refine ⟨exec_setup hx, hsame, ?_⟩
  by_cases hi : i = .syscall
  · subst hi; exact (effect_syscall hx).streams
  · exact .inl (hsame hi)
end Sys2Proof.Machine
end

section
/-! Proofs about HI and LO (spec/10_state.md R25): who writes them, and that only `mfhi` and `mflo` read them. -/

namespace Sys2Proof.Machine
open Sys2Proof Sys2Proof.Laws

/-! ### HI and LO are not read (R25) -/

/-- Of the outcomes of one instruction from `s` and from `s` with other HI and LO, the second does what the first does,
but for HI and LO, each of which is the same written value or is kept. -/
structure HiLoBlind (s : State) (hi lo : Word) (o o' : Host.Outcome State Fault Refusal) : Prop where
  next : ∀ t, o = .next t → ∃ u, o' = .next u ∧ { u with hi := t.hi, lo := t.lo } = t ∧
    (u.hi = t.hi ∨ (u.hi = hi ∧ t.hi = s.hi)) ∧ (u.lo = t.lo ∨ (u.lo = lo ∧ t.lo = s.lo))

section
variable {s : State} {hi lo : Word}

/-- A next state that is the same but for HI and LO, both kept. -/
theorem hiLoBlind_kept {t : State} (hhi : t.hi = s.hi) (hlo : t.lo = s.lo) :
    HiLoBlind s hi lo (.next t) (.next (t.setHiLo hi lo)) := by
  refine ⟨fun t' ht => ?_⟩
  cases ht
  exact ⟨_, rfl, rfl, .inr ⟨rfl, hhi⟩, .inr ⟨rfl, hlo⟩⟩

/-- An outcome that is no next state. -/
theorem hiLoBlind_stopped (f : Fault) (o' : Host.Outcome State Fault Refusal) : HiLoBlind s hi lo (.fault f) o' :=
  ⟨fun t ht => by cases ht⟩

/-- A next state that is the same, HI and LO included. -/
theorem hiLoBlind_written (t : State) : HiLoBlind s hi lo (.next t) (.next t) :=
  ⟨fun t' ht => ⟨t', ht, rfl, .inl rfl, .inl rfl⟩⟩

theorem hiLoBlind_fault (k : FaultKind) : HiLoBlind s hi lo (fault k s) (fault k (s.setHiLo hi lo)) :=
  hiLoBlind_kept (t := s.raise k) rfl rfl

theorem State.setReg_setHiLo (s : State) (hi lo : Word) (r : RegIdx) (v : Word) :
    (s.setHiLo hi lo).setReg r v = (s.setReg r v).setHiLo hi lo := by
  unfold State.setReg
  split <;> rfl

/-- A write of a register and a next PC. -/
theorem hiLoBlind_setReg (r : RegIdx) (v npc : Word) :
    HiLoBlind s hi lo (.next ((s.setReg r v).commit npc)) (.next (((s.setHiLo hi lo).setReg r v).commit npc)) := by
  rw [State.setReg_setHiLo]
  exact hiLoBlind_kept (t := (s.setReg r v).commit npc) (by simp) (by simp)

theorem hiLoBlind_writeResult (r : RegIdx) (v : Word) :
    HiLoBlind s hi lo (writeResult r v s) (writeResult r v (s.setHiLo hi lo)) := by
  have hpc : (s.setHiLo hi lo).pc = s.pc := rfl
  simp only [writeResult, nextInstr, State.setReg_pc, hpc]
  exact hiLoBlind_setReg ..

/-- A choice by a condition that does not read HI and LO. -/
theorem HiLoBlind.ite {c c' : Prop} [Decidable c] [Decidable c'] {o₁ o₂ o₁' o₂' : Host.Outcome State Fault Refusal}
    (hc : c ↔ c') (h₁ : HiLoBlind s hi lo o₁ o₁') (h₂ : HiLoBlind s hi lo o₂ o₂') :
    HiLoBlind s hi lo (if c then o₁ else o₂) (if c' then o₁' else o₂') := by
  by_cases h : c
  · rw [if_pos h, if_pos (hc.mp h)]; exact h₁
  · rw [if_neg h, if_neg (mt hc.mpr h)]; exact h₂

theorem hiLoBlind_trappingResult (r : RegIdx) (e : Int) :
    HiLoBlind s hi lo (trappingResult r e s) (trappingResult r e (s.setHiLo hi lo)) :=
  .ite Iff.rfl (hiLoBlind_fault _) (hiLoBlind_writeResult ..)

theorem hiLoBlind_loadTo (r : RegIdx) (x : Except FaultKind Word) :
    HiLoBlind s hi lo (loadTo r x s) (loadTo r x (s.setHiLo hi lo)) := by
  cases x with
  | error f => exact hiLoBlind_fault f
  | ok v => exact hiLoBlind_writeResult r v

theorem State.checkAccess_setHiLo (s : State) (hi lo : Word) (k : Access) (a : Word) (n : Nat) :
    (s.setHiLo hi lo).checkAccess k a n = s.checkAccess k a n := by
  simp only [State.checkAccess, State.firstUnbacked_congr (s := s) (t := s.setHiLo hi lo) ⟨rfl, rfl⟩]

theorem hiLoBlind_storeTo (a : Word) (bs : List Byte) :
    HiLoBlind s hi lo (storeTo a bs s) (storeTo a bs (s.setHiLo hi lo)) := by
  rw [storeTo_elim, storeTo_elim, State.checkAccess_setHiLo]
  cases s.checkAccess .store a bs.length with
  | some f => exact hiLoBlind_fault f
  | none => exact hiLoBlind_kept (t := (s.storeBytes a bs).commit (s.pc + 4#32)) rfl rfl

/-! ### The services of `syscall` -/

theorem State.scanString_setHiLo (s : State) (hi lo : Word) (n : Nat) (a : Word) :
    (s.setHiLo hi lo).scanString n a = s.scanString n a := by
  induction n generalizing a with
  | zero => rfl
  | succ n ih =>
    have hread : (s.setHiLo hi lo).memRead8 .load a = s.memRead8 .load a := rfl
    simp only [State.scanString, hread, ih]

theorem hiLoBlind_printString : HiLoBlind s hi lo (printString s) (printString (s.setHiLo hi lo)) := by
  simp only [printString, State.scanString_setHiLo, State.setHiLo_reg]
  cases s.scanString addressCount (s.reg regA0) with
  | found bs => exact hiLoBlind_kept (t := (s.out bs).commit (s.pc + 4#32)) rfl rfl
  | stopped k => exact hiLoBlind_fault k
  | endless => exact hiLoBlind_stopped ..

theorem State.readLine_setHiLo (s : State) (hi lo : Word) :
    (s.setHiLo hi lo).readLine = (s.readLine.1, s.readLine.2.setHiLo hi lo) := by
  have ha : (s.setHiLo hi lo).answers = s.answers := rfl
  simp only [State.readLine, ha]
  cases s.answers <;> rfl

/-- Blindness after an answer was taken, which leaves HI and LO. -/
theorem HiLoBlind.of_taken {u : State} {o o' : Host.Outcome State Fault Refusal} (hhi : u.hi = s.hi) (hlo : u.lo = s.lo)
    (h : HiLoBlind u hi lo o o') : HiLoBlind s hi lo o o' := by
  refine ⟨fun t ht => ?_⟩
  rw [← hhi, ← hlo]
  exact h.next t ht

theorem hiLoBlind_readInteger : HiLoBlind s hi lo (readInteger s) (readInteger (s.setHiLo hi lo)) := by
  simp only [readInteger, State.readLine_setHiLo]
  rcases hr : s.readLine with ⟨a, u⟩
  obtain ⟨-, -, hu⟩ := State.readLine_spec hr
  refine HiLoBlind.of_taken (u := u) (by rw [hu]) (by rw [hu]) ?_
  cases a with
  | exhausted => exact hiLoBlind_fault _
  | silent => exact hiLoBlind_stopped ..
  | line text =>
    dsimp only
    cases parseInteger text with
    | none => exact hiLoBlind_fault _
    | some v => exact hiLoBlind_writeResult ..

theorem hiLoBlind_storeString (a : Word) (bs : List Byte) :
    HiLoBlind s hi lo (storeString a bs s) (storeString a bs (s.setHiLo hi lo)) := by
  simp only [storeString, State.firstUnbacked_congr (s := s) (t := s.setHiLo hi lo) ⟨rfl, rfl⟩]
  cases s.firstUnbacked a bs.length with
  | some x => exact hiLoBlind_fault _
  | none => exact hiLoBlind_kept (t := (s.storeBytes a bs).commit (s.pc + 4#32)) rfl rfl

theorem hiLoBlind_readString : HiLoBlind s hi lo (readString s) (readString (s.setHiLo hi lo)) := by
  simp only [readString, State.readLine_setHiLo, State.setHiLo_reg]
  rcases hr : s.readLine with ⟨a, u⟩
  obtain ⟨-, -, hu⟩ := State.readLine_spec hr
  refine HiLoBlind.of_taken (u := u) (by rw [hu]) (by rw [hu]) ?_
  cases a with
  | exhausted => exact hiLoBlind_fault _
  | silent => exact hiLoBlind_stopped ..
  | line text => exact hiLoBlind_storeString ..

theorem hiLoBlind_syscall : HiLoBlind s hi lo (execSyscall s) (execSyscall (s.setHiLo hi lo)) := by
  simp only [execSyscall, State.setHiLo_reg]
  split
  · exact hiLoBlind_kept (t := (s.out (utf8 (decimalText (s.reg regA0).toInt))).commit (s.pc + 4#32)) rfl rfl
  · exact hiLoBlind_printString
  · exact hiLoBlind_readInteger
  · exact hiLoBlind_readString
  · exact hiLoBlind_kept (t := (s.commit (s.pc + 4#32)).halt) rfl rfl
  · exact hiLoBlind_fault _

/-! ### Every instruction -/

theorem hiLoBlind_div (rs rt : RegIdx) : HiLoBlind s hi lo (execDiv rs rt s) (execDiv rs rt (s.setHiLo hi lo)) := by
  refine .ite Iff.rfl (hiLoBlind_fault _) (.ite Iff.rfl ?overflow (hiLoBlind_written _))
  simp only [State.setHiLo_config]
  cases s.config.divOverflow with
  | fault => exact hiLoBlind_fault _
  | wrap => exact hiLoBlind_written _

theorem hiLoBlind_divu (rs rt : RegIdx) : HiLoBlind s hi lo (execDivu rs rt s) (execDivu rs rt (s.setHiLo hi lo)) :=
  .ite Iff.rfl (hiLoBlind_fault _) (hiLoBlind_written _)

theorem hiLoBlind_exec {i : Instr} (hread : ∀ rd, i ≠ .mfhi rd ∧ i ≠ .mflo rd) :
    HiLoBlind s hi lo (exec i s) (exec i (s.setHiLo hi lo)) := by
  cases i with
  | mfhi rd => exact absurd rfl (hread rd).1
  | mflo rd => exact absurd rfl (hread rd).2
  | add | sub | addi => exact hiLoBlind_trappingResult ..
  | lb | lbu | lh | lhu | lw => exact hiLoBlind_loadTo ..
  | sb | sh | sw => exact hiLoBlind_storeTo ..
  | syscall => exact hiLoBlind_syscall
  | mult | multu => exact hiLoBlind_written _
  | div => exact hiLoBlind_div ..
  | divu => exact hiLoBlind_divu ..
  | mthi rs =>
    refine ⟨fun t ht => ?_⟩
    cases ht
    exact ⟨_, rfl, rfl, .inl rfl, .inr ⟨rfl, rfl⟩⟩
  | mtlo rs =>
    refine ⟨fun t ht => ?_⟩
    cases ht
    exact ⟨_, rfl, rfl, .inr ⟨rfl, rfl⟩, .inl rfl⟩
  | beq | bne | blez | bgtz | bltz | bgez | j | jr => exact hiLoBlind_kept (t := s.commit _) rfl rfl
  | bltzal | bgezal | jal | jalr => exact hiLoBlind_setReg ..
  | _ => exact hiLoBlind_writeResult ..

end

/-- Only the multiply/divide family writes HI and LO. -/
theorem writesHiLo_of_changed {i : Instr} {s t : State} (h : exec i s = .next t) (hc : t.hi ≠ s.hi ∨ t.lo ≠ s.lo) :
    writesHiLo i = true := by
  cases exec_effect h with
  | wroteHiLo hi lo hw _ _ => exact hw
  | raised | went | stored => subst t; simp at hc
  | wrote r v npc _ _ _ h => subst h; simp at hc
  | called _ he =>
    cases he with
    | printed | raised | exited => subst t; simp at hc
    | raisedAfter k u hk ha hu h | tookInteger v u _ ha hu h | tookString bs u _ ha hu hn hb h =>
      rw [h, hu] at hc; simp at hc

/-- Settles O19: the writers by the effects of an instruction, the readers by running it on both states. -/
theorem hiLoBelongToTheirFamily : Obligations.HiLoBelongToTheirFamily := by
  unfold Obligations.HiLoBelongToTheirFamily
  intro i s t h
  exact ⟨writesHiLo_of_changed h, fun hread hi lo => (hiLoBlind_exec hread).next t h⟩

end Sys2Proof.Machine
end

section
/-! Proofs about spec/41_muldiv.md R208 and the linking branches and jumps of spec/42_control.md. -/

namespace Sys2Proof.Machine
open Sys2Proof Sys2Proof.Laws

/-! ### The laws of division (R208) -/

/-- A division that goes on has a nonzero divisor. -/
theorem divisor_ne_zero {i : Instr} {s t : State} {rt : RegIdx}
    (hzero : s.reg rt = 0#32 → exec i s = fault .divideByZero s) (h : exec i s = .next t) (hrun : t.status = .running) :
    s.reg rt ≠ 0#32 := by
  intro h0
  rw [fault_next ((hzero h0).symm.trans h)] at hrun
  cases hrun

theorem ne_overflow_of_running {s t : State} {rs rt : RegIdx} (h : exec (.div rs rt) s = .next t)
    (hrun : t.status = .running) (hcfg : s.config.divOverflow = .fault) :
    ¬(s.reg rs = 0x80000000#32 ∧ s.reg rt = 0xFFFFFFFF#32) := by
  rintro ⟨ha, hb⟩
  rw [fault_next ((exec_div_overflow_fault ha hb hcfg).symm.trans h)] at hrun
  cases hrun

/-- Truncated division over the integers: the law, the bound and the sign of the remainder. -/
theorem tdiv_tmod_laws (a : Int) {b : Int} (hb : b ≠ 0) :
    a = a.tdiv b * b + a.tmod b ∧ |a.tmod b| < |b| ∧ (a.tmod b = 0 ∨ (a.tmod b < 0 ↔ a < 0)) := by
  refine ⟨(Int.tdiv_mul_add_tmod a b).symm, ?bound, ?sign⟩
  case bound =>
    rw [Int.abs_eq_natAbs, Int.abs_eq_natAbs, Int.natAbs_tmod]
    exact_mod_cast Nat.mod_lt _ (Int.natAbs_pos.mpr hb)
  case sign =>
    obtain ha | ha := lt_or_ge a 0
    · have := Int.tmod_nonneg b (show 0 ≤ -a by omega)
      rw [Int.neg_tmod] at this
      omega
    · have := Int.tmod_nonneg b ha
      omega

/-- Settles O33: where a division goes on, HI and LO hold the exact remainder and quotient, and the laws are those of
the integers. -/
theorem divisionLaws : Obligations.DivisionLaws := by
  unfold Obligations.DivisionLaws
  intro s t rs rt hrun
  refine ⟨fun h hcfg => ?div, fun h => ?divu⟩
  case div =>
    have h0 := divisor_ne_zero exec_div_zero h hrun
    have hov := ne_overflow_of_running h hrun hcfg
    rw [nextInstr_next ((exec_div_quotient h0 hov).symm.trans h) rfl]
    simp only [State.commit_hi, State.commit_lo, State.setHiLo_hi, State.setHiLo_lo, toInt_ofInt_tdiv hov,
      toInt_ofInt_tmod]
    exact tdiv_tmod_laws _ fun hz => h0 (BitVec.eq_of_toInt_eq hz)
  case divu =>
    have h0 := divisor_ne_zero exec_divu_zero h hrun
    rw [nextInstr_next ((exec_divu_quotient h0).symm.trans h) rfl]
    simp only [State.commit_hi, State.commit_lo, State.setHiLo_hi, State.setHiLo_lo, toNat_ofNat_div, toNat_ofNat_mod]
    exact ⟨(Nat.div_add_mod' ..).symm, Nat.mod_lt _ (Nat.pos_of_ne_zero fun hz => h0 (BitVec.eq_of_toNat_eq hz))⟩

/-! ### Linking branches and jumps (spec/42_control.md R227, R228, R232) -/

/-- A branch that links writes `pc + 4` to `$ra` and goes to its target exactly when it is taken. -/
theorem exec_branchLinkIf_writesReg {i : Instr} {s : State} {taken : Bool} {imm : Half}
    (hx : exec i s = branchLinkIf taken imm s) :
    ∃ t, exec i s = .next t ∧ WritesReg s t 31#5 (s.pc + 4#32)
      (if taken then s.pc + 4#32 + BitVec.ofInt 32 (4 * imm.toInt) else s.pc + 4#32) := by
  rw [← branchTarget_eq]
  exact exec_links hx

/-- Settles O36: two REGIMM keys and one ending that differs in the condition, read before the link is written. -/
theorem linkingBranches : Obligations.LinkingBranches := by
  unfold Obligations.LinkingBranches
  intro s rs imm target
  simp only [List.forall_mem_cons, List.not_mem_nil, false_implies, implies_true, and_true]
  exact ⟨⟨encodes_encode (.bltzal rs imm), exec_branchLinkIf_writesReg rfl⟩,
    ⟨encodes_encode (.bgezal rs imm), exec_branchLinkIf_writesReg rfl⟩⟩

/-- Settles O38: the target is read before the link is written, and a link to register 0 is discarded. -/
theorem jalrLinksAndJumps : Obligations.JalrLinksAndJumps := by
  unfold Obligations.JalrLinksAndJumps
  intro s rd rs
  exact ⟨encodes_encode (.jalr rd rs), exec_links rfl, rfl⟩

/-! ### The target is checked by the next fetch (R233) -/

/-- No branch, jump or call has an entry in the column "raised by" (spec/60_exceptions.md R300). -/
theorem faultCodes_of_isControl {i : Instr} (hc : isControl i = true) : faultCodes i = [] := by
  cases i <;> simp_all [isControl, faultCodes]

/-- A branch, jump or call ends Running: of the effects of an instruction only two commit a next PC of its own. -/
theorem running_of_isControl {i : Instr} {s t : State} (hc : isControl i = true) (h : exec i s = .next t) :
    t.status = .running := by
  cases exec_effect h with
  | wrote | went => subst t; rfl
  | raised k hk _ => rw [faultCodes_of_isControl hc] at hk; cases hk
  | wroteHiLo hi lo hw hn _ | stored a bs hs hl hn hb _ => rw [hc] at hn; cases hn
  | called hi he => subst hi; cases hc

/-- Settles O39: the instruction ends Running and its next step is a fetch like any other. -/
theorem badTargetsFaultAtTheNextFetch : Obligations.BadTargetsFaultAtTheNextFetch := by
  unfold Obligations.BadTargetsFaultAtTheNextFetch
  intro i s t hc h
  have hrun := running_of_isControl hc h
  obtain ⟨hmis, hend, hout⟩ := fetchChecksInOrder t (.inr hrun)
  exact ⟨hrun, hmis, hend, fun hal hoff => hout hal (by omega) hoff⟩

end Sys2Proof.Machine
end

section
/-! Proofs about a stored word (spec/20_memory.md R67, R80): it reads back big-endian and is fetched by the next step. -/

namespace Sys2Proof.Machine
open Sys2Proof Sys2Proof.Laws

/-! ### What a completed `sw` has done (spec/43_loadstore.md R258, R259) -/

/-- An access that passes its check is aligned and backed. -/
theorem State.checkAccess_eq_none {s : State} {k : Access} {a : Word} {n : Nat} (h : s.checkAccess k a n = none) :
    aligned a n = true ∧ ∀ j < n, s.backed (a + BitVec.ofNat 32 j) = true := by
  unfold State.checkAccess at h
  split at h
  next hal => exact ⟨hal, State.firstUnbacked_eq_none.mp (Option.map_eq_none_iff.mp h)⟩
  next => cases h

/-- A `sw` that does not fault has stored the register's bytes at a multiple of 4, all of them backed. -/
theorem sw_stored {s t : State} {rt rs : RegIdx} {imm : Half} (h : exec (.sw rt rs imm) s = .next t)
    (hf : t.status ≠ .faulted) :
    aligned (s.effAddr rs imm) 4 = true ∧ (∀ k < 4, s.backed (s.effAddr rs imm + BitVec.ofNat 32 k) = true) ∧
      Stores s t (s.effAddr rs imm) (bytesOfWord (s.reg rt)) := by
  have hx : storeTo (s.effAddr rs imm) (bytesOfWord (s.reg rt)) s = .next t := h
  cases hc : s.checkAccess .store (s.effAddr rs imm) (bytesOfWord (s.reg rt)).length with
  | some k =>
    obtain ⟨u, hu, ⟨hfaulted, -⟩, -⟩ := storeTo_error _ _ s hc
    cases hx.symm.trans hu
    exact absurd hfaulted hf
  | none =>
    obtain ⟨u, hu, hst⟩ := storeTo_ok _ (bytesOfWord (s.reg rt)) s (by simp [bytesOfWord]) hc
    cases hx.symm.trans hu
    obtain ⟨hal, hb⟩ := State.checkAccess_eq_none hc
    exact ⟨hal, hb, hst⟩

/-! ### Reading the word back (spec/20_memory.md R67, R77) -/

section
variable {t : State} {A v : Word} (hb : BytesStored s t A (bytesOfWord v))
include hb

/-- The bytes of a stored word, the most significant at the lowest address. -/
theorem byteAt_storedWord {k : Nat} (hk : k < 4) :
    t.byteAt (A + BitVec.ofNat 32 k) = BitVec.ofNat 8 (v.toNat / 2 ^ (8 * (3 - k))) := by
  rw [hb.1 k hk]
  interval_cases k <;> exact extractLsb'_eq_ofNat_div v _

/-- The bytes at the address of a stored word join to it. -/
theorem wordOfBytes_storedWord :
    wordOfBytes (t.byteAt A) (t.byteAt (A + 1#32)) (t.byteAt (A + 2#32)) (t.byteAt (A + 3#32)) = v := by
  have h0 := hb.1 0 (by simp [bytesOfWord])
  have h1 := hb.1 1 (by simp [bytesOfWord])
  have h2 := hb.1 2 (by simp [bytesOfWord])
  have h3 := hb.1 3 (by simp [bytesOfWord])
  rw [BitVec.add_zero] at h0
  rw [h0, h1, h2, h3]
  exact wordOfBytes_bytesOfWord v

/-- Two neighbouring bytes of a stored word are the halfword of its value there. -/
theorem halfword_storedWord {k : Nat} (hk : k < 2) :
    t.byteAt (A + BitVec.ofNat 32 (2 * k)) ++ t.byteAt (A + BitVec.ofNat 32 (2 * k) + 1#32) =
      BitVec.ofNat 16 (v.toNat / 2 ^ (16 * (1 - k))) := by
  rw [BitVec.add_assoc, ← BitVec.ofNat_add, byteAt_storedWord hb (by omega), byteAt_storedWord hb (by omega),
    show 8 * (3 - 2 * k) = 16 * (1 - k) + 8 by omega, show 8 * (3 - (2 * k + 1)) = 16 * (1 - k) by omega,
    Nat.pow_add, ← Nat.div_div_eq_div_mul]
  apply BitVec.eq_of_toNat_eq
  simp only [append_toNat, BitVec.toNat_ofNat]
  omega

end

theorem aligned_two_of_four {A : Word} (h : aligned A 4 = true) (k : Nat) :
    aligned (A + BitVec.ofNat 32 (2 * k)) 2 = true := by
  rw [aligned_four] at h
  rw [aligned_two, BitVec.toNat_add, BitVec.toNat_ofNat]
  omega

/-- Settles O43: the store has checked the four bytes, so the reads of them pass their checks, and they read the bytes
stored. -/
theorem storedWordsReadBackBigEndian : Obligations.StoredWordsReadBackBigEndian := by
  unfold Obligations.StoredWordsReadBackBigEndian
  intro s t rt rs imm h hrun A v
  obtain ⟨hal, hbacked, ⟨-, -, -, hset⟩, -, -, hbytes, -⟩ := sw_stored h (by simp [hrun])
  have hback (k : Nat) (hk : k < 4) : t.backed (A + BitVec.ofNat 32 k) = true := by
    rw [State.backed_congr hset]; exact hbacked k hk
  refine ⟨?word, fun k hk => ?half, fun k hk => ?byte⟩
  case word =>
    rw [State.memRead32_eq_elim, State.checkAccess_ok hal hback, Option.elim_none, wordOfBytes_storedWord hbytes]
  case half =>
    have hback2 (j : Nat) (hj : j < 2) : t.backed (A + BitVec.ofNat 32 (2 * k) + BitVec.ofNat 32 j) = true := by
      rw [BitVec.add_assoc, ← BitVec.ofNat_add]; exact hback _ (by omega)
    rw [State.memRead16_eq_elim, State.checkAccess_ok (aligned_two_of_four hal k) hback2, Option.elim_none,
      halfword_storedWord hbytes hk]
  case byte =>
    rw [State.memRead8_eq_elim, State.checkAccess_one, if_pos (hback k hk), Option.elim_none,
      byteAt_storedWord hbytes hk]

/-! ### Fetching a stored word (R80) -/

/-- Settles O10: the word at the next PC is the one stored, and the step decodes it. -/
theorem fetchSeesTheStore : Obligations.FetchSeesTheStore := by
  unfold Obligations.FetchSeesTheStore
  intro s t rt rs imm i h hfetch hpc hdec
  have hlive : t.status ≠ .faulted := by obtain ⟨hl | hl, -⟩ := hfetch <;> simp [hl]
  obtain ⟨-, -, -, -, -, hbytes, -⟩ := sw_stored h hlive
  have hword : wordAtPc t = s.reg rt := by
    rw [← wordOfBytes_storedWord hbytes, wordAtPc, hpc]
    rfl
  exact stepRunsTheDecodedInstruction t i hfetch (hword ▸ hdec)
end Sys2Proof.Machine
end

section
/-! Proofs about load, reset and the host's operations (spec/70_reset_and_hazards.md R330 to R344). -/

namespace Sys2Proof.Machine
open Sys2Proof Sys2Proof.Laws

/-! ### Regions and addresses (spec/20_memory.md R60) -/

/-- Settles O5: the three interval tests of `backed`, with STACK_BASE as an integer. -/
theorem regionsAreBackedExactly : Obligations.RegionsAreBackedExactly := by
  unfold Obligations.RegionsAreBackedExactly
  intro s a
  have hbase : s.config.stackTop.toNat ≤ a.toNat + s.config.stackSize ↔
      (s.config.stackTop.toNat : Int) - s.config.stackSize ≤ a.toNat := by omega
  simp only [State.backed, State.inText, State.inData, State.inStack, Bool.or_eq_true, decide_eq_true_eq, or_assoc,
    hbase]
  rfl

/-- An address reached without wrapping. -/
theorem toNat_add_ofNat {a : Word} {k : Nat} (h : a.toNat + k < 4294967296) :
    (a + BitVec.ofNat 32 k).toNat = a.toNat + k := by
  rw [BitVec.toNat_add, BitVec.toNat_ofNat]
  omega

/-- Storing to an interval that does not wrap leaves every address outside it. -/
theorem Memory.read_writeBytes_outside (m : Memory) {a x : Word} {bs : List Byte}
    (hend : a.toNat + bs.length ≤ 4294967296) (hx : x.toNat < a.toNat ∨ a.toNat + bs.length ≤ x.toNat) :
    (m.writeBytes a bs).read x.toNat = m.read x.toNat := by
  refine (Memory.read_writeBytes m a bs (by omega) x).2 fun k hk he => ?_
  rw [he, toNat_add_ofNat (by omega)] at hx
  omega

/-! ### What load refuses (spec/70_reset_and_hazards.md R331) -/

theorem load_eq_error {c : Config} {p : ProgramImage} :
    (∃ e, load c p = .error e) ↔ ∃ q ∈ loadChecks c p.image, q.1 = true := by
  have hnil : loadErrors c p.image = [] ↔ ¬∃ q ∈ loadChecks c p.image, q.1 = true := by
    simp [loadErrors, List.filterMap_eq_nil_iff]
  unfold load
  cases he : loadErrors c p.image with
  | nil => simpa using hnil.mp he
  | cons e es => simpa [he] using hnil

theorem regionWraps_iff {c : Config} {img : Image} {r : Region} : regionWraps c img r = true ↔
    (regionBounds c img r).1 < 0 ∨ 4294967296 < (regionBounds c img r).2 :=
  decide_eq_true_iff

/-- Two regions share an address when the later start lies before the earlier end. -/
theorem regionsOverlap_iff {c : Config} {img : Image} {r q : Region} : regionsOverlap c img r q = true ↔
    (regionBounds c img r).1 < (regionBounds c img r).2 ∧ (regionBounds c img q).1 < (regionBounds c img q).2 ∧
      max (regionBounds c img r).1 (regionBounds c img q).1 <
        min (regionBounds c img r).2 (regionBounds c img q).2 := by
  simp only [regionsOverlap, decide_eq_true_eq, max_lt_iff, lt_min_iff]
  omega

/-- Settles O4: the grounds of the model are those of the list, one by one. -/
theorem loadRefusesExactly : Obligations.LoadRefusesExactly := by
  unfold Obligations.LoadRefusesExactly
  intro c p text data stack
  rw [load_eq_error]
  have htext : regionBounds c p.image .text = text := by simp [regionBounds, textEnd, text]
  have hdata : regionBounds c p.image .data = data := by simp [regionBounds, dataEnd, dataSize, data]
  have hstack : regionBounds c p.image .stack = stack := rfl
  simp only [loadChecks, List.exists_mem_cons_iff, List.not_mem_nil, false_and, exists_false, or_false, or_assoc,
    decide_eq_true_eq, regionsOverlap_iff, regionWraps_iff, htext, hdata, hstack]
  norm_num [dataSize]

/-! ### What load gives (R330; spec/10_state.md R41) -/

/-- What the checks of load leave of an image: the data fit, no region wraps, no two share an address. -/
structure Loadable (c : Config) (img : Image) : Prop where
  dataFits : img.data.length ≤ dataSize c img
  textEnd_le : textEnd c img ≤ 4294967296
  dataEnd_le : dataEnd c img ≤ 4294967296
  notInTextAndData : ∀ a : Nat, c.textBase.toNat ≤ a → a < textEnd c img → c.dataBase.toNat ≤ a → dataEnd c img ≤ a
  notInTextAndStack : ∀ a : Nat, c.textBase.toNat ≤ a → a < textEnd c img → c.stackTop.toNat ≤ a + c.stackSize →
    c.stackTop.toNat ≤ a
  notInDataAndStack : ∀ a : Nat, c.dataBase.toNat ≤ a → a < dataEnd c img → c.stackTop.toNat ≤ a + c.stackSize →
    c.stackTop.toNat ≤ a

theorem load_eq_ok {c : Config} {p : ProgramImage} {s : State} (h : load c p = .ok s) :
    s = State.reset.loaded c p.image ∧ Loadable c p.image := by
  have hpass : ¬∃ q ∈ loadChecks c p.image, q.1 = true := by
    rw [← load_eq_error, h]
    rintro ⟨e, he⟩
    cases he
  constructor
  · unfold load at h
    split at h
    · cases h
    · cases h; rfl
  · simp only [loadChecks, List.exists_mem_cons_iff, List.not_mem_nil, false_and, exists_false, or_false, not_or,
      regionWraps_iff, regionsOverlap_iff, decide_eq_true_eq] at hpass
    simp only [regionBounds] at hpass
    obtain ⟨-, -, -, -, -, hfit, htext, hdata, -, htd, hts, hds⟩ := hpass
    constructor <;> omega

section
variable {c : Config} {img : Image} (hl : Loadable c img)
include hl

/-- Outside the text, memory after load is the data alone. -/
theorem read_loadedMem_outside_text {x : Word} (hx : x.toNat < c.textBase.toNat ∨ textEnd c img ≤ x.toNat) :
    (loadedMem c img).read x.toNat = (Memory.writeBytes [] c.dataBase img.data).read x.toNat :=
  Memory.read_writeBytes_outside _ hl.textEnd_le hx

/-- Outside the text and the data, memory after load is zero. -/
theorem read_loadedMem_outside {x : Word} (ht : x.toNat < c.textBase.toNat ∨ textEnd c img ≤ x.toNat)
    (hd : x.toNat < c.dataBase.toNat ∨ c.dataBase.toNat + img.data.length ≤ x.toNat) :
    (loadedMem c img).read x.toNat = 0x00#8 := by
  have hfit := hl.dataFits
  have hend := hl.dataEnd_le
  unfold dataEnd at hend
  rw [read_loadedMem_outside_text hl ht, Memory.read_writeBytes_outside _ (by omega) hd]
  rfl

theorem read_loadedMem_text {k : Nat} (hk : k < img.text.length) :
    (loadedMem c img).read (c.textBase + BitVec.ofNat 32 k).toNat = img.text[k] := by
  have hend := hl.textEnd_le
  unfold textEnd at hend
  exact (Memory.read_writeBytes _ _ _ (by omega) _).1 k hk rfl

theorem read_loadedMem_data {k : Nat} (hk : k < img.data.length) :
    (loadedMem c img).read (c.dataBase + BitVec.ofNat 32 k).toNat = img.data[k] := by
  have hfit := hl.dataFits
  have hend := hl.dataEnd_le
  have hnot := hl.notInTextAndData (c.dataBase.toNat + k)
  unfold dataEnd at hend hnot
  rw [read_loadedMem_outside_text hl (by rw [toNat_add_ofNat (by omega)]; omega)]
  exact (Memory.read_writeBytes _ _ _ (by omega) _).1 k hk rfl

end

theorem State.reg_loaded (s : State) (c : Config) (img : Image) (q : RegIdx) :
    (s.loaded c img).reg q = if q = 29#5 then c.stackTop else 0x00000000#32 := by
  have hq : regSp.toNat = q.toNat ↔ q = 29#5 := ⟨fun h => BitVec.eq_of_toNat_eq h.symm, fun h => by rw [h]; rfl⟩
  by_cases h0 : q = 0#5
  · subst h0; rfl
  · rw [State.reg_of_ne_zero _ h0]
    simp only [State.loaded, loadedRegs, Vector.getElem_set, hq, Vector.getElem_replicate]

/-- The state of a loadable image holds the values of the table of spec/10_state.md R41. -/
theorem loadedState_loaded (s : State) {c : Config} {img : Image} (hl : Loadable c img) :
    LoadedState c img (s.loaded c img) where
  regs := s.reg_loaded c img
  pc := rfl
  hi := rfl
  lo := rfl
  text _ hk := read_loadedMem_text hl hk
  data _ hk := read_loadedMem_data hl hk
  dataRest a hlo hhi := read_loadedMem_outside hl (by have := hl.notInTextAndData a.toNat; omega) (.inr hlo)
  stack a hlo hhi := by
    have hfit := hl.dataFits
    have hdata := hl.notInDataAndStack a.toNat
    unfold dataEnd at hdata
    exact read_loadedMem_outside hl (by have := hl.notInTextAndStack a.toNat; omega) (by omega)
  status := rfl
  lastFault := rfl
  setup := ⟨rfl, rfl⟩

/-- Settles O2: the checks of load keep the regions apart, so each reads as it was filled; reset loads again. -/
theorem loadGivesTheSpecState : Obligations.LoadGivesTheSpecState := by
  unfold Obligations.LoadGivesTheSpecState
  intro c p s h
  obtain ⟨rfl, hl⟩ := load_eq_ok h
  exact ⟨loadedState_loaded _ hl, loadedState_loaded _ hl⟩

/-- Settles O1: the reset state is the load of the empty image under the default configuration. -/
theorem resetHoldsTheLoadValues : Obligations.ResetHoldsTheLoadValues := by
  unfold Obligations.ResetHoldsTheLoadValues
  exact ⟨State.reset.reg_loaded Config.default State.reset.image, rfl, rfl, rfl, rfl, rfl, fun _ => rfl, rfl⟩

/-! ### What the host does keeps the parameters and the image (R332) -/

theorem writeMemory_eq_ok {s t : State} {a : Word} {bs : List Byte} (h : s.writeMemory a bs = .ok t) :
    t = s.storeBytes a bs ∧ ∀ k < bs.length, s.backed (a + BitVec.ofNat 32 k) = true := by
  unfold State.writeMemory at h
  split at h
  next => cases h
  next hb => cases h; exact ⟨rfl, State.firstUnbacked_eq_none.mp hb⟩

theorem SameSetup.trans {s t u : State} (h : SameSetup s t) (h' : SameSetup t u) : SameSetup s u :=
  ⟨h'.1.trans h.1, h'.2.trans h.2⟩

theorem HostReaches.sameSetup {s t : State} (h : HostReaches s t) : SameSetup s t := by
  induction h with
  | start => exact SameSetup.refl s
  | step _ hstep ih => exact ih.trans (step_setup hstep)
  | write a bs _ hw ih => rw [(writeMemory_eq_ok hw).1]; exact ih
  | offer answers _ ih => exact ih
  | reset _ ih => exact ih

/-- Settles O3: reset reads nothing of the state but its parameters, its image and the streams it leaves. -/
theorem hostResetRestoresTheLoadState : Obligations.HostResetRestoresTheLoadState := by
  unfold Obligations.HostResetRestoresTheLoadState
  intro c p s₀ s h hreach
  obtain ⟨rfl, -⟩ := load_eq_ok h
  obtain ⟨hconfig, himage⟩ := hreach.sameSetup
  rw [State.resetByHost, hconfig, himage]
  rfl

/-! ### The host makes consistent states -/

/-- After load, only bytes of the text and the data are listed. -/
theorem consistent_loaded (s : State) {c : Config} {img : Image} (hl : Loadable c img) :
    Consistent (s.loaded c img) where
  canonical := Memory.wf_writeBytes (Memory.wf_writeBytes Memory.wf_nil _ _) _ _
  backed cell hcell := by
    have hfit := hl.dataFits
    have htext := hl.textEnd_le
    have hdata := hl.dataEnd_le
    obtain hcell | ⟨k, hk, hk'⟩ := Memory.mem_writeBytes hcell
    · obtain hcell | ⟨k, hk, hk'⟩ := Memory.mem_writeBytes hcell
      · cases hcell
      · rw [hk', BitVec.ofNat_toNat, BitVec.setWidth_eq]
        have hin : (s.loaded c img).inData (c.dataBase + BitVec.ofNat 32 k) = true := by
          unfold dataEnd at hdata
          simp only [State.inData, decide_eq_true_eq]
          rw [toNat_add_ofNat (by omega)]
          exact ⟨Nat.le_add_right .., by show _ < dataEnd c img; unfold dataEnd; omega⟩
        exact ⟨BitVec.isLt _, by simp [State.backed, hin]⟩
    · rw [hk', BitVec.ofNat_toNat, BitVec.setWidth_eq]
      have hin : (s.loaded c img).inText (c.textBase + BitVec.ofNat 32 k) = true := by
        unfold textEnd at htext
        rw [inText_iff, toNat_add_ofNat (by omega)]
        exact ⟨Nat.le_add_right .., Nat.add_lt_add_left hk _⟩
      exact ⟨BitVec.isLt _, by simp [State.backed, hin]⟩
  faultRecord := by simp [State.loaded]
  zeroSlot := by simp [State.loaded, loadedRegs, regSp]

/-- Settles O12: load lists only bytes of its regions, reset is a load, and the host's write stores to backed
addresses. -/
theorem hostMakesConsistentStates : Obligations.HostMakesConsistentStates := by
  unfold Obligations.HostMakesConsistentStates
  have hload {c : Config} {p : ProgramImage} {s : State} (h : load c p = .ok s) : Consistent s := by
    obtain ⟨rfl, hl⟩ := load_eq_ok h
    exact consistent_loaded _ hl
  obtain ⟨-, -, -, -, -, -, -, hreset⟩ := resetHoldsTheLoadValues
  refine ⟨hload hreset, fun c p s h => hload h, fun s t a bs hs h => ?_⟩
  obtain ⟨rfl, hb⟩ := writeMemory_eq_ok h
  exact hs.storeBytes hb

/-! ### The host reads and writes (R341 to R343) -/

theorem State.bytesAt_length (s : State) (a : Word) (n : Nat) : (s.bytesAt a n).length = n := by
  induction n generalizing a with
  | zero => rfl
  | succ n ih => rw [State.bytesAt, List.length_cons, ih]

theorem State.getElem?_bytesAt (s : State) (a : Word) {n k : Nat} (hk : k < n) :
    (s.bytesAt a n)[k]? = some (s.byteAt (a + BitVec.ofNat 32 k)) := by
  induction n generalizing a k with
  | zero => omega
  | succ n ih =>
    cases k with
    | zero => simp [State.bytesAt]
    | succ k => rw [State.bytesAt, List.getElem?_cons_succ, ih _ (by omega), add_ofNat_succ a k]

theorem State.firstUnbacked_of_exists {s : State} {a : Word} {n : Nat}
    (h : ∃ k < n, s.backed (a + BitVec.ofNat 32 k) = false) : ∃ x, s.firstUnbacked a n = some x := by
  obtain ⟨k, hk, hu⟩ := h
  cases hf : s.firstUnbacked a n with
  | some x => exact ⟨x, rfl⟩
  | none => rw [State.firstUnbacked_eq_none.mp hf k hk] at hu; cases hu

theorem readMemory_of_backed {s : State} {a : Word} {n : Nat} (h : ∀ k < n, s.backed (a + BitVec.ofNat 32 k) = true) :
    s.readMemory a n = .ok (s.bytesAt a n) := by
  rw [State.readMemory, State.firstUnbacked_eq_none.mpr h]

/-- The bytes stored are the bytes read. -/
theorem BytesStored.bytesAt {s t : State} {a : Word} {bs : List Byte} (h : BytesStored s t a bs) :
    t.bytesAt a bs.length = bs := by
  apply List.ext_getElem?
  intro k
  by_cases hk : k < bs.length
  · rw [State.getElem?_bytesAt t a hk, h.1 k hk, List.getElem?_eq_getElem hk]
  · rw [List.getElem?_eq_none (by rw [State.bytesAt_length]; omega), List.getElem?_eq_none (by omega)]

/-- Settles O51: both go by the first unbacked address, and a write stores to memory alone. -/
theorem hostMemoryAccess : Obligations.HostMemoryAccess := by
  unfold Obligations.HostMemoryAccess
  intro s a n bs
  refine ⟨fun h => ?read, fun h => ?readError, fun hlen h => ?write, fun h => ?writeError⟩
  case read => exact ⟨_, readMemory_of_backed h, s.bytesAt_length a n, fun k hk => s.getElem?_bytesAt a hk⟩
  case readError =>
    obtain ⟨x, hx⟩ := State.firstUnbacked_of_exists h
    exact ⟨_, by rw [State.readMemory, hx]⟩
  case write =>
    have hstored := s.storeBytes_stored a bs hlen
    have hread := readMemory_of_backed (s := s.storeBytes a bs) (a := a) (n := bs.length) h
    rw [hstored.bytesAt] at hread
    exact ⟨_, by rw [State.writeMemory, State.firstUnbacked_eq_none.mpr h], hstored, hread, SameRegs.refl s,
      SameHiLo.refl s, rfl, rfl, rfl, SameSetup.refl s, SameStreams.refl s⟩
  case writeError =>
    obtain ⟨x, hx⟩ := State.firstUnbacked_of_exists h
    exact ⟨_, by rw [State.writeMemory, hx]⟩

/-- Settles O52: in range the register's signed value, whose bounds are those of 32 bits; else an error. -/
theorem readRegisterIsSigned : Obligations.ReadRegisterIsSigned := by
  unfold Obligations.ReadRegisterIsSigned
  intro s index
  refine ⟨fun h => ?inRange, fun h => ⟨_, by rw [State.readRegister, if_neg h]⟩⟩
  have hlo := (s.reg (BitVec.ofInt 5 index)).le_two_mul_toInt
  have hhi := (s.reg (BitVec.ofInt 5 index)).two_mul_toInt_lt
  exact ⟨_, by rw [State.readRegister, if_pos h], rfl, by omega, by omega, fun h0 => by subst h0; rfl⟩

end Sys2Proof.Machine
end

section
/-! Proofs about the texts of spec/44_syscall.md (R273, R275, R276): the model's decimal output, decimal input and UTF-8. -/

namespace Sys2Proof.Machine
open Sys2Proof Sys2Proof.Laws

/-! ### Decimal digits (spec/44_syscall.md R273) -/

theorem digitChar_toNat {d : Nat} (h : d < 10) : (digitChar d).toNat = 48 + d := by
  interval_cases d <;> rfl

theorem digitChar_eq {d : Nat} (h : d < 10) : digitChar d = d.digitChar := by
  interval_cases d <;> rfl

/-- With enough fuel the model's digits are Lean's. -/
theorem decimalNat_eq_toDigits {fuel n : Nat} (h : n < 10 ^ (fuel + 1)) :
    decimalNat (fuel + 1) n = Nat.toDigits 10 n := by
  induction fuel generalizing n with
  | zero => rw [decimalNat, if_pos (by omega), digitChar_eq (by omega), Nat.mod_eq_of_lt (by omega),
      Nat.toDigits_of_lt_base (by omega), List.nil_append]
  | succ fuel ih =>
    rw [decimalNat, digitChar_eq (by omega)]
    by_cases hn : n < 10
    · rw [if_pos hn, Nat.mod_eq_of_lt hn, Nat.toDigits_of_lt_base hn, List.nil_append]
    · have hdiv : n / 10 < 10 ^ (fuel + 1) := by omega
      rw [if_neg hn, ih hdiv, Nat.toDigits_of_base_le (n := n) (by omega) (by omega)]

/-- `decimal(i)` is Lean's own text of the integer. -/
theorem decimalText_eq_toString {i : Int} (h : i.natAbs < 10 ^ 10) : decimalText i = (toString i).toList := by
  have hrepr : toString i = i.repr := rfl
  rw [hrepr, Int.repr_eq_if, decimalText, decimalNat_eq_toDigits h]
  by_cases hi : i < 0
  · rw [if_pos hi, if_neg (by omega), show (-i).toNat = i.natAbs by omega, String.toList_append, Nat.toList_repr]
    rfl
  · rw [if_neg hi, if_pos (by omega), show i.toNat = i.natAbs by omega, Nat.toList_repr]

theorem mem_decimalNat {fuel n : Nat} {c : Char} (h : c ∈ decimalNat fuel n) : ∃ d < 10, c = digitChar d := by
  induction fuel generalizing n with
  | zero => cases h
  | succ fuel ih =>
    rw [decimalNat, List.mem_append, List.mem_singleton] at h
    obtain h | h := h
    · split at h
      · cases h
      · exact ih h
    · exact ⟨n % 10, by omega, h⟩

theorem decimalNat_ne_nil (fuel n : Nat) : decimalNat (fuel + 1) n ≠ [] := by
  simp [decimalNat]

theorem decimalValue_append_singleton (cs : List Char) (c : Char) :
    decimalValue (cs ++ [c]) = 10 * decimalValue cs + (c.toNat - 48) := by
  induction cs with
  | nil => simp [decimalValue]
  | cons a cs ih =>
    rw [List.cons_append, decimalValue, ih, decimalValue, List.length_append, List.length_singleton, Nat.pow_succ]
    ring

/-- With enough fuel the digits have the value of the number. -/
theorem decimalValue_decimalNat {fuel n : Nat} (h : n < 10 ^ fuel) : decimalValue (decimalNat fuel n) = n := by
  induction fuel generalizing n with
  | zero => simp [decimalNat, decimalValue]; omega
  | succ fuel ih =>
    rw [decimalNat, decimalValue_append_singleton, digitChar_toNat (by omega)]
    split
    · simp [decimalValue]; omega
    · rw [ih (by omega)]; omega

/-! ### UTF-8 (R276) -/

/-- The model's bytes of a character are Lean's. -/
theorem utf8Char_eq (c : Char) : utf8Char c = (String.utf8EncodeChar c).map (fun b => b.toBitVec) := by
  have hlt : c.toNat < 0x110000 := by
    have := c.valid
    unfold UInt32.isValidChar Nat.isValidChar at this
    change c.val.toNat < _
    omega
  have hval : c.val.toNat = c.toNat := rfl
  have hbyte {a b : Nat} (h : a % 256 = b % 256) : BitVec.ofNat 8 a = (UInt8.ofNat b).toBitVec :=
    BitVec.eq_of_toNat_eq (by simpa using h)
  unfold utf8Char String.utf8EncodeChar
  simp only [hval]
  by_cases h1 : c.toNat < 0x80
  · rw [if_pos h1, if_pos (by omega)]
    simp only [List.map_cons, List.map_nil, List.cons.injEq, and_true]
    exact hbyte (by omega)
  by_cases h2 : c.toNat < 0x800
  · rw [if_neg h1, if_pos h2, if_neg (by omega), if_pos (by omega)]
    simp only [List.map_cons, List.map_nil, List.cons.injEq, and_true]
    exact ⟨hbyte (by omega), hbyte (by omega)⟩
  by_cases h3 : c.toNat < 0x10000
  · rw [if_neg h1, if_neg h2, if_pos h3, if_neg (by omega), if_neg (by omega), if_pos (by omega)]
    simp only [List.map_cons, List.map_nil, List.cons.injEq, and_true]
    exact ⟨hbyte (by omega), hbyte (by omega), hbyte (by omega)⟩
  · rw [if_neg h1, if_neg h2, if_neg h3, if_neg (by omega), if_neg (by omega), if_neg (by omega)]
    simp only [List.map_cons, List.map_nil, List.cons.injEq, and_true]
    exact ⟨hbyte (by omega), hbyte (by omega), hbyte (by omega), hbyte (by omega)⟩

/-- A text of ASCII characters is one byte a character. -/
theorem utf8_ascii {cs : List Char} (h : ∀ c ∈ cs, c.toNat < 0x80) :
    utf8 cs = cs.map (fun c => BitVec.ofNat 8 c.toNat) := by
  induction cs with
  | nil => rfl
  | cons c cs ih =>
    have hc : utf8Char c = [BitVec.ofNat 8 c.toNat] := if_pos (h c (.head _))
    rw [utf8, List.flatMap_cons, hc, List.map_cons, ← ih fun d hd => h d (.tail _ hd)]
    rfl

theorem decimalText_ascii {i : Int} {c : Char} (h : c ∈ decimalText i) : c.toNat < 0x80 := by
  have hdigit (h : c ∈ decimalNat 10 i.natAbs) : c.toNat < 0x80 := by
    obtain ⟨d, hd, rfl⟩ := mem_decimalNat h
    rw [digitChar_toNat hd]
    omega
  unfold decimalText at h
  split at h
  · obtain rfl | h := List.mem_cons.mp h
    · decide
    · exact hdigit h
  · exact hdigit h

/-! ### Reading an integer (R275) -/

theorem isSpace_iff {c : Char} : isSpace c = true ↔ c = ' ' ∨ c = '\t' ∨ c = '\r' ∨ c = '\n' := by
  simp [isSpace, or_assoc]

theorem isDigit_iff {c : Char} : isDigit c = true ↔ '0' ≤ c ∧ c ≤ '9' := by
  simp only [isDigit, decide_eq_true_eq, Char.le_def, UInt32.le_iff_toNat_le]
  rfl

theorem foldl_digits (cs : List Char) (n : Nat) :
    cs.foldl (fun n c => 10 * n + (c.toNat - 48)) n = n * 10 ^ cs.length + decimalValue cs := by
  induction cs generalizing n with
  | nil => simp [decimalValue]
  | cons c cs ih =>
    rw [List.foldl_cons, ih, decimalValue, List.length_cons, Nat.pow_succ]
    ring

theorem digitsValue_eq_some {cs : List Char} {n : Nat} :
    digitsValue cs = some n ↔ cs ≠ [] ∧ (∀ c ∈ cs, '0' ≤ c ∧ c ≤ '9') ∧ n = decimalValue cs := by
  have hcond : (cs ≠ [] ∧ cs.all isDigit = true) ↔ cs ≠ [] ∧ ∀ c ∈ cs, '0' ≤ c ∧ c ≤ '9' := by
    simp only [List.all_eq_true, isDigit_iff]
  rw [digitsValue, ← and_assoc, ← hcond, foldl_digits, Nat.zero_mul, Nat.zero_add, Option.ite_none_right_eq_some,
    Option.some_inj, eq_comm (a := n)]

theorem digit_ne_sign {c : Char} (h : '0' ≤ c ∧ c ≤ '9') : c ≠ '-' ∧ c ≠ '+' := by
  constructor <;> rintro rfl <;> revert h <;> decide

/-- A sign and digits, with their value. -/
def SignedDigits (sign digits : List Char) (v : Int) : Prop :=
  digits ≠ [] ∧ (∀ c ∈ digits, '0' ≤ c ∧ c ≤ '9') ∧
    ((sign = [] ∨ sign = ['+']) ∧ v = decimalValue digits ∨ sign = ['-'] ∧ v = -(decimalValue digits : Int))

theorem signedValue_minus (cs : List Char) :
    signedValue ('-' :: cs) = (digitsValue cs).map (fun n : Nat => -(n : Int)) := by
  rw [signedValue]
  cases digitsValue cs <;> rfl

theorem signedValue_plus (cs : List Char) :
    signedValue ('+' :: cs) = (digitsValue cs).map (fun n : Nat => (n : Int)) := by
  rw [signedValue]
  cases digitsValue cs <;> rfl

theorem signedValue_unsigned {cs : List Char} (hm : ∀ ds, cs ≠ '-' :: ds) (hp : ∀ ds, cs ≠ '+' :: ds) :
    signedValue cs = (digitsValue cs).map (fun n : Nat => (n : Int)) := by
  rw [signedValue]
  · cases digitsValue cs <;> rfl
  · exact hm
  · exact hp

theorem signedValue_eq_some {cs : List Char} {v : Int} :
    signedValue cs = some v ↔ ∃ sign digits, cs = sign ++ digits ∧ SignedDigits sign digits v := by
  constructor
  · intro h
    by_cases hm : ∃ ds, cs = '-' :: ds
    · obtain ⟨ds, rfl⟩ := hm
      rw [signedValue_minus] at h
      obtain ⟨n, hn, rfl⟩ := Option.map_eq_some_iff.mp h
      obtain ⟨hne, hd, rfl⟩ := digitsValue_eq_some.mp hn
      exact ⟨['-'], ds, rfl, hne, hd, .inr ⟨rfl, rfl⟩⟩
    by_cases hp : ∃ ds, cs = '+' :: ds
    · obtain ⟨ds, rfl⟩ := hp
      rw [signedValue_plus] at h
      obtain ⟨n, hn, rfl⟩ := Option.map_eq_some_iff.mp h
      obtain ⟨hne, hd, rfl⟩ := digitsValue_eq_some.mp hn
      exact ⟨['+'], ds, rfl, hne, hd, .inl ⟨.inr rfl, rfl⟩⟩
    · rw [signedValue_unsigned (not_exists.mp hm) (not_exists.mp hp)] at h
      obtain ⟨n, hn, rfl⟩ := Option.map_eq_some_iff.mp h
      obtain ⟨hne, hd, rfl⟩ := digitsValue_eq_some.mp hn
      exact ⟨[], cs, rfl, hne, hd, .inl ⟨.inl rfl, rfl⟩⟩
  · rintro ⟨sign, digits, rfl, hne, hd, h⟩
    have hval : digitsValue digits = some (decimalValue digits) := digitsValue_eq_some.mpr ⟨hne, hd, rfl⟩
    obtain ⟨rfl | rfl, rfl⟩ | ⟨rfl, rfl⟩ := h
    · have hfirst (c : Char) (ds : List Char) (h : digits = c :: ds) : c ≠ '-' ∧ c ≠ '+' :=
        digit_ne_sign (hd c (h ▸ .head _))
      rw [List.nil_append, signedValue_unsigned (fun ds h => (hfirst _ ds h).1 rfl) (fun ds h => (hfirst _ ds h).2 rfl),
        hval]
      rfl
    · rw [List.singleton_append, signedValue_plus, hval]; rfl
    · rw [List.singleton_append, signedValue_minus, hval]; rfl

/-! ### Stripping whitespace (R275) -/

/-- A text is its stripped text between whitespace. -/
theorem strip_surrounded (cs : List Char) :
    ∃ pre post, cs = pre ++ strip cs ++ post ∧ ∀ c ∈ pre ++ post, isSpace c = true := by
  have hpre := List.takeWhile_append_dropWhile (p := isSpace) (l := cs)
  have hpost := congrArg List.reverse
    (List.takeWhile_append_dropWhile (p := isSpace) (l := (cs.dropWhile isSpace).reverse))
  rw [List.reverse_append, List.reverse_reverse] at hpost
  refine ⟨cs.takeWhile isSpace, ((cs.dropWhile isSpace).reverse.takeWhile isSpace).reverse, ?_, fun c hc => ?_⟩
  · rw [strip, List.append_assoc, hpost, hpre]
  · rw [List.mem_append, List.mem_reverse] at hc
    exact hc.elim List.mem_takeWhile_imp List.mem_takeWhile_imp

/-- Dropping whitespace before a nonempty text without whitespace. -/
theorem dropWhile_isSpace {pre core post : List Char} (hpre : ∀ c ∈ pre, isSpace c = true)
    (hcore : ∀ c ∈ core, isSpace c = false) (hne : core ≠ []) :
    (pre ++ (core ++ post)).dropWhile isSpace = core ++ post := by
  rw [List.dropWhile_append_of_pos hpre]
  cases core with
  | nil => exact absurd rfl hne
  | cons c core => exact List.dropWhile_cons_of_neg (by simp [hcore c (.head _)])

theorem strip_of_surrounded {pre core post : List Char} (hpre : ∀ c ∈ pre, isSpace c = true)
    (hpost : ∀ c ∈ post, isSpace c = true) (hcore : ∀ c ∈ core, isSpace c = false) (hne : core ≠ []) :
    strip (pre ++ core ++ post) = core := by
  have hrev := dropWhile_isSpace (pre := post.reverse) (core := core.reverse) (post := [])
    (fun c hc => hpost c (List.mem_reverse.mp hc)) (fun c hc => hcore c (List.mem_reverse.mp hc)) (by simpa using hne)
  rw [List.append_nil] at hrev
  rw [strip, List.append_assoc, dropWhile_isSpace hpre hcore hne, List.reverse_append, hrev, List.reverse_reverse]

theorem isSpace_of_digit {c : Char} (h : '0' ≤ c ∧ c ≤ '9') : isSpace c = false := by
  rw [Bool.eq_false_iff, Ne, isSpace_iff]
  rintro (rfl | rfl | rfl | rfl) <;> revert h <;> decide

/-- The stripped text of a sign and digits between whitespace. -/
theorem SignedDigits.not_isSpace {sign digits : List Char} {v : Int} (h : SignedDigits sign digits v) :
    ∀ c ∈ sign ++ digits, isSpace c = false := by
  obtain ⟨-, hd, hs⟩ := h
  intro c hc
  obtain hc | hc := List.mem_append.mp hc
  · obtain ⟨rfl | rfl, -⟩ | ⟨rfl, -⟩ := hs
    · cases hc
    · obtain rfl := List.mem_singleton.mp hc; rfl
    · obtain rfl := List.mem_singleton.mp hc; rfl
  · exact isSpace_of_digit (hd c hc)

/-- Read integer accepts exactly the lines of R275, with their values. -/
theorem parseInteger_eq_some {line : List Char} {v : Int} : parseInteger line = some v ↔ IntegerLine line v := by
  have hparse : parseInteger line = some v ↔
      signedValue (strip line) = some v ∧ -2147483648 ≤ v ∧ v ≤ 2147483647 := by
    unfold parseInteger
    cases signedValue (strip line) with
    | none => simp
    | some w =>
      dsimp only
      rw [Option.ite_none_right_eq_some, Option.some_inj]
      exact ⟨fun ⟨hr, hw⟩ => ⟨hw, hw ▸ hr⟩, fun ⟨hw, hr⟩ => ⟨hw ▸ hr, hw⟩⟩
  rw [hparse, signedValue_eq_some]
  constructor
  · rintro ⟨⟨sign, digits, hs, hne, hd, hv⟩, hrange⟩
    obtain ⟨pre, post, hline, hspace⟩ := strip_surrounded line
    rw [hs, ← List.append_assoc] at hline
    exact ⟨pre, sign, digits, post, hline, fun c hc => isSpace_iff.mp (hspace c hc), hne, hd, hv, hrange⟩
  · rintro ⟨pre, sign, digits, post, rfl, hspace, hne, hd, hv, hrange⟩
    have hsd : SignedDigits sign digits v := ⟨hne, hd, hv⟩
    refine ⟨⟨sign, digits, ?_, hsd⟩, hrange⟩
    rw [List.append_assoc pre]
    exact strip_of_surrounded (fun c hc => isSpace_iff.mpr (hspace c (List.mem_append_left _ hc)))
      (fun c hc => isSpace_iff.mpr (hspace c (List.mem_append_right _ hc))) hsd.not_isSpace (by simp [hne])

/-- The decimal text of an integer is a line that read integer accepts. -/
theorem integerLine_decimalText {i : Int} (hlo : -2147483648 ≤ i) (hhi : i ≤ 2147483647) :
    IntegerLine (decimalText i) i := by
  have hval : decimalValue (decimalNat 10 i.natAbs) = i.natAbs := decimalValue_decimalNat (by omega)
  have hne : decimalNat 10 i.natAbs ≠ [] := decimalNat_ne_nil 9 _
  have hdigits (c : Char) (hc : c ∈ decimalNat 10 i.natAbs) : '0' ≤ c ∧ c ≤ '9' := by
    obtain ⟨d, hd, rfl⟩ := mem_decimalNat hc
    rw [← isDigit_iff, isDigit, digitChar_toNat hd, decide_eq_true_eq]
    omega
  unfold decimalText
  split
  next hneg =>
    exact ⟨[], ['-'], decimalNat 10 i.natAbs, [], (List.append_nil _).symm, by simp, hne, hdigits,
      .inr ⟨rfl, by rw [hval]; omega⟩, hlo, hhi⟩
  next hpos =>
    exact ⟨[], [], decimalNat 10 i.natAbs, [], (List.append_nil _).symm, by simp, hne, hdigits,
      .inl ⟨.inl rfl, by rw [hval]; omega⟩, hlo, hhi⟩

/-- Settles O50: the text is a sign and digits whose value is the integer, which is in range. -/
theorem decimalRoundTrip : Obligations.DecimalRoundTrip := by
  unfold Obligations.DecimalRoundTrip
  intro v
  have hlo := v.le_two_mul_toInt
  have hhi := v.two_mul_toInt_lt
  exact parseInteger_eq_some.mpr (integerLine_decimalText (by omega) (by omega))

end Sys2Proof.Machine
end

section
/-! Proofs about `syscall` (spec/44_syscall.md R270 to R280) and the steps that never end. -/

namespace Sys2Proof.Machine
open Sys2Proof Sys2Proof.Laws

/-! ### The dispatch on `$v0` (spec/44_syscall.md R272) -/

section
variable {s : State}

theorem exec_printInteger (h : s.reg 2#5 = 1#32) : exec .syscall s = printInteger s := by
  simp only [exec, execSyscall, regV0, h]

theorem exec_printString (h : s.reg 2#5 = 4#32) : exec .syscall s = printString s := by
  simp only [exec, execSyscall, regV0, h]

theorem exec_readInteger (h : s.reg 2#5 = 5#32) : exec .syscall s = readInteger s := by
  simp only [exec, execSyscall, regV0, h]

theorem exec_readString (h : s.reg 2#5 = 8#32) : exec .syscall s = readString s := by
  simp only [exec, execSyscall, regV0, h]

theorem exec_exit (h : s.reg 2#5 = 10#32) : exec .syscall s = exitService s := by
  simp only [exec, execSyscall, regV0, h]

theorem exec_unknownSyscall (h : (s.reg 2#5).toNat ∉ [1, 4, 5, 8, 10]) :
    exec .syscall s = fault (.unknownSyscall (s.reg 2#5)) s := by
  have hne (k : Nat) (hk : k ∈ [1, 4, 5, 8, 10]) : s.reg regV0 ≠ BitVec.ofNat 32 k := by
    intro he
    have hmod : (s.reg 2#5).toNat = k % 2 ^ 32 := by rw [← BitVec.toNat_ofNat, ← he]; rfl
    have hlt : k < 2 ^ 32 := by fin_cases hk <;> decide
    rw [Nat.mod_eq_of_lt hlt] at hmod
    exact h (hmod ▸ hk)
  simp only [exec, execSyscall]
  split
  case h_1 he => exact absurd he (hne 1 (by decide))
  case h_2 he => exact absurd he (hne 4 (by decide))
  case h_3 he => exact absurd he (hne 5 (by decide))
  case h_4 he => exact absurd he (hne 8 (by decide))
  case h_5 he => exact absurd he (hne 10 (by decide))
  case h_6 => rfl

end

/-! ### Print integer and exit (R273, R277, R278) -/

theorem out_printed (s : State) (bs : List Byte) :
    ∃ t, nextInstr (s.out bs) = .next t ∧ EndsAt s t (s.pc + 4#32) ∧ SameRegs s t ∧ SameHiLo s t ∧ SameMem s t ∧
      Printed s t bs :=
  ⟨_, rfl, ⟨rfl, rfl, rfl, rfl, rfl⟩, SameRegs.refl s, SameHiLo.refl s, SameMem.refl s, rfl, rfl, rfl⟩

/-- Settles O44: a 32-bit value has at most ten digits, and its text is ASCII. -/
theorem printIntegerWritesDecimal : Obligations.PrintIntegerWritesDecimal := by
  unfold Obligations.PrintIntegerWritesDecimal
  refine ⟨encodes_encode .syscall, fun s hs => ?_⟩
  have hlo := (s.reg 4#5).le_two_mul_toInt
  have hhi := (s.reg 4#5).two_mul_toInt_lt
  rw [exec_printInteger hs, ← decimalText_eq_toString (by omega), ← utf8_ascii fun c => decimalText_ascii]
  exact out_printed s _

/-- Settles O48: exit commits and halts, so that later steps stay; any other code faults. -/
theorem exitHaltsAndUnknownCodesFault : Obligations.ExitHaltsAndUnknownCodesFault := by
  unfold Obligations.ExitHaltsAndUnknownCodesFault
  intro s
  refine ⟨fun h => ?exit, fun h => exec_takesFault (exec_unknownSyscall h)⟩
  rw [exec_exit h]
  exact ⟨_, rfl, rfl, rfl, rfl, SameRegs.refl s, SameHiLo.refl s, SameMem.refl s, SameSetup.refl s, SameStreams.refl s,
    step_of_terminal (.inl rfl)⟩

/-! ### Print string (R274) -/

theorem memRead8_load (s : State) (a : Word) :
    s.memRead8 .load a = if s.backed a then .ok (s.byteAt a) else .error (.accessFaultLoad a) := by
  rw [State.memRead8_eq_elim, State.checkAccess_one]
  cases s.backed a <;> rfl

/-- Bytes that are not NUL are read one after the other. -/
theorem scanString_append {s : State} {bs : List Byte} {a : Word} (hne : ∀ b ∈ bs, b ≠ 0x00#8)
    (hbs : ∀ (k : Nat) (h : k < bs.length), s.backed (a + BitVec.ofNat 32 k) = true ∧
      s.byteAt (a + BitVec.ofNat 32 k) = bs[k]) (n : Nat) :
    s.scanString (bs.length + n) a = bs.foldr ScanResult.cons (s.scanString n (a + BitVec.ofNat 32 bs.length)) := by
  induction bs generalizing a with
  | nil => simp
  | cons b bs ih =>
    have h0 : s.backed a = true ∧ s.byteAt a = b := by
      have h := hbs 0 (Nat.succ_pos _)
      rw [BitVec.add_zero] at h
      exact h
    have hrest := ih (a := a + 1#32) (fun c hc => hne c (.tail _ hc))
      fun k hk => by rw [← add_ofNat_succ]; exact hbs (k + 1) (Nat.succ_lt_succ hk)
    rw [List.length_cons, add_ofNat_succ, List.foldr_cons, ← hrest, Nat.add_right_comm, State.scanString, memRead8_load,
      if_pos h0.1]
    simp only [h0.2, if_neg (hne b (.head _))]

theorem foldr_cons_found (bs cs : List Byte) : bs.foldr ScanResult.cons (.found cs) = .found (bs ++ cs) := by
  induction bs with
  | nil => rfl
  | cons b bs ih => rw [List.foldr_cons, ih]; rfl

theorem foldr_cons_stopped (bs : List Byte) (k : FaultKind) : bs.foldr ScanResult.cons (.stopped k) = .stopped k := by
  induction bs with
  | nil => rfl
  | cons b bs ih => rw [List.foldr_cons, ih]; rfl

/-- Settles O45: the scan reads the bytes before the NUL or the unbacked address, then ends there. -/
theorem printStringStopsAtTheNul : Obligations.PrintStringStopsAtTheNul := by
  unfold Obligations.PrintStringStopsAtTheNul
  intro s bs hs hlen hne hbs last
  obtain ⟨n, hn⟩ : ∃ n, addressCount = bs.length + (n + 1) :=
    ⟨addressCount - (bs.length + 1), by unfold addressCount; omega⟩
  have hscan : s.scanString addressCount (s.reg regA0) = bs.foldr ScanResult.cons (s.scanString (n + 1) last) := by
    rw [hn]; exact scanString_append hne hbs (n + 1)
  rw [State.scanString, memRead8_load] at hscan
  rw [exec_printString hs, printString, hscan]
  refine ⟨fun hb h0 => ?found, fun hb => ?stopped⟩
  case found =>
    simp only [hb, h0, if_true, foldr_cons_found, List.append_nil]
    exact out_printed s bs
  case stopped =>
    simp only [hb, Bool.false_eq_true, if_false, foldr_cons_stopped]
    exact fault_takesFault _ s

/-! ### The read services (R271, R275, R276) -/

/-- Taking an answer, with the state that is left. -/
theorem readLine_taken {s : State} {a : HostAnswer} (h : NextAnswer s a) :
    ∃ as n, s.readLine = (a, { s with answers := as, reads := n }) ∧
      AnswerTaken s { s with answers := as, reads := n } := by
  obtain ⟨u, hu⟩ := State.readLine_of_next h
  obtain ⟨-, htaken, heq⟩ := State.readLine_spec hu
  rw [heq] at hu htaken
  exact ⟨_, _, hu, htaken⟩

section
variable {s : State} {as : List HostAnswer} {n : Nat} (htaken : AnswerTaken s { s with answers := as, reads := n })
include htaken

theorem fault_after_answer (k : FaultKind) :
    ∃ t, fault k { s with answers := as, reads := n } = .next t ∧ Faults s t k ∧ AnswerTaken s t :=
  ⟨_, rfl, ⟨rfl, rfl, rfl, SameRegs.refl s, SameHiLo.refl s, SameMem.refl s, SameSetup.refl s⟩, htaken⟩

theorem writeResult_after_answer (r : RegIdx) (v : Word) :
    ∃ t, writeResult r v { s with answers := as, reads := n } = .next t ∧ EndsAt s t (s.pc + 4#32) ∧
      RegWritten s t r v ∧ SameHiLo s t ∧ SameMem s t ∧ AnswerTaken s t := by
  obtain ⟨t, ht, hends, hreg, hhilo, hmem, ha, hr, ho⟩ :=
    writeResult_writesReg r v { s with answers := as, reads := n }
  exact ⟨t, ht, hends, hreg, hhilo, hmem, ha.trans htaken.1, hr.trans htaken.2.1, ho⟩

end

/-- Settles O46: the answer is taken first, and the parser accepts exactly the lines of R275. -/
theorem readIntegerParsesTheLine : Obligations.ReadIntegerParsesTheLine := by
  unfold Obligations.ReadIntegerParsesTheLine
  intro s hs
  rw [exec_readInteger hs]
  refine ⟨fun h => ?exhausted, fun text v h hline => ?value, fun text h hbad => ?malformed⟩
  all_goals
    obtain ⟨as, n, hread, htaken⟩ := readLine_taken h
    simp only [readInteger, hread]
  case exhausted => exact fault_after_answer htaken _
  case value =>
    simp only [parseInteger_eq_some.mpr hline]
    exact writeResult_after_answer htaken _ _
  case malformed =>
    have hnone : parseInteger text = none :=
      Option.eq_none_iff_forall_ne_some.mpr fun v hv => hbad ⟨v, parseInteger_eq_some.mp hv⟩
    simp only [hnone]
    exact fault_after_answer htaken _

theorem utf8_eq (text : List Char) :
    utf8 text = (text.flatMap String.utf8EncodeChar).map (fun c => c.toBitVec) := by
  rw [List.map_flatMap, ← funext utf8Char_eq]
  rfl

/-- The bytes of read string, the length bounded by that of the line. -/
theorem stringBytes_eq (b : List Byte) (n : Int) :
    stringBytes b n = if n < 1 then [] else b.take (min (b.length : Int) (n - 1)).toNat ++ [0x00#8] := by
  unfold stringBytes
  congr 2
  rw [List.take_eq_take_iff]
  omega

theorem stringBytes_length_le (b : List Byte) {n : Int} (hn : n ≤ 4294967296) :
    (stringBytes b n).length ≤ 4294967296 := by
  obtain h | h := stringBytes_length b n
  · rw [h]; simp
  · omega

/-- Settles O47: the answer is taken first, then all addresses are checked, then the truncated line and its NUL are
stored. -/
theorem readStringTruncates : Obligations.ReadStringTruncates := by
  unfold Obligations.ReadStringTruncates
  intro s hs
  rw [exec_readString hs]
  refine ⟨fun h => ?exhausted, fun text h => ?line⟩
  case exhausted =>
    obtain ⟨as, n, hread, htaken⟩ := readLine_taken h
    simp only [readString, hread]
    exact fault_after_answer htaken _
  case line =>
    intro b n bs
    obtain ⟨as, m, hread, htaken⟩ := readLine_taken h
    have hbytes : stringBytes (utf8 text) (s.reg regA1).toInt = bs := by rw [utf8_eq]; exact stringBytes_eq b n
    have hlen : bs.length ≤ 4294967296 := by
      have := (s.reg 5#5).two_mul_toInt_lt
      exact hbytes ▸ stringBytes_length_le _ (by show (s.reg 5#5).toInt ≤ _; omega)
    have hcheck : State.firstUnbacked { s with answers := as, reads := m } (s.reg regA0) bs.length =
        s.firstUnbacked (s.reg 4#5) bs.length :=
      State.firstUnbacked_congr (s := s) (t := { s with answers := as, reads := m }) ⟨rfl, rfl⟩ _ _
    simp only [readString, hread, hbytes, storeString, hcheck]
    refine ⟨fun hb => ?stored, fun k hk hu hb => ?unbacked⟩
    case stored =>
      rw [State.firstUnbacked_eq_none.mpr hb]
      exact ⟨_, rfl, ⟨rfl, rfl, rfl, rfl, rfl⟩, SameRegs.refl s, SameHiLo.refl s, s.storeBytes_stored _ bs hlen, htaken⟩
    case unbacked =>
      rw [State.firstUnbacked_of_first hk hu hb]
      exact fault_after_answer htaken _

/-! ### The steps that never end (spec/93_implementation_defined.md; log 3, log 8) -/

/-- The two ways a step never ends: a `read_line` without an answer, a print string without an end. -/
def Endless (s : State) (f : Fault) : Prop :=
  (f = .readLineNeverReturns ∧ (s.reg 2#5 = 5#32 ∨ s.reg 2#5 = 8#32) ∧ NextAnswer s .silent) ∨
    (f = .printStringNeverEnds ∧ s.reg 2#5 = 4#32 ∧ ∀ a : Word, s.backed a = true ∧ s.byteAt a ≠ 0x00#8)

/-- The outcome is a next state, or one of the two ways of never ending. -/
def Answers (s : State) (o : Host.Outcome State Fault Refusal) : Prop :=
  (∃ t, o = .next t) ∨ ∃ f, o = .fault f ∧ Endless s f

theorem scanString_endless {s : State} {n : Nat} {a : Word} (h : s.scanString n a = .endless) {k : Nat} (hk : k < n) :
    s.backed (a + BitVec.ofNat 32 k) = true ∧ s.byteAt (a + BitVec.ofNat 32 k) ≠ 0x00#8 := by
  induction n generalizing a k with
  | zero => omega
  | succ n ih =>
    rw [State.scanString, memRead8_load] at h
    by_cases hb : s.backed a = true
    · by_cases h0 : s.byteAt a = 0x00#8
      · simp [hb, h0] at h
      · simp only [hb, if_true, h0, if_false] at h
        have hrest : s.scanString n (a + 1#32) = .endless := by
          cases hr : s.scanString n (a + 1#32) with
          | endless => rfl
          | found bs | stopped k => rw [hr] at h; cases h
        cases k with
        | zero => simpa using ⟨hb, h0⟩
        | succ k => rw [add_ofNat_succ]; exact ih hrest (by omega)
    · simp [hb] at h

theorem answers_printString {s : State} (hc : s.reg 2#5 = 4#32) : Answers s (printString s) := by
  unfold printString
  cases hr : s.scanString addressCount (s.reg regA0) with
  | found bs => exact .inl ⟨_, rfl⟩
  | stopped k => exact .inl ⟨_, rfl⟩
  | endless =>
    refine .inr ⟨_, rfl, .inr ⟨rfl, hc, fun a => ?_⟩⟩
    have hall := scanString_endless hr (a - s.reg regA0).isLt
    rwa [BitVec.ofNat_toNat, BitVec.setWidth_eq, BitVec.add_comm, BitVec.sub_add_cancel] at hall

theorem answers_readInteger {s : State} (hc : s.reg 2#5 = 5#32) : Answers s (readInteger s) := by
  unfold readInteger
  rcases hr : s.readLine with ⟨a, u⟩
  obtain ⟨hnext, -⟩ := State.readLine_spec hr
  cases a with
  | exhausted => exact .inl ⟨_, rfl⟩
  | silent => exact .inr ⟨_, rfl, .inl ⟨rfl, .inl hc, hnext⟩⟩
  | line text =>
    dsimp only
    cases parseInteger text <;> exact .inl ⟨_, rfl⟩

theorem answers_readString {s : State} (hc : s.reg 2#5 = 8#32) : Answers s (readString s) := by
  unfold readString
  rcases hr : s.readLine with ⟨a, u⟩
  obtain ⟨hnext, -⟩ := State.readLine_spec hr
  cases a with
  | exhausted => exact .inl ⟨_, rfl⟩
  | silent => exact .inr ⟨_, rfl, .inl ⟨rfl, .inr hc, hnext⟩⟩
  | line text =>
    unfold storeString
    dsimp only
    cases u.firstUnbacked (s.reg regA0) (stringBytes (utf8 text) (s.reg regA1).toInt).length <;> exact .inl ⟨_, rfl⟩

theorem answers_syscall (s : State) : Answers s (execSyscall s) := by
  unfold execSyscall
  split
  case h_2 hc => exact answers_printString hc
  case h_3 hc => exact answers_readInteger hc
  case h_4 hc => exact answers_readString hc
  case h_1 | h_5 | h_6 => exact .inl ⟨_, rfl⟩

theorem answers_exec (i : Instr) (s : State) : Answers s (exec i s) := by
  by_cases hi : i = .syscall
  · subst hi; exact answers_syscall s
  · exact .inl (exec_completes s hi)

theorem answers_fetchAndRun (s : State) : Answers s (fetchAndRun s) := by
  unfold fetchAndRun
  split
  · exact .inl ⟨_, rfl⟩
  split
  · exact .inl ⟨_, rfl⟩
  split
  · split
    · exact .inl ⟨_, rfl⟩
    · unfold runWord
      split
      · exact .inl ⟨_, rfl⟩
      · exact answers_exec _ s
  · exact .inl ⟨_, rfl⟩

/-- Every step answers, and only a step from Loaded or Running can be one that never ends. -/
theorem answers_step (s : State) : (∃ t, step s = .next t) ∨ ∃ f, step s = .fault f ∧ Live s ∧ Endless s f := by
  obtain hlive | hterm := live_or_terminal s
  · rw [step_of_live hlive]
    obtain h | ⟨f, hf, he⟩ := answers_fetchAndRun s
    · exact .inl h
    · exact .inr ⟨f, hf, hlive, he⟩
  · exact .inl ⟨s, step_of_terminal hterm⟩

/-- A read service whose `read_line` never returns. -/
theorem exec_silent {s : State} (hc : s.reg 2#5 = 5#32 ∨ s.reg 2#5 = 8#32) (h : NextAnswer s .silent) :
    exec .syscall s = .fault .readLineNeverReturns := by
  obtain ⟨u, hu⟩ := State.readLine_of_next h
  obtain hc | hc := hc
  · simp only [exec_readInteger hc, readInteger, hu]
  · simp only [exec_readString hc, readString, hu]

/-- Settles O49: the words of `syscall`, the silent step, and what a step can answer at all. -/
theorem onlyEndlessStepsStop : Obligations.OnlyEndlessStepsStop := by
  unfold Obligations.OnlyEndlessStepsStop
  intro s
  refine ⟨fun w strict => decode_eq_syscall, fun hfetch hdec hc h => ?silent, fun f hf => ?fault, fun r hr => ?refused⟩
  case silent => rw [stepRunsTheDecodedInstruction s .syscall hfetch hdec, exec_silent hc h]
  case fault =>
    obtain ⟨t, ht⟩ | ⟨g, hg, hlive, he⟩ := answers_step s
    · cases ht.symm.trans hf
    · cases hg.symm.trans hf; exact ⟨hlive, he⟩
  case refused =>
    obtain ⟨t, ht⟩ | ⟨g, hg, -⟩ := answers_step s
    · cases ht.symm.trans hr
    · cases hg.symm.trans hr

end Sys2Proof.Machine
end

section
/-! Proofs about the assembler (spec/30_encoding.md R104, R113 to R120). -/

namespace Sys2Proof.Machine
open Sys2Proof Sys2Proof.Laws

/-! ### Branch fields (spec/30_encoding.md R117) -/

theorem branchField_eq_ok {A L : Word} {h : Half} : branchField A L = .ok h ↔ branchDistance A L % 4 = 0 ∧
    (-32768 ≤ branchDistance A L / 4 ∧ branchDistance A L / 4 ≤ 32767) ∧ half (branchDistance A L / 4) = h := by
  unfold branchField branchAligned branchInRange fitsSigned16
  by_cases ha : branchDistance A L % 4 = 0
  · by_cases hr : -32768 ≤ branchDistance A L / 4 ∧ branchDistance A L / 4 ≤ 32767
    · simp [ha, hr]
    · simp [ha, hr]
  · simp [ha]

/-- From the address behind the branch, the distance leads to the label. -/
theorem add_branchDistance (A L : Word) : A + 4#32 + BitVec.ofInt 32 (branchDistance A L) = L := by
  have hA : BitVec.ofInt 32 ((A.toNat : Int) + 4) = A + 4#32 := by
    rw [BitVec.ofInt_add, BitVec.ofInt_natCast, BitVec.ofNat_toNat, BitVec.setWidth_eq]; rfl
  have hL : BitVec.ofInt 32 (L.toNat : Int) = L := by
    rw [BitVec.ofInt_natCast, BitVec.ofNat_toNat, BitVec.setWidth_eq]
  rw [branchDistance, Int.sub_eq_add_neg, BitVec.ofInt_add, BitVec.ofInt_neg, hA, hL, ← BitVec.sub_eq_add_neg,
    BitVec.add_comm, BitVec.sub_add_cancel]

theorem toInt_half {i : Int} (h : -32768 ≤ i ∧ i ≤ 32767) : (half i).toInt = i :=
  BitVec.toInt_ofInt_eq_self (by decide) (by omega) (by omega)

theorem branchTarget_branchField {A L : Word} {h : Half} (hf : branchField A L = .ok h) : branchTarget A h = L := by
  obtain ⟨hal, hr, rfl⟩ := branchField_eq_ok.mp hf
  rw [branchTarget_eq, toInt_half hr, show 4 * (branchDistance A L / 4) = branchDistance A L by omega,
    add_branchDistance]

/-- Settles O54: the field is the distance in words, which the branch multiplies by four again. -/
theorem branchFieldReachesTheLabel : Obligations.BranchFieldReachesTheLabel := by
  unfold Obligations.BranchFieldReachesTheLabel
  intro A L h d
  refine ⟨?_, branchTarget_branchField⟩
  rw [branchField_eq_ok, and_assoc, eq_comm (a := half _)]
  rfl

/-! ### Jump fields (R118) -/

theorem jumpAligned_iff {L : Word} : jumpAligned L = true ↔ L.toNat % 4 = 0 := by
  rw [jumpAligned, beq_iff_eq]
  exact ⟨fun h => by_contra fun hn => extractLsb'_two_ne_zero hn h, extractLsb'_two_eq_zero⟩

theorem jumpInRegion_iff {R L : Word} : jumpInRegion R L = true ↔ L.toNat / 2 ^ 28 = R.toNat / 2 ^ 28 := by
  rw [jumpInRegion, beq_iff_eq, ← BitVec.toNat_inj, BitVec.extractLsb'_toNat, BitVec.extractLsb'_toNat,
    Nat.shiftRight_eq_div_pow, Nat.shiftRight_eq_div_pow]
  omega

theorem jumpField_eq_ok {c : Config} {A L : Word} {t : BitVec 26} : jumpField c A L = .ok t ↔
    L.toNat % 4 = 0 ∧ L.toNat / 2 ^ 28 = (jumpRegion c.jRegion A).toNat / 2 ^ 28 ∧
      t = BitVec.ofNat 26 (L.toNat / 4) := by
  have hfield : L.extractLsb' 2 26 = BitVec.ofNat 26 (L.toNat / 4) := by
    rw [BitVec.extractLsb', Nat.shiftRight_eq_div_pow]
  rw [← jumpAligned_iff, ← jumpInRegion_iff, ← hfield]
  unfold jumpField
  cases jumpAligned L <;> cases jumpInRegion (jumpRegion c.jRegion A) L <;> simp [eq_comm]

theorem jumpTarget_jumpField {c : Config} {A L : Word} {t : BitVec 26} (h : jumpField c A L = .ok t) :
    jumpTarget c.jRegion A t = L := by
  obtain ⟨hal, hregion, rfl⟩ := jumpField_eq_ok.mp h
  rw [jumpTarget_eq]
  apply BitVec.eq_of_toNat_eq
  simp only [BitVec.toNat_ofNat]
  omega

/-- Settles O55: the jump joins the region's top 4 bits, the field and two zero bits to the label again. -/
theorem jumpFieldReachesTheLabel : Obligations.JumpFieldReachesTheLabel := by
  unfold Obligations.JumpFieldReachesTheLabel
  intro c A L t R
  have hR : R = jumpRegion c.jRegion A := by cases hj : c.jRegion <;> simp [R, hj, jumpRegion]
  rw [hR]
  exact ⟨jumpField_eq_ok, jumpTarget_jumpField⟩

/-! ### `li` (R120) -/

theorem statementItem_of_lookup_error {c : Config} {name : List Char} {sh : Shape} {ops : List Operand} {e : LineError}
    (hsh : lookupShape (realShapes ++ pseudoShapes) name = some sh)
    (he : expandShape c.scratchReg name sh ops = .error e) :
    statementItem c { name := name, operands := ops } = .error e := by
  simp only [statementItem, hsh, he, Except.map]

/-- The instructions of `li`. -/
def liInstrs (r : RegIdx) (i : Int) : List Instr :=
  if -32768 ≤ i ∧ i ≤ 32767 then [.addiu r 0 (half i)]
  else [.lui r ((BitVec.ofInt 32 i).extractLsb' 16 16), .ori r r ((BitVec.ofInt 32 i).extractLsb' 0 16)]

theorem expandLi_ok (r : RegIdx) {i : Int} (hlo : -2147483648 ≤ i) (hhi : i ≤ 4294967295) :
    expandLi r i = .ok ((liInstrs r i).map plain) := by
  unfold expandLi liInstrs fitsSigned16
  by_cases h : -32768 ≤ i ∧ i ≤ 32767
  · simp [h]
  · simp [h, hlo, hhi]

theorem expandLi_error (r : RegIdx) {i : Int} (h : ¬(-2147483648 ≤ i ∧ i ≤ 4294967295)) :
    expandLi r i = .error (.encoding (.immediateRange i)) := by
  have hfit : fitsSigned16 i = false := by
    rw [fitsSigned16, decide_eq_false_iff_not]
    omega
  simp only [expandLi, hfit, Bool.false_eq_true, if_false, if_neg h]

theorem sext16_half {i : Int} (h : -32768 ≤ i ∧ i ≤ 32767) : sext16 (half i) = BitVec.ofInt 32 i := by
  rw [← BitVec.ofInt_toInt (x := sext16 (half i)), toInt_sext16, toInt_half h]

theorem liInstrs_writesReg (r : RegIdx) (i : Int) (s : State) : ∃ t, execAll (liInstrs r i) s = .next t ∧
    WritesReg s t r (BitVec.ofInt 32 i) (s.pc + BitVec.ofNat 32 (4 * (liInstrs r i).length)) := by
  unfold liInstrs
  by_cases h : -32768 ≤ i ∧ i ≤ 32767
  · rw [if_pos h]
    have hval : s.reg 0#5 + sext16 (half i) = BitVec.ofInt 32 i := by
      rw [State.reg_zero, BitVec.zero_add, sext16_half h]
    obtain ⟨t, ht, hw⟩ := writeResult_writesReg r (s.reg 0#5 + sext16 (half i)) s
    have hexec : exec (.addiu r 0 (half i)) s = .next t := ht
    rw [hval] at hw
    exact ⟨t, by simp only [execAll, hexec], hw⟩
  · rw [if_neg h]
    exact lui_ori_writesReg r (BitVec.ofInt 32 i) s

/-- Settles O56: `addiu` adds the sign-extended immediate to register 0; `lui` and `ori` join its halves. -/
theorem loadImmediateLoads : Obligations.LoadImmediateLoads := by
  unfold Obligations.LoadImmediateLoads
  intro c r i li v is
  refine ⟨fun hlo hhi => ?loads, fun hout => ?error⟩
  case loads =>
    have hexpand := expandLi_ok r (i := i) (by omega) (by omega)
    exact ⟨hexpand, statementItem_of_lookup (sh := .loadImm) rfl hexpand, liInstrs_writesReg r i⟩
  case error =>
    have hexpand := expandLi_error r (i := i) (by omega)
    exact ⟨_, hexpand, statementItem_of_lookup_error (sh := .loadImm) rfl hexpand⟩

/-! ### The fields that pass 2 fills (R117, R118, R121) -/

theorem wordJ_or_target (op : BitVec 6) (t : BitVec 26) : wordJ op 0 ||| t.zeroExtend 32 = wordJ op t := by
  apply BitVec.eq_of_getLsbD_eq
  intro i hi
  simp only [wordJ, BitVec.getLsbD_or, BitVec.getLsbD_append]
  by_cases h : i < 26
  · simp [h, hi]
  · simp [h, BitVec.getLsbD_of_ge t i (by omega)]

/-- Filling the open field of the shape's instruction gives the word of the instruction with that field. -/
def Shape.Patches : Shape → Prop
  | .branch2 f | .compareBranch _ f => ∀ a b (h : Half), encode (f a b 0) ||| h.zeroExtend 32 = encode (f a b h)
  | .branch1 f => ∀ a (h : Half), encode (f a 0) ||| h.zeroExtend 32 = encode (f a h)
  | .jump f => ∀ t : BitVec 26, encode (f 0) ||| t.zeroExtend 32 = encode (f t)
  | _ => True

theorem patches_of_mem : ∀ p ∈ realShapes ++ pseudoShapes, p.2.Patches := by
  simp only [realShapes, pseudoShapes, List.flatten_cons, List.flatten_nil, List.forall_mem_append,
    List.forall_mem_cons, List.not_mem_nil, false_implies, implies_true, Shape.Patches, encode, wordI_or_imm,
    wordJ_or_target, and_true]

theorem patches_of_lookup {name : List Char} {sh : Shape}
    (h : lookupShape (realShapes ++ pseudoShapes) name = some sh) : sh.Patches := by
  obtain ⟨p, hp, rfl⟩ := Option.map_eq_some_iff.mp h
  exact patches_of_mem p (List.mem_of_find?_eq_some hp)

/-- Whatever pass 2 makes of the real instruction is the word of an instruction. -/
def RealInstr.Fixable (r : RealInstr) : Prop :=
  ∀ (c : Config) (syms : List Symbol) (A w : Word), fixWord c syms A r = .ok w → ∃ i, w = encode i

theorem fixable_plain (i : Instr) : (plain i).Fixable := by
  intro c syms A w h
  cases h
  exact ⟨i, rfl⟩

theorem map_eq_ok {ε α β : Type} {x : Except ε α} {g : α → β} {b : β} (h : x.map g = .ok b) :
    ∃ a, x = .ok a ∧ b = g a := by
  cases x with
  | error e => cases h
  | ok a => cases h; exact ⟨a, rfl, rfl⟩

section
variable {l : List Char}

theorem fixable_branch {make : Half → Instr} (hp : ∀ h : Half, encode (make 0) ||| h.zeroExtend 32 = encode (make h)) :
    RealInstr.Fixable { instr := make 0, fixup := .branch l } := by
  intro c syms A w h
  simp only [fixWord] at h
  split at h
  · cases h
  · obtain ⟨f, -, rfl⟩ := map_eq_ok h
    exact ⟨make f, hp f⟩

theorem fixable_jump {make : BitVec 26 → Instr}
    (hp : ∀ t : BitVec 26, encode (make 0) ||| t.zeroExtend 32 = encode (make t)) :
    RealInstr.Fixable { instr := make 0, fixup := .jump l } := by
  intro c syms A w h
  simp only [fixWord] at h
  split at h
  · cases h
  · obtain ⟨f, -, rfl⟩ := map_eq_ok h
    exact ⟨make f, hp f⟩

theorem fixable_highHalf (r : RegIdx) : RealInstr.Fixable { instr := .lui r 0, fixup := .highHalf l } := by
  intro c syms A w h
  obtain ⟨L, -, rfl⟩ := map_eq_ok h
  exact ⟨.lui r (L.extractLsb' 16 16), wordI_or_imm ..⟩

theorem fixable_lowHalf (r q : RegIdx) : RealInstr.Fixable { instr := .ori r q 0, fixup := .lowHalf l } := by
  intro c syms A w h
  obtain ⟨L, -, rfl⟩ := map_eq_ok h
  exact ⟨.ori r q (L.extractLsb' 0 16), wordI_or_imm ..⟩

end

theorem fixable_checked {ok : Bool} {e : EncodingError} {i : Instr} {is : List RealInstr}
    (h : checked ok e i = .ok is) : ∀ r ∈ is, r.Fixable := by
  unfold checked at h
  split at h
  · cases h
    simpa using fixable_plain i
  · cases h

theorem fixable_expandLi {a : RegIdx} {i : Int} {is : List RealInstr} (h : expandLi a i = .ok is) :
    ∀ r ∈ is, r.Fixable := by
  unfold expandLi at h
  split at h
  · cases h
    simpa using fixable_plain _
  · split at h
    · cases h
      simpa using ⟨fixable_plain _, fixable_plain _⟩
    · cases h

/-- Every real instruction of an expansion is fixable. -/
theorem fixable_expandShape {scratch : RegIdx} {name : List Char} {sh : Shape} {ops : List Operand}
    {is : List RealInstr} (hp : sh.Patches) (h : expandShape scratch name sh ops = .ok is) : ∀ r ∈ is, r.Fixable := by
  unfold expandShape at h
  split at h
  case h_1 | h_2 | h_3 | h_4 | h_13 | h_14 | h_17 => cases h; simpa using fixable_plain _
  case h_5 | h_6 | h_7 | h_8 | h_9 => exact fixable_checked h
  case h_10 f a b l => cases h; simpa using fixable_branch (make := f a b) (hp a b)
  case h_11 f a l => cases h; simpa using fixable_branch (make := f a) (hp a)
  case h_12 f l => cases h; simpa using fixable_jump (make := f) hp
  case h_15 => exact fixable_expandLi h
  case h_16 => cases h; simpa [expandLa] using ⟨fixable_highHalf _, fixable_lowHalf _ _⟩
  case h_18 swap f a b l =>
    cases h
    simpa using ⟨fixable_plain _, fixable_branch (make := f scratch 0) (hp scratch 0)⟩
  case h_19 => cases h

/-- The instructions of an item are fixable. -/
def Item.Fixable : Item → Prop
  | .instrs is => ∀ r ∈ is, r.Fixable
  | _ => True

/-- No directive makes instructions. -/
theorem fixable_directiveItem {name : List Char} {ops : List Operand} {it : Item}
    (h : directiveItem name ops = .ok it) : it.Fixable := by
  unfold directiveItem at h
  split at h
  case isTrue => cases h; trivial
  split at h
  case isTrue => cases h; trivial
  split at h
  case isTrue => obtain ⟨vs, -, rfl⟩ := map_eq_ok h; trivial
  split at h
  case isTrue => obtain ⟨bs, -, rfl⟩ := map_eq_ok h; trivial
  split at h
  case isTrue => obtain ⟨bs, -, rfl⟩ := map_eq_ok h; trivial
  split at h
  case h_1 =>
    split at h
    case isTrue => cases h; trivial
    split at h
    case isTrue => cases h; trivial
    case isFalse => cases h
  case h_2 =>
    split at h
    case isFalse => cases h
    split at h
    case isTrue => cases h; trivial
    case isFalse => cases h
  case h_3 => cases h

theorem fixable_statementItem {c : Config} {st : Statement} {it : Item} (h : statementItem c st = .ok it) :
    it.Fixable := by
  unfold statementItem at h
  split at h
  next sh hsh =>
    obtain ⟨is, his, rfl⟩ := map_eq_ok h
    exact fixable_expandShape (patches_of_lookup hsh) his
  next =>
    split at h
    next => exact fixable_directiveItem h
    next => split at h <;> cases h

theorem fixable_readSourceLine (c : Config) (n : Nat) (text : List Char) : (readSourceLine c n text).item.Fixable := by
  unfold readSourceLine
  split
  next => trivial
  next l _ =>
    split
    next => trivial
    next st _ =>
      dsimp only
      split
      next it hit => exact fixable_statementItem hit
      next => trivial

theorem fixable_readSource (c : Config) (n : Nat) (ts : List (List Char)) :
    ∀ l ∈ readSource c n ts, l.item.Fixable := by
  induction ts generalizing n with
  | nil => exact fun l hl => by cases hl
  | cons t ts ih => exact List.forall_mem_cons.mpr ⟨fixable_readSourceLine c n t, ih (n + 1)⟩

/-! ### The text of an image (R104, R119) -/

/-- The bytes are those of instructions, one after the other. -/
def IsCode (bs : List Byte) : Prop := ∃ is : List Instr, bs = is.flatMap encodeBytes

theorem isCode_nil : IsCode [] := ⟨[], rfl⟩

theorem IsCode.append {bs cs : List Byte} (hb : IsCode bs) (hc : IsCode cs) : IsCode (bs ++ cs) := by
  obtain ⟨is, rfl⟩ := hb
  obtain ⟨js, rfl⟩ := hc
  exact ⟨is ++ js, List.flatMap_append.symm⟩

/-- Real instructions that pass 2 emits without an error are code. -/
theorem isCode_instrWords {c : Config} {syms : List Symbol} {a : Nat} {is : List RealInstr}
    (hf : ∀ r ∈ is, r.Fixable) (he : (gather (instrWords c syms a is)).2 = []) :
    IsCode (gather (instrWords c syms a is)).1 := by
  induction is generalizing a with
  | nil => exact isCode_nil
  | cons r is ih =>
    obtain ⟨hr, his⟩ := List.forall_mem_cons.mp hf
    rw [instrWords] at he ⊢
    cases hw : fixWord c syms (BitVec.ofNat 32 a) r with
    | error e => rw [hw] at he; cases he
    | ok w =>
      rw [hw] at he
      obtain ⟨i, rfl⟩ := hr c syms _ w hw
      exact IsCode.append ⟨[i], (List.flatMap_singleton ..).symm⟩ (ih his he)

/-- An item that pass 2 emits into the text without an error is code: data do not fit there (log 23). -/
theorem isCode_emitItem {c : Config} {syms : List Symbol} {p : Position} {it : Item} (hf : it.Fixable)
    (hp : p.segment = .text) (he : (emitItem c syms p it).2 = []) : IsCode (emitItem c syms p it).1 := by
  unfold emitItem at he ⊢
  rw [hp] at he ⊢
  cases it with
  | nothing | select => exact isCode_nil
  | instrs is => exact isCode_instrWords hf he
  | words | bytes => exact isCode_nil

theorem isCode_emitLines {c : Config} {syms : List Symbol} {p : Position} {ls : List AsmLine}
    (hf : ∀ l ∈ ls, l.item.Fixable) (he : (emitLines c syms p ls).errors = []) :
    IsCode (emitLines c syms p ls).text := by
  induction ls generalizing p with
  | nil => exact isCode_nil
  | cons l ls ih =>
    obtain ⟨hl, hls⟩ := List.forall_mem_cons.mp hf
    unfold emitLines at he ⊢
    cases hp : p.segment with
    | text =>
      simp only [hp, List.append_eq_nil_iff, List.map_eq_nil_iff] at he ⊢
      obtain ⟨⟨-, hhere⟩, hrest⟩ := he
      exact (isCode_emitItem hl hp hhere).append (ih hls hrest)
    | data =>
      simp only [hp, List.append_eq_nil_iff] at he ⊢
      exact ih hls he.2

/-- Settles O60: the text of an accepted source is code, and every instruction's word decodes with STRICT_FIELDS. -/
theorem assembledWordsAreStrict : Obligations.AssembledWordsAreStrict := by
  unfold Obligations.AssembledWordsAreStrict
  intro c source a h
  unfold assemble at h
  dsimp only at h
  split at h
  next he =>
    cases h
    obtain ⟨is, his⟩ := isCode_emitLines (fixable_readSource c 1 (splitLines source)) (List.append_eq_nil_iff.mp he).2
    refine ⟨is.map encode, ?_, fun w hw => ?_⟩
    · rw [List.flatMap_map]
      exact his
    · obtain ⟨i, -, rfl⟩ := List.mem_map.mp hw
      exact ⟨i, (encodes_encode i).2 true⟩
  next => cases h

end Sys2Proof.Machine
end
